-- ==== Sys2Proof/Word.lean ====
section
/-! DEFINITION. The unit of every interface: the byte (00_scope.md R8, R9) and the byte sequence. -/

namespace Sys2Proof

/-- R8: "A byte is 8 bits, an unsigned value 0 to 255"; bit 0 is the least significant bit. -/
abbrev Byte := BitVec 8

/-- R9: `Bytes`, a finite sequence of `Byte`, possibly empty, indexed from 0. -/
abbrev Bytes := List Byte

end Sys2Proof
end

