-- ==== Sys2Proof/Config.lean ====
section
/-! DEFINITION. What an implementation fixes (00_scope.md section 4, 10_state.md R56) and the one free function,
`REPORT_FMT`. The parameters are plain data that `State` carries unchanged, so every statement about every state
holds for every choice of them. -/

namespace Sys2Proof

/-- `RSSI_T`, `SNR_T` of 00_scope.md section 4: the numeric type of the two signal metrics. DESIGN CHOICE (log entry 4):
the spec leaves both open and its vectors take integers; the block computes nothing with them (30_encoding.md R123). -/
abbrev Metric := Int

/-- `REPORT_FMT` of an implementation (43_link_frame_codec.md R233): DOC0 gives neither its text nor its types, so it
has no body and nothing can be proved about its value (log entry 5). -/
opaque Config.reportFmt : Metric → Metric → Bytes

/-- Which report text a machine uses: the implementation's own, unconstrained one, or the default that R233 gives for the
spec's test vectors. -/
inductive ReportFmt where
  | implementation
  | vectorDefault
  deriving DecidableEq, Repr

/-- The implementation parameters of 00_scope.md section 4. `none` is "infinite", the value that reproduces DOC0.
`NPEERS` is the length of `State.peers`; `T_POLL` and `T_BUSY_TIMEOUT` have no rule that depends on them (R330). -/
structure Params where
  /-- `MAXFRAME`, capacity in bytes of each delimiter buffer (D11). -/
  maxframe : Option Nat
  /-- `QDEPTH`, capacity in items of the transmit queue (D12). -/
  qdepth : Option Nat
  /-- `CASE_FOLD`: whether ADDR.PARSE upper-cases the callsign (D22). -/
  caseFold : Bool
  /-- `STRIP_NL_BINARY`: whether LF.INJ strips a newline when `DIALECT = BINARY` (D24). -/
  stripNlBinary : Bool
  /-- `REPORT_FMT` (D25). -/
  reportFmt : ReportFmt
  deriving DecidableEq, Repr

/-- The parameters of the machine after reset: "the value that reproduces DOC0", or the default the table of
00_scope.md section 4 gives (log entry 3). -/
def Config.params : Params where
  maxframe := none
  qdepth := none
  caseFold := false
  stripNlBinary := false
  reportFmt := .implementation

/-- `NPEERS` of the machine after reset. DESIGN CHOICE (log entry 3): the spec allows any number ≥ 1 and its vectors use
1 and 2; every statement about a state holds for every number. -/
def Config.npeers : Nat := 2

end Sys2Proof
end

