-- ==== Sys2Proof/Syntax.lean ====
section
/-! DEFINITION. Every row of spec/opcode_table.json as a constructor of `Instr`: the 26 operations of 30_encoding.md R120
and the 25 byte classes and constants of R91 to R111; and `PortWord`, the raw form in which one of them is presented to
the block. -/

namespace Sys2Proof

/-- R9: `Addr = {call, ssid : 0..15, h}`, a Station Address without its position. -/
structure Addr where
  call : Bytes
  ssid : BitVec 4
  h : Bool
  deriving DecidableEq, Repr

/-- R9, R210: `LinkFrame = {dst, src, digis, ctrl, pid, info}`. -/
structure LinkFrame where
  dst : Addr
  src : Addr
  digis : List Addr
  ctrl : Byte
  pid : Byte
  info : Bytes
  deriving DecidableEq, Repr

/-- R30: the two values of `CFG.DIALECT`, `BINARY = 0` and `PATH = 1`. -/
inductive Dialect where
  | binary
  | path
  deriving DecidableEq, Repr

/-- Where a transport byte is met (R91): the delimiter of peer `p` "tests only for MARK", "the byte stuffer tests for all
four", in ESC on its way out and in the serial form of UNESC (R136) on its way in. There the byte says whether it is the
`first` and the `last` of its operation's input: `ESCP` "lives only inside one operation, starts from its initial value at
each operation" (R51). -/
inductive TSite where
  | delimiter (p : Nat)
  | esc
  | unesc (first last : Bool)
  deriving DecidableEq, Repr

/-- The use of an escape pair (R92): read by UNESC with `rest` after it, or written by ESC for the byte it stands for,
again with `rest` after that byte. -/
inductive PairUse where
  | read (rest : Bytes)
  | write (rest : Bytes)
  deriving DecidableEq, Repr

/-- The use of the command byte `0x00`: the one BR.FRAME accepts (R258, after UNWRAP gave `body`), or the one WRAP writes
(R160, before the escaped `body`). -/
inductive CmdUse where
  | frame (p : Nat) (body : Bytes)
  | wrap (body : Bytes)
  deriving DecidableEq, Repr

/-- A field of a packed address is unpacked (ADDR.UNPACK, R181) or packed (ADDR.PACK, R192). -/
inductive AddrUse where
  | unpack
  | pack
  deriving DecidableEq, Repr

/-- The use of the constant control byte `0x03` (R104): LF.ENCB writes it, then the protocol-ID and `info` (R222);
LF.DECP puts it in the record (R218). -/
inductive CtlUiUse where
  | encb (info : Bytes)
  | decp
  deriving DecidableEq, Repr

/-- The use of the protocol-ID (R105): LF.DECB reads one byte "and does not examine its value", with `info` after it;
LF.ENCB writes the constant `0xF0` before `info`; LF.DECP puts the constant in the record. -/
inductive PidUse where
  | decb (pid : Byte) (info : Bytes)
  | encb (info : Bytes)
  | decp
  deriving DecidableEq, Repr

/-- The two roles of `:` (R111): it "ends the path (first occurrence in the sequence)", and it is "the message indicator
when it is the first payload byte" (then `info` follows it and LF.INJ tests it, R231). -/
inductive ColonUse where
  | pathEnd (before after : Bytes)
  | message (info : Bytes) (rssi snr : Metric)
  deriving DecidableEq, Repr

/-- The roles of the space (R111): padding after a callsign of fewer than 6 characters on the wire (R192), padding trimmed from the right of an
unpacked callsign (R181), separator before the signal report (R230). -/
inductive SpaceUse where
  | pad (call : Bytes)
  | trim (before : Bytes)
  | separator (info : Bytes) (rssi snr : Metric)
  deriving DecidableEq, Repr

/-- One constructor per row of spec/opcode_table.json, in the table's order. An operation takes the operands its rule
names. A byte class takes the bits the row leaves open and the place where a unit of the block meets the byte: what
stands `before` and `after` it in the sequence that unit reads (log entry 6). -/
inductive Instr where
  -- 30_encoding.md R120, family 0x0
  | brReset (cfgDialect : Dialect) (cfgAppendReport : Bool)
  | brConn (p : Nat)
  | brDisc (p : Nat)
  | brNetrx (p : Nat) (chunk : Bytes)
  | brRadiorx (payload : Bytes) (rssi snr : Metric)
  | brTxpoll (channelIdle : Bool)
  | brStop
  | brFrame (p : Nat) (f : Bytes)
  -- family 0x1
  | esc (b : Bytes)
  | unesc (e : Bytes)
  -- family 0x2
  | dlmByte (p : Nat) (c : Byte)
  | dlmParse (p : Nat) (chunk : Bytes)
  | dlmReset (p : Nat)
  | wrap (body : Bytes)
  | unwrap (f : Bytes)
  -- family 0x3
  | addrUnpack (b : Bytes) (off : Nat)
  | addrFmt (call : Bytes) (ssid : BitVec 4)
  | addrDec (b : Bytes) (off : Nat)
  | addrParse (t : Bytes)
  | addrPack (a : Addr) (isFinal : Bool)
  | addrEnc (t : Bytes) (isFinal : Bool)
  -- family 0x4
  | lfDecb (b : Bytes)
  | lfDecp (t : Bytes)
  | lfEncb (f : LinkFrame)
  | lfEncp (f : LinkFrame)
  | lfInj (f : LinkFrame) (rssi snr : Metric)
  -- R91: transport byte classes
  | mark (site : TSite)
  | escb (site : TSite)
  | subm (site : TSite)
  | sube (site : TSite)
  | data (site : TSite) (d : Byte)
  -- R92, R134: escape pairs; `tail` is what follows the `0xDB`
  | escpMark (use : PairUse)
  | escpEsc (use : PairUse)
  | escpBad (tail : Bytes)
  -- R94, R261: the command byte
  | cmdData (use : CmdUse)
  | cmdOther (p : Nat) (cmd : Byte) (body : Bytes)
  -- R95, R96: the bytes of a packed address; `low` is bit 0, `rr` bits 6 and 5
  | addrCallbyte (use : AddrUse) (c : BitVec 7) (low : Bool)
  | addrSsidbyte (use : AddrUse) (h : Bool) (rr : BitVec 2) (ssid : BitVec 4) (x : Bool)
  -- R101, R104, R105: control and protocol-ID; `rest` is what follows the control byte in the body
  | ctlU (hi : BitVec 6) (rest : Bytes)
  | ctlS (hi : BitVec 6) (rest : Bytes)
  | ctlI (hi : BitVec 7) (rest : Bytes)
  | ctlUi (use : CtlUiUse)
  | pidNol3 (use : PidUse)
  -- R111: path-notation characters
  | pGt (before after : Bytes)
  | pComma (before after : Bytes)
  | pColon (use : ColonUse)
  | pStar (before after : Bytes)
  | pDash (before after : Bytes)
  | pSpace (use : SpaceUse)
  | pNl (before after : Bytes) (rssi snr : Metric)
  | pDigit (d : BitVec 4) (before after : Bytes)
  deriving DecidableEq, Repr

/-- Where a raw word is presented, which fixes the format its code is read in (R90): the event port of R121; the
invocation of an operation inside the block (R121: "invoked only by the rules that name them"); or a place in one of the
wire formats `TBYTE`, escape pair, command byte, `ADDR` (bytes 0 to 5, byte 6), `CTRL`, protocol-ID, `PCHAR`. -/
inductive Port where
  | event
  | call
  | tbyte
  | tbyte2
  | cmd
  | addrCall
  | addrSsid
  | ctrl
  | ctrlConst
  | pid
  | pchar
  deriving DecidableEq, Repr

/-- What a word carries beside its code: the fields of the event port `(ev, p, data, rssi, snr, channel_idle)` and the two
configuration pins (R121, R30, R31); the operands of an internal operation; and for a byte class the role (`sel`) and the
bytes around it (`data`, `rest`). "Unused ones are ignored" (R121). -/
structure Args where
  p : Nat := 0
  data : Bytes := []
  rssi : Metric := 0
  snr : Metric := 0
  channelIdle : Bool := false
  pinDialect : Bool := false
  pinAppendReport : Bool := false
  off : Nat := 0
  flag : Bool := false
  last : Bool := false
  byte : Byte := 0
  addr : Addr := ⟨[], 0, false⟩
  frame : LinkFrame := ⟨⟨[], 0, false⟩, ⟨[], 0, false⟩, [], 0, 0, []⟩
  sel : Nat := 0
  rest : Bytes := []
  deriving DecidableEq, Repr

/-- One presentation: the port, the bytes the opcode table numbers (in stream order, first byte first), the rest. -/
structure PortWord where
  port : Port
  code : Bytes
  args : Args
  deriving DecidableEq, Repr

/-- Why a word is no instruction; each names the check that refused it. -/
inductive DecodeError where
  /-- R121: "Any other value of `ev` is not an event". -/
  | notAnEvent (ev : Bytes)
  /-- R120, R122: no internal operation has this identifier. -/
  | noSuchOperation (op : Bytes)
  /-- The code has not the length of its format (R90). -/
  | badLength (code : Bytes)
  /-- The bytes are not of the class the port presents. -/
  | notOfThisClass (code : Bytes)
  /-- `sel` names no role the class has. -/
  | noSuchRole (sel : Nat)
  /-- The term is not well formed (WellFormed.lean): for example a digit above 9. -/
  | illFormed (i : Instr)
  deriving DecidableEq, Repr

end Sys2Proof
end

