-- ==== Sys2Proof/Machine/Operands.lean ====
section
/-! DEFINITION. How operands are taken from and put into bytes: the byte constants (30_encoding.md R91, R104, R105, R111),
the bit fields of a packed address and of a control byte (R95, R96, R101, R113), sequence access (00_scope.md R10,
20_memory.md R63) and the text helpers (`dec`, `upper`, splitting). -/

namespace Sys2Proof.Machine

/-! ## Byte constants -/

/-- R91 `MARK`, frame start and end. -/
abbrev cMark : Byte := 0xC0
/-- R91 `ESCB`, introduces a 2-byte escape sequence. -/
abbrev cEscb : Byte := 0xDB
/-- R91 `SUBM`, after `ESCB` stands for `0xC0`. -/
abbrev cSubm : Byte := 0xDC
/-- R91 `SUBE`, after `ESCB` stands for `0xDB`. -/
abbrev cSube : Byte := 0xDD
/-- R94: the command byte of a data frame. -/
abbrev cCmdData : Byte := 0x00
/-- R104: the one control value the block emits. -/
abbrev cCtlUi : Byte := 0x03
/-- R105: the one protocol-ID value the block emits. -/
abbrev cPidNol3 : Byte := 0xF0
/-- R111, R112 `P.GT`. -/
abbrev cGt : Byte := 0x3E
/-- R111, R112 `P.COMMA`. -/
abbrev cComma : Byte := 0x2C
/-- R111, R112 `P.COLON`. -/
abbrev cColon : Byte := 0x3A
/-- R111, R112 `P.STAR`. -/
abbrev cStar : Byte := 0x2A
/-- R111, R112 `P.DASH`. -/
abbrev cDash : Byte := 0x2D
/-- R111, R112 `P.SPACE`. -/
abbrev cSpace : Byte := 0x20
/-- R111, R112 `P.NL`. -/
abbrev cNl : Byte := 0x0A
/-- R111, R112: the digit `0`. -/
abbrev cZero : Byte := 0x30

/-! ## Bit fields (R113) -/

/-- R113: callsign character from the wire, `a[i] >> 1`. -/
def charOfWire (b : Byte) : Byte := b >>> 1

/-- R113: callsign character to the wire, `c << 1`; the caller has tested `c <= 0x7F` (R192). -/
def wireOfChar (c : Byte) : Byte := c <<< 1

/-- R113: SSID, `a[6][4:1]`. -/
def ssidOfWire (b : Byte) : BitVec 4 := b.extractLsb' 1 4

/-- R97, R113: `hrr = a[6][7:5]`. -/
def hrrOfWire (b : Byte) : BitVec 3 := b.extractLsb' 5 3

/-- R113: extension bit, `a[6][0]`. -/
def extOfWire (b : Byte) : Bool := b.getLsbD 0

/-- R96: `a[6] = (h << 7) | 0x60 | (ssid << 1) | x`. -/
def ssidWire (h : Bool) (ssid : BitVec 4) (x : Bool) : Byte :=
  (if h then 0x80 else 0) ||| 0x60 ||| (ssid.setWidth 8 <<< 1) ||| (if x then 1 else 0)

/-- R95: the byte `ccccccc0` with its bit 0 as given (`low`). -/
def callbyteWire (c : BitVec 7) (low : Bool) : Byte := c ++ BitVec.ofBool low

/-- R96: the byte `hrrssssx` with its reserved bits as given. -/
def ssidbyteWire (h : Bool) (rr : BitVec 2) (ssid : BitVec 4) (x : Bool) : Byte :=
  BitVec.ofBool h ++ rr ++ ssid ++ BitVec.ofBool x

/-- R97: a digipeater counts as repeated if and only if `hrr = 0b111`. -/
def isRepeated (hrr : BitVec 3) : Bool := hrr == 0b111

/-- R101: `ctrl & 0x03`. -/
def ctrlClass (c : Byte) : BitVec 2 := c.extractLsb' 0 2

/-- R101: a control byte of class `CTL.U`, bits 7..2 as given. -/
def ctlUWire (hi : BitVec 6) : Byte := hi ++ (0b11 : BitVec 2)

/-- R101: a control byte of class `CTL.S`, bits 7..2 as given. -/
def ctlSWire (hi : BitVec 6) : Byte := hi ++ (0b01 : BitVec 2)

/-- R101: a control byte of class `CTL.I`, bits 7..1 as given. -/
def ctlIWire (hi : BitVec 7) : Byte := hi ++ (0b0 : BitVec 1)

/-- R111: the digit character with value `d`, `0011dddd`. -/
def digitWire (d : BitVec 4) : Byte := (0b0011 : BitVec 4) ++ d

/-! ## Sequences -/

/-- R10: `MemRead(B, off, n) = B[off : off+n]`; every caller has tested `off + n <= len(B)` (20_memory.md R63). -/
def memRead (b : Bytes) (off n : Nat) : Bytes := (b.drop off).take n

/-- R181: "trim spaces from the right only". -/
def trimRight : Bytes → Bytes
  | [] => []
  | c :: cs =>
    let t := trimRight cs
    if t = [] ∧ c = cSpace then [] else c :: t

/-- R192: "right-pad with spaces to 6". -/
def padCall (call : Bytes) : Bytes := call ++ List.replicate (6 - call.length) cSpace

/-- The split of a sequence at the least index holding `c`: what stands before and after it, or none. -/
def splitFirst (c : Byte) : Bytes → Option (Bytes × Bytes)
  | [] => none
  | x :: xs =>
    if x = c then some ([], xs)
    else (splitFirst c xs).map fun (pre, post) => (x :: pre, post)

/-- The split of a sequence at every `c` (R218, "always at least one token, possibly empty"): the first token and the
others. -/
def splitAll (c : Byte) : Bytes → Bytes × List Bytes
  | [] => ([], [])
  | x :: xs =>
    let (t, ts) := splitAll c xs
    if x = c then ([], t :: ts) else (x :: t, ts)

/-! ## Text -/

/-- R10: the digits of `n` before `acc`, most significant first; `fuel` bounds the number of digits. -/
def decDigits : Nat → Nat → Bytes → Bytes
  | 0, _, acc => acc
  | fuel + 1, n, acc =>
    let d := cZero + BitVec.ofNat 8 (n % 10)
    if n < 10 then d :: acc else decDigits fuel (n / 10) (d :: acc)

/-- R10: `dec(n)`, no sign, no leading zero, `dec(0) = "0"`. -/
def dec (n : Nat) : Bytes := decDigits (n + 1) n []

/-- R233: `sdec`, "the decimal text with a leading `-` for negatives". -/
def sdec (v : Metric) : Bytes := (if v < 0 then [cDash] else []) ++ dec v.natAbs

/-- R10: `upper(b)`, "every byte in `0x61..0x7A` replaced by that byte minus `0x20`". -/
def upper (b : Bytes) : Bytes := b.map fun c => if 0x61 ≤ c ∧ c ≤ 0x7A then c - 0x20 else c

/-- R111: `P.DIGIT`, the value of a digit character. -/
def digitValue (c : Byte) : Option Nat := if 0x30 ≤ c ∧ c ≤ 0x39 then some (c.toNat - 0x30) else none

/-- R188: an SSID text is 1 or 2 decimal digits with a value of at most 15. -/
def ssidOfText : Bytes → Option (BitVec 4)
  | [a] => (digitValue a).map (BitVec.ofNat 4)
  | [a, b] =>
    match digitValue a, digitValue b with
    | some x, some y => if x * 10 + y ≤ 15 then some (BitVec.ofNat 4 (x * 10 + y)) else none
    | _, _ => none
  | _ => none

/-- R188: a trailing `*` is stripped, exactly one; whether there was one, and the token without it. -/
def stripStar (t : Bytes) : Bool × Bytes :=
  if t.getLast? = some cStar then (true, t.dropLast) else (false, t)

/-- R233: the default of the spec's vectors, `"RSSI=" ++ sdec(rssi) ++ " SNR=" ++ sdec(snr)`. -/
def vectorReport (rssi snr : Metric) : Bytes :=
  [0x52, 0x53, 0x53, 0x49, 0x3D] ++ sdec rssi ++ [cSpace, 0x53, 0x4E, 0x52, 0x3D] ++ sdec snr

/-- R233: `REPORT_FMT(rssi, snr)`, a parameter. -/
def reportText (f : ReportFmt) (rssi snr : Metric) : Bytes :=
  match f with
  | .implementation => Config.reportFmt rssi snr
  | .vectorDefault => vectorReport rssi snr

end Sys2Proof.Machine
end

