-- ==== Sys2Proof/WellFormed.lean ====
section
/-! DEFINITION. When an instruction term is well formed: the bits the table fixes or excludes for a byte class (R91, R94,
R95, R96, R111, R134). The positional words of R111 ("first occurrence", "last character") are no such check: the rules say
what such a character does elsewhere too (R219), and its meaning does that. -/

namespace Sys2Proof

open Sys2Proof.Machine

/-- R91: `DATA` is "any other" value than the four reserved ones. -/
def isDataByte (d : Byte) : Bool := d != cMark && d != cEscb && d != cSubm && d != cSube

/-- The check. An operation has no ill-formed operand: a peer number outside `0..NPEERS-1` is an operand R251 gives an
effect (none). -/
def Instr.wf : Instr → Bool
  | .data _ d => isDataByte d
  | .escpBad tail => tail.head? != some cSubm && tail.head? != some cSube
  | .cmdOther _ cmd _ => cmd != cCmdData
  | .addrCallbyte .pack _ low => !low
  | .addrSsidbyte .pack _ rr _ _ => rr == 0b11
  | .pDigit d _ _ => decide (d.toNat ≤ 9)
  | .brReset _ _ | .brConn _ | .brDisc _ | .brNetrx _ _ | .brRadiorx _ _ _ | .brTxpoll _ | .brStop | .brFrame _ _
  | .esc _ | .unesc _ | .dlmByte _ _ | .dlmParse _ _ | .dlmReset _ | .wrap _ | .unwrap _
  | .addrUnpack _ _ | .addrFmt _ _ | .addrDec _ _ | .addrParse _ | .addrPack _ _ | .addrEnc _ _
  | .lfDecb _ | .lfDecp _ | .lfEncb _ | .lfEncp _ | .lfInj _ _ _
  | .mark _ | .escb _ | .subm _ | .sube _ | .escpMark _ | .escpEsc _ | .cmdData _
  | .addrCallbyte .unpack _ _ | .addrSsidbyte .unpack _ _ _ _
  | .ctlU _ _ | .ctlS _ _ | .ctlI _ _ | .ctlUi _ | .pidNol3 _
  | .pGt _ _ | .pComma _ _ | .pColon _ | .pStar _ _ | .pDash _ _ | .pSpace _ | .pNl _ _ _ _ => true

/-- R197: when an `Addr` is well formed: 1 to 6 upper-case letters or digits (the SSID fits its field). -/
abbrev Addr.WellFormed (a : Addr) : Prop :=
  1 ≤ a.call.length ∧ a.call.length ≤ 6 ∧
    ∀ c ∈ a.call, (0x41 ≤ c ∧ c ≤ 0x5A) ∨ (0x30 ≤ c ∧ c ≤ 0x39)

/-- R236: when a `LinkFrame` is well formed. -/
abbrev LinkFrame.WellFormed (f : LinkFrame) : Prop :=
  f.dst.WellFormed ∧ f.src.WellFormed ∧ (∀ g ∈ f.digis, g.WellFormed) ∧
    f.dst.h = false ∧ f.src.h = false ∧ f.ctrl = cCtlUi ∧ f.pid = cPidNol3

end Sys2Proof
end

