-- ==== Sys2Proof/Decode.lean ====
section
/-! DEFINITION. The decoder, total on any word and rejecting by name, then the encoder, both written from the operation
map (30_encoding.md R120, R121) and the byte classes (R91 to R111); and the decoder of an opcode-table word. -/

namespace Sys2Proof

open Sys2Proof.Machine

/-! ## Operation identifiers (R120) -/

abbrev opReset : Byte := 0x00
abbrev opConn : Byte := 0x01
abbrev opDisc : Byte := 0x02
abbrev opNetrx : Byte := 0x03
abbrev opRadiorx : Byte := 0x04
abbrev opTxpoll : Byte := 0x05
abbrev opStop : Byte := 0x06
abbrev opFrame : Byte := 0x07
abbrev opEsc : Byte := 0x10
abbrev opUnesc : Byte := 0x11
abbrev opDlmByte : Byte := 0x20
abbrev opDlmParse : Byte := 0x21
abbrev opDlmReset : Byte := 0x22
abbrev opWrap : Byte := 0x23
abbrev opUnwrap : Byte := 0x24
abbrev opAddrUnpack : Byte := 0x30
abbrev opAddrFmt : Byte := 0x31
abbrev opAddrDec : Byte := 0x32
abbrev opAddrParse : Byte := 0x33
abbrev opAddrPack : Byte := 0x34
abbrev opAddrEnc : Byte := 0x35
abbrev opLfDecb : Byte := 0x40
abbrev opLfDecp : Byte := 0x41
abbrev opLfEncb : Byte := 0x42
abbrev opLfEncp : Byte := 0x43
abbrev opLfInj : Byte := 0x44

/-- R30: a configuration pin read as a dialect, `BINARY = 0`, `PATH = 1`. -/
def dialectOfPin (b : Bool) : Dialect := if b then .path else .binary

/-- R30, the other way. -/
def pinOfDialect : Dialect → Bool
  | .binary => false
  | .path => true

/-! ## Decoding, port by port -/

/-- R121: an event is one of the opids `0x00` to `0x06`; "any other value of `ev` is not an event". -/
def decodeEvent (ev : Byte) (a : Args) : Except DecodeError Instr :=
  if ev = opReset then .ok (.brReset (dialectOfPin a.pinDialect) a.pinAppendReport)
  else if ev = opConn then .ok (.brConn a.p)
  else if ev = opDisc then .ok (.brDisc a.p)
  else if ev = opNetrx then .ok (.brNetrx a.p a.data)
  else if ev = opRadiorx then .ok (.brRadiorx a.data a.rssi a.snr)
  else if ev = opTxpoll then .ok (.brTxpoll a.channelIdle)
  else if ev = opStop then .ok .brStop
  else .error (.notAnEvent [ev])

/-- R120, R121: the internal operations, BR.FRAME and families `0x1` to `0x4`. -/
def decodeCall (op : Byte) (a : Args) : Except DecodeError Instr :=
  if op = opFrame then .ok (.brFrame a.p a.data)
  else if op = opEsc then .ok (.esc a.data)
  else if op = opUnesc then .ok (.unesc a.data)
  else if op = opDlmByte then .ok (.dlmByte a.p a.byte)
  else if op = opDlmParse then .ok (.dlmParse a.p a.data)
  else if op = opDlmReset then .ok (.dlmReset a.p)
  else if op = opWrap then .ok (.wrap a.data)
  else if op = opUnwrap then .ok (.unwrap a.data)
  else if op = opAddrUnpack then .ok (.addrUnpack a.data a.off)
  else if op = opAddrFmt then .ok (.addrFmt a.addr.call a.addr.ssid)
  else if op = opAddrDec then .ok (.addrDec a.data a.off)
  else if op = opAddrParse then .ok (.addrParse a.data)
  else if op = opAddrPack then .ok (.addrPack a.addr a.flag)
  else if op = opAddrEnc then .ok (.addrEnc a.data a.flag)
  else if op = opLfDecb then .ok (.lfDecb a.data)
  else if op = opLfDecp then .ok (.lfDecp a.data)
  else if op = opLfEncb then .ok (.lfEncb a.frame)
  else if op = opLfEncp then .ok (.lfEncp a.frame)
  else if op = opLfInj then .ok (.lfInj a.frame a.rssi a.snr)
  else .error (.noSuchOperation [op])

/-- The place a transport byte is met, by its role number. -/
def decodeSite (a : Args) : Except DecodeError TSite :=
  match a.sel with
  | 0 => .ok (.delimiter a.p)
  | 1 => .ok .esc
  | 2 => .ok (.unesc a.flag a.last)
  | n => .error (.noSuchRole n)

/-- R91: transport byte classes, by value. -/
def decodeTbyte (c : Byte) (a : Args) : Except DecodeError Instr :=
  (decodeSite a).map fun site =>
    if c = cMark then .mark site
    else if c = cEscb then .escb site
    else if c = cSubm then .subm site
    else if c = cSube then .sube site
    else .data site c

/-- Reading or writing an escape pair, by role number. -/
def decodePairUse (a : Args) : Except DecodeError PairUse :=
  match a.sel with
  | 0 => .ok (.read a.data)
  | 1 => .ok (.write a.data)
  | n => .error (.noSuchRole n)

/-- R92: the two escape pairs, and R134: `0xDB` followed by anything else or by nothing. -/
def decodeTbyte2 (code : Bytes) (a : Args) : Except DecodeError Instr :=
  match code with
  | [c] => if c = cEscb then .ok (.escpBad []) else .error (.notOfThisClass code)
  | [c, d] =>
    if c = cEscb then
      if d = cSubm then (decodePairUse a).map .escpMark
      else if d = cSube then (decodePairUse a).map .escpEsc
      else .ok (.escpBad (d :: a.data))
    else .error (.notOfThisClass code)
  | _ => .error (.badLength code)

/-- R94, R261: the command byte. -/
def decodeCmd (c : Byte) (a : Args) : Except DecodeError Instr :=
  if c = cCmdData then
    match a.sel with
    | 0 => .ok (.cmdData (.frame a.p a.data))
    | 1 => .ok (.cmdData (.wrap a.data))
    | n => .error (.noSuchRole n)
  else .ok (.cmdOther a.p c a.data)

/-- Unpacking or packing an address byte, by role number. -/
def decodeAddrUse (a : Args) : Except DecodeError AddrUse :=
  match a.sel with
  | 0 => .ok .unpack
  | 1 => .ok .pack
  | n => .error (.noSuchRole n)

/-- R95: `ccccccc0`; bit 0 is kept, because unpacking takes any value of it. -/
def decodeAddrCall (b : Byte) (a : Args) : Except DecodeError Instr :=
  (decodeAddrUse a).map fun use => .addrCallbyte use (b.extractLsb' 1 7) (b.getLsbD 0)

/-- R96: `hrrssssx`. -/
def decodeAddrSsid (b : Byte) (a : Args) : Except DecodeError Instr :=
  (decodeAddrUse a).map fun use =>
    .addrSsidbyte use (b.getLsbD 7) (b.extractLsb' 5 2) (b.extractLsb' 1 4) (b.getLsbD 0)

/-- R101: "the three classes cover all 256 values". -/
def decodeCtrl (c : Byte) (a : Args) : Except DecodeError Instr :=
  if ctrlClass c = 0b11 then .ok (.ctlU (c.extractLsb' 2 6) a.data)
  else if ctrlClass c = 0b01 then .ok (.ctlS (c.extractLsb' 2 6) a.data)
  else .ok (.ctlI (c.extractLsb' 1 7) a.data)

/-- R104: the constant control byte, as the block emits it. -/
def decodeCtrlConst (c : Byte) (a : Args) : Except DecodeError Instr :=
  if c = cCtlUi then
    match a.sel with
    | 0 => .ok (.ctlUi (.encb a.data))
    | 1 => .ok (.ctlUi .decp)
    | n => .error (.noSuchRole n)
  else .error (.notOfThisClass [c])

/-- R105: the protocol-ID. On decode any value is accepted (R115: "protocol-ID other than `0xF0`": "ignored, accepted");
written, it is the one value the block emits. -/
def decodePid (c : Byte) (a : Args) : Except DecodeError Instr :=
  if a.sel = 0 then .ok (.pidNol3 (.decb c a.data))
  else if c = cPidNol3 then
    match a.sel with
    | 1 => .ok (.pidNol3 (.encb a.data))
    | 2 => .ok (.pidNol3 .decp)
    | n => .error (.noSuchRole n)
  else .error (.notOfThisClass [c])

/-- R111: path-notation character classes, by value. -/
def decodePchar (c : Byte) (a : Args) : Except DecodeError Instr :=
  if c = cGt then .ok (.pGt a.data a.rest)
  else if c = cComma then .ok (.pComma a.data a.rest)
  else if c = cColon then
    match a.sel with
    | 0 => .ok (.pColon (.pathEnd a.data a.rest))
    | 1 => .ok (.pColon (.message a.data a.rssi a.snr))
    | n => .error (.noSuchRole n)
  else if c = cStar then .ok (.pStar a.data a.rest)
  else if c = cDash then .ok (.pDash a.data a.rest)
  else if c = cSpace then
    match a.sel with
    | 0 => .ok (.pSpace (.pad a.data))
    | 1 => .ok (.pSpace (.trim a.data))
    | 2 => .ok (.pSpace (.separator a.data a.rssi a.snr))
    | n => .error (.noSuchRole n)
  else if c = cNl then .ok (.pNl a.data a.rest a.rssi a.snr)
  else if (c.extractLsb' 4 4 : BitVec 4) = 0b0011 then .ok (.pDigit (c.extractLsb' 0 4) a.data a.rest)
  else .error (.notOfThisClass [c])

/-- A word read in the format of its port, before the well-formedness check. -/
def decodeRaw (w : PortWord) : Except DecodeError Instr :=
  match w.port, w.code with
  | .event, [c] => decodeEvent c w.args
  | .call, [c] => decodeCall c w.args
  | .tbyte, [c] => decodeTbyte c w.args
  | .tbyte2, code => decodeTbyte2 code w.args
  | .cmd, [c] => decodeCmd c w.args
  | .addrCall, [c] => decodeAddrCall c w.args
  | .addrSsid, [c] => decodeAddrSsid c w.args
  | .ctrl, [c] => decodeCtrl c w.args
  | .ctrlConst, [c] => decodeCtrlConst c w.args
  | .pid, [c] => decodePid c w.args
  | .pchar, [c] => decodePchar c w.args
  | .event, code => .error (.notAnEvent code)
  | _, code => .error (.badLength code)

/-- The decoder: total, and it answers well-formed instructions only. -/
def decode (w : PortWord) : Except DecodeError Instr :=
  match decodeRaw w with
  | .error e => .error e
  | .ok i => if i.wf then .ok i else .error (.illFormed i)

/-! ## Encoding -/

/-- A transport byte at its place. -/
def encodeTbyte (c : Byte) : TSite → PortWord
  | .delimiter p => ⟨.tbyte, [c], { sel := 0, p := p }⟩
  | .esc => ⟨.tbyte, [c], { sel := 1 }⟩
  | .unesc first last => ⟨.tbyte, [c], { sel := 2, flag := first, last := last }⟩

/-- An escape pair in its use. -/
def encodePair (c : Byte) : PairUse → PortWord
  | .read rest => ⟨.tbyte2, [cEscb, c], { sel := 0, data := rest }⟩
  | .write rest => ⟨.tbyte2, [cEscb, c], { sel := 1, data := rest }⟩

/-- Role number of an address byte. -/
def addrUseSel : AddrUse → Nat
  | .unpack => 0
  | .pack => 1

/-- The word of an instruction. -/
def encode : Instr → PortWord
  | .brReset d a => ⟨.event, [opReset], { pinDialect := pinOfDialect d, pinAppendReport := a }⟩
  | .brConn p => ⟨.event, [opConn], { p := p }⟩
  | .brDisc p => ⟨.event, [opDisc], { p := p }⟩
  | .brNetrx p chunk => ⟨.event, [opNetrx], { p := p, data := chunk }⟩
  | .brRadiorx payload rssi snr => ⟨.event, [opRadiorx], { data := payload, rssi := rssi, snr := snr }⟩
  | .brTxpoll idle => ⟨.event, [opTxpoll], { channelIdle := idle }⟩
  | .brStop => ⟨.event, [opStop], {}⟩
  | .brFrame p f => ⟨.call, [opFrame], { p := p, data := f }⟩
  | .esc b => ⟨.call, [opEsc], { data := b }⟩
  | .unesc e => ⟨.call, [opUnesc], { data := e }⟩
  | .dlmByte p c => ⟨.call, [opDlmByte], { p := p, byte := c }⟩
  | .dlmParse p chunk => ⟨.call, [opDlmParse], { p := p, data := chunk }⟩
  | .dlmReset p => ⟨.call, [opDlmReset], { p := p }⟩
  | .wrap body => ⟨.call, [opWrap], { data := body }⟩
  | .unwrap f => ⟨.call, [opUnwrap], { data := f }⟩
  | .addrUnpack b off => ⟨.call, [opAddrUnpack], { data := b, off := off }⟩
  | .addrFmt call ssid => ⟨.call, [opAddrFmt], { addr := ⟨call, ssid, false⟩ }⟩
  | .addrDec b off => ⟨.call, [opAddrDec], { data := b, off := off }⟩
  | .addrParse t => ⟨.call, [opAddrParse], { data := t }⟩
  | .addrPack a fin => ⟨.call, [opAddrPack], { addr := a, flag := fin }⟩
  | .addrEnc t fin => ⟨.call, [opAddrEnc], { data := t, flag := fin }⟩
  | .lfDecb b => ⟨.call, [opLfDecb], { data := b }⟩
  | .lfDecp t => ⟨.call, [opLfDecp], { data := t }⟩
  | .lfEncb f => ⟨.call, [opLfEncb], { frame := f }⟩
  | .lfEncp f => ⟨.call, [opLfEncp], { frame := f }⟩
  | .lfInj f rssi snr => ⟨.call, [opLfInj], { frame := f, rssi := rssi, snr := snr }⟩
  | .mark site => encodeTbyte cMark site
  | .escb site => encodeTbyte cEscb site
  | .subm site => encodeTbyte cSubm site
  | .sube site => encodeTbyte cSube site
  | .data site d => encodeTbyte d site
  | .escpMark use => encodePair cSubm use
  | .escpEsc use => encodePair cSube use
  | .escpBad [] => ⟨.tbyte2, [cEscb], {}⟩
  | .escpBad (s :: rest) => ⟨.tbyte2, [cEscb, s], { data := rest }⟩
  | .cmdData (.frame p body) => ⟨.cmd, [cCmdData], { sel := 0, p := p, data := body }⟩
  | .cmdData (.wrap body) => ⟨.cmd, [cCmdData], { sel := 1, data := body }⟩
  | .cmdOther p cmd body => ⟨.cmd, [cmd], { p := p, data := body }⟩
  | .addrCallbyte use c low => ⟨.addrCall, [callbyteWire c low], { sel := addrUseSel use }⟩
  | .addrSsidbyte use h rr ssid x => ⟨.addrSsid, [ssidbyteWire h rr ssid x], { sel := addrUseSel use }⟩
  | .ctlU hi rest => ⟨.ctrl, [ctlUWire hi], { data := rest }⟩
  | .ctlS hi rest => ⟨.ctrl, [ctlSWire hi], { data := rest }⟩
  | .ctlI hi rest => ⟨.ctrl, [ctlIWire hi], { data := rest }⟩
  | .ctlUi (.encb info) => ⟨.ctrlConst, [cCtlUi], { sel := 0, data := info }⟩
  | .ctlUi .decp => ⟨.ctrlConst, [cCtlUi], { sel := 1 }⟩
  | .pidNol3 (.decb pid info) => ⟨.pid, [pid], { sel := 0, data := info }⟩
  | .pidNol3 (.encb info) => ⟨.pid, [cPidNol3], { sel := 1, data := info }⟩
  | .pidNol3 .decp => ⟨.pid, [cPidNol3], { sel := 2 }⟩
  | .pGt before after => ⟨.pchar, [cGt], { data := before, rest := after }⟩
  | .pComma before after => ⟨.pchar, [cComma], { data := before, rest := after }⟩
  | .pColon (.pathEnd before after) => ⟨.pchar, [cColon], { sel := 0, data := before, rest := after }⟩
  | .pColon (.message info rssi snr) => ⟨.pchar, [cColon], { sel := 1, data := info, rssi := rssi, snr := snr }⟩
  | .pStar before after => ⟨.pchar, [cStar], { data := before, rest := after }⟩
  | .pDash before after => ⟨.pchar, [cDash], { data := before, rest := after }⟩
  | .pSpace (.pad call) => ⟨.pchar, [cSpace], { sel := 0, data := call }⟩
  | .pSpace (.trim before) => ⟨.pchar, [cSpace], { sel := 1, data := before }⟩
  | .pSpace (.separator info rssi snr) => ⟨.pchar, [cSpace], { sel := 2, data := info, rssi := rssi, snr := snr }⟩
  | .pNl before after rssi snr => ⟨.pchar, [cNl], { data := before, rest := after, rssi := rssi, snr := snr }⟩
  | .pDigit d before after => ⟨.pchar, [digitWire d], { data := before, rest := after }⟩

/-! ## Words of the opcode table -/

/-- The port at which an 8-bit word of the opcode table is presented. The table's formats share the 256 byte values, so
one value may be a word of several rows; the operation identifiers come first, then the other classes from the narrowest
to the widest (log entry 7). -/
def portOfTableByte (b : Byte) : Port :=
  if b ≤ opStop then .event
  else if b ∈ [opFrame, opEsc, opUnesc, opDlmByte, opDlmParse, opDlmReset, opWrap, opUnwrap, opAddrUnpack, opAddrFmt,
      opAddrDec, opAddrParse, opAddrPack, opAddrEnc, opLfDecb, opLfDecp, opLfEncb, opLfEncp, opLfInj] then .call
  else if b ∈ [cMark, cEscb, cSubm, cSube] then .tbyte
  else if b = cPidNol3 then .pid
  else if b ∈ [cGt, cComma, cColon, cStar, cDash, cSpace, cNl] ∨ (0x30 ≤ b ∧ b ≤ 0x39) then .pchar
  else if b &&& 0x60 = 0x60 then .addrSsid
  else if ctrlClass b = 0b11 ∨ ctrlClass b = 0b01 then .ctrl
  else .addrCall

/-- The word an opcode-table word `w` of `nbits` bits stands for, every operand the table gives no bits being empty or
zero. An 8-bit row is one byte; a 16-bit row is an escape pair, its first byte the high one, as the table writes the
pattern `11011011 ssssssss` (R92; log entry 7). -/
def tableInput (nbits w : Nat) : PortWord :=
  if nbits = 8 then ⟨portOfTableByte (BitVec.ofNat 8 w), [BitVec.ofNat 8 w], {}⟩
  else if nbits = 16 then ⟨.tbyte2, [BitVec.ofNat 8 (w / 256), BitVec.ofNat 8 w], {}⟩
  else ⟨.call, [], {}⟩

/-- The instruction the decoder reads from an opcode-table word. -/
def decodeTableWord (nbits w : Nat) : Option Instr := (decode (tableInput nbits w)).toOption

end Sys2Proof
end

