-- ==== Sys2Proof/Machine/State.lean ====
section
/-! DEFINITION. The state tuple of 10_state.md, the block's interfaces, the results an operation can give, and the state
right after reset (R55). -/

namespace Sys2Proof.Machine

/-! ## Failures and results (60_exceptions.md R300 to R303) -/

/-- R300: the error kinds, codes 1 to 8 (code 0 is success). -/
inductive ErrKind where
  | framingError
  | unsupportedFrameType
  | malformedAddress
  | truncatedFrame
  | encodingFailure
  | unsupportedCommand
  | bufferOverflow
  | queueOverflow
  deriving DecidableEq, Repr

/-- R9, R303: `fail(k, i)`, with the opid of the innermost operation that executed the `raise`. -/
structure Failure where
  kind : ErrKind
  info : Nat
  unit : Byte
  deriving DecidableEq, Repr

/-- R9: `Result T`, either `ok(v)` or a failure. -/
abbrev Result (α : Type) := Except Failure α

/-- R151: what one delimiter transition gives. -/
inductive DlmResult where
  | none
  | frame (f : Bytes)
  | overrun
  deriving DecidableEq, Repr

/-- R181: what ADDR.UNPACK returns, `(call, ssid, hrr, x)`. -/
structure Unpacked where
  call : Bytes
  ssid : BitVec 4
  hrr : BitVec 3
  x : Bool
  deriving DecidableEq, Repr

/-- The value an operation returns with `ok`. -/
inductive Value where
  /-- DLM.RESET: "Result: none" (R156). -/
  | unit
  | bytes (b : Bytes)
  /-- UNWRAP: command and body (R162). -/
  | cmdBody (cmd : Byte) (body : Bytes)
  /-- DLM.BYTE (R151). -/
  | dlm (r : DlmResult)
  /-- DLM.PARSE (R157). -/
  | dlms (rs : List DlmResult)
  /-- ADDR.UNPACK (R181). -/
  | unpacked (u : Unpacked)
  /-- ADDR.DEC: text, `hrr`, `x` (R185). -/
  | decoded (text : Bytes) (hrr : BitVec 3) (x : Bool)
  /-- ADDR.PARSE (R188). -/
  | addr (a : Addr)
  /-- LF.DECB, LF.DECP, LF.INJ. -/
  | frame (f : LinkFrame)
  /-- The end of LF.DECB, from the control byte on: `ctrl`, `pid`, `info` (R211). -/
  | control (ctrl pid : Byte) (info : Bytes)
  /-- An SSID byte unpacked: `ssid`, `hrr`, `x`, and whether a digipeater holding it counts as repeated (R97). -/
  | ssidFields (ssid : BitVec 4) (hrr : BitVec 3) (x repeated : Bool)
  /-- A sequence split in two at a separator (R218). -/
  | split (before after : Bytes)
  /-- A chain split at its commas (R218). -/
  | tokens (first : Bytes) (others : List Bytes)
  /-- A token without its `*`, and whether it had one (R188). -/
  | star (h : Bool) (token : Bytes)
  /-- A token split into callsign and SSID (R188). -/
  | callSsid (call : Bytes) (ssid : BitVec 4)
  /-- The value of an SSID text (R188). -/
  | ssid (ssid : BitVec 4)
  deriving DecidableEq, Repr

/-- The outcome of the last internal operation; `idle` when none has run. -/
inductive OpResult where
  | idle
  | ok (v : Value)
  | fail (f : Failure)
  deriving DecidableEq, Repr

/-! ## The state tuple -/

/-- R23, R24: the delimiter states. -/
inductive Dst where
  | idle
  | started
  | inBody
  | overrun
  deriving DecidableEq, Repr

/-- R45: direction of a log record, `0` NET→RADIO, `1` RADIO→NET. -/
inductive Direction where
  | netToRadio
  | radioToNet
  deriving DecidableEq, Repr

/-- R45: `Log(k, u, d, p, i)`. -/
structure LogRecord where
  kind : ErrKind
  unit : Byte
  dir : Direction
  peer : Nat
  info : Nat
  deriving DecidableEq, Repr

/-- What the block holds for one peer, and what it has written to that peer. -/
structure Peer where
  /-- `CONN[p]` (R26). -/
  conn : Bool
  /-- `DST[p]` (R23, R24). -/
  dst : Dst
  /-- `BUF[p]` (R21). -/
  buf : Bytes
  /-- `net_tx[p]` (R40): the `NetWrite(p, b)` events, oldest first. R271: a run is observed by "for each peer the sequence
  of `NetWrite` events", so the order among peers, which R264 leaves unspecified, is not represented. -/
  netTx : List Bytes
  deriving DecidableEq, Repr

/-- The machine: the state tuple of 10_state.md (`CFG`, `RUN`, `CONN`, `DST`, `BUF`, `TXQ`), the hidden bit of R51, the
fixed parameters (R56), and the interfaces of R40 (inputs not yet taken, outputs emitted). -/
structure State where
  /-- `CFG.DIALECT` (R30). -/
  dialect : Dialect
  /-- `CFG.APPEND_REPORT` (R31). -/
  appendReport : Bool
  /-- `RUN` (R27). -/
  run : Bool
  /-- `CONN[p]`, `DST[p]`, `BUF[p]`, `net_tx[p]` for `p` in `0..NPEERS-1`; `NPEERS` is the length. -/
  peers : List Peer
  /-- `TXQ`, head first (R35). -/
  txq : List Bytes
  /-- `ESCP` of the serial form of UNESC (R136), not architectural (R51): only a transport byte presented at the `unesc`
  site reads it, the first byte of an operation reads `0` in its place, and BR.RESET clears it (log entry 8). -/
  escp : Bool
  /-- The implementation parameters (R56): fixed before the first reset, never changed (R355). -/
  params : Params
  /-- `radio_tx` (R40): the `RadioTx(b)` events, oldest first. -/
  radioTx : List Bytes
  /-- `log` (R40): the `Log` records, oldest first. -/
  log : List LogRecord
  /-- The model's own: the `Result` of the last internal operation (R9, R28). -/
  result : OpResult
  /-- The model's own: what the surroundings have presented and the block has not yet taken, first to be taken first
  (R121, R312). -/
  pending : List PortWord
  deriving DecidableEq, Repr

/-- `NPEERS` of a machine. -/
def State.npeers (s : State) : Nat := s.peers.length

/-! ## Outcomes -/

/-- R321: "No input can stop, wedge or reset the block"; 93_implementation_defined.md: "No behaviour of the block is
`stuck`". There is no fault, so the type is empty. -/
inductive Fault
  deriving DecidableEq, Repr

/-- Why a step has no meaning. -/
inductive Refusal where
  /-- For an instruction whose meaning is not written: none is left, so nothing raises it. Safe: the model would stop. -/
  | notModelled (mnemonic : String)
  deriving DecidableEq, Repr

/-! ## Reset (R55) -/

/-- A peer after reset: `CONN[p] = 0`, `DST[p] = IDLE`, `BUF[p]` empty (R55); nothing written yet. -/
def Peer.reset : Peer where
  conn := false
  dst := .idle
  buf := []
  netTx := []

/-- The machine right after its first BR.RESET (R55, "a model should take the post-reset state as its initial state"). The
two `CFG` fields hold the value of the configuration pins, which the spec leaves to the surroundings: both pins are low
here (DESIGN CHOICE, log entry 2). -/
def State.reset : State where
  dialect := .binary
  appendReport := false
  run := true
  peers := List.replicate Config.npeers Peer.reset
  txq := []
  escp := false
  params := Config.params
  radioTx := []
  log := []
  result := .idle
  pending := []

end Sys2Proof.Machine
end

