-- ==== Sys2Proof/Machine/Flags.lean ====
section
/-! DEFINITION. The block has no condition flags (10_state.md R28). What it has in their place: the `RUN` gate (R27, R251),
the `CONN` bits (R26), and the encodings of its states and error kinds (R24, R45, R300). -/

namespace Sys2Proof.Machine

/-- R24: the two bits of `DST[p]`. -/
def dstBits : Dst → BitVec 2
  | .idle => 0b00
  | .started => 0b01
  | .inBody => 0b10
  | .overrun => 0b11

/-- R300: the code `k` of an error kind. -/
def errCode : ErrKind → Nat
  | .framingError => 1
  | .unsupportedFrameType => 2
  | .malformedAddress => 3
  | .truncatedFrame => 4
  | .encodingFailure => 5
  | .unsupportedCommand => 6
  | .bufferOverflow => 7
  | .queueOverflow => 8

/-- R45: the bit `d` of a log record. -/
def directionBit : Direction → BitVec 1
  | .netToRadio => 0
  | .radioToNet => 1

/-- R26: whether peer `p` is connected; a peer number outside `0..NPEERS-1` is not. -/
def isConnected (p : Nat) (s : State) : Bool :=
  match s.peers[p]? with
  | some q => q.conn
  | none => false

/-- R251: "Every event except BR.RESET begins with the test `if RUN = 0: return` (nothing written, nothing emitted)". -/
def whenRunning (s t : State) : State := if s.run then t else s

end Sys2Proof.Machine
end

