-- ==== Sys2Proof/Machine/Ops.lean ====
section
/-! DEFINITION. The named operations over the state: the result register, one peer's registers, the queue, the output
events, and the one failure entry of 60_exceptions.md R320. -/

namespace Sys2Proof.Machine

/-! ## Results -/

/-- R9: the `Result` an internal operation ends with. -/
def State.setResult (s : State) (r : OpResult) : State := { s with result := r }

/-- R9: a `Result` as the value of the result register. -/
def outcome {α : Type} (mk : α → Value) : Result α → OpResult
  | .ok v => .ok (mk v)
  | .error f => .fail f

/-! ## Peers -/

/-- A write to the registers of peer `p`; nothing for a peer number outside `0..NPEERS-1` (R251). -/
def State.updPeer (s : State) (p : Nat) (f : Peer → Peer) : State := { s with peers := s.peers.modify p f }

/-- R156: `BUF[p] <- []; DST[p] <- IDLE`. -/
def Peer.dlmReset (q : Peer) : Peer := { q with dst := .idle, buf := [] }

/-- R45, R262: the event `NetWrite(p, out)` for every `p` with `CONN[p] = 1`. -/
def State.netWriteAll (s : State) (out : Bytes) : State :=
  { s with peers := s.peers.map fun q => if q.conn then { q with netTx := q.netTx ++ [out] } else q }

/-! ## The transmit queue (R36) -/

/-- R36: `push(v)`. -/
def State.pushTx (s : State) (item : Bytes) : State := { s with txq := s.txq ++ [item] }

/-- R258: whether the queue holds `QDEPTH` items; never when `QDEPTH` is infinite. -/
def State.queueFull (s : State) : Bool := decide (s.params.qdepth = some s.txq.length)

/-- R36, R266: `pop()` and the event `RadioTx(item)`. -/
def State.popToRadio (s : State) (item : Bytes) (rest : List Bytes) : State :=
  { s with txq := rest, radioTx := s.radioTx ++ [item] }

/-! ## Control bits -/

/-- R270: `RUN <- 0`. -/
def State.stop (s : State) : State := { s with run := false }

/-- R136: a write of `ESCP` with the result of the byte that wrote it. -/
def State.setEscp (s : State) (e : Bool) (r : OpResult) : State := { s with escp := e, result := r }

/-! ## Failures -/

/-- R45: the event `Log(k, u, d, p, i)`. -/
def State.emitLog (s : State) (r : LogRecord) : State := { s with log := s.log ++ [r] }

/-- R320, failure entry, the one place every failure goes: exactly one `Log(k, u, d, p, i)`; the frame is discarded; "no
state changes on account of the failure"; "control goes nowhere". R322: there is no return from it. -/
def failEntry (dir : Direction) (p : Nat) (f : Failure) (s : State) : State :=
  s.emitLog ⟨f.kind, f.unit, dir, p, f.info⟩

end Sys2Proof.Machine
end

