-- ==== Sys2Proof/Machine/ByteStuffer.lean ====
section
/-! DEFINITION. Byte Stuffer: ESC, UNESC (40_byte_stuffer.md). -/

namespace Sys2Proof.Machine

/-- R131: what ESC writes for one input byte. -/
def escByte (c : Byte) : Bytes :=
  if c = cMark then [cEscb, cSubm] else if c = cEscb then [cEscb, cSube] else [c]

/-- R131: ESC. -/
def escBytes (b : Bytes) : Bytes := b.flatMap escByte

/-- R301: an escape byte followed by an unrecognized substitute, or last. -/
def badEscape : Failure := ⟨.framingError, 1, opUnesc⟩

/-- R134: UNESC. -/
def unescBytes : Bytes → Result Bytes
  | [] => .ok []
  | [c] => if c = cEscb then .error badEscape else .ok [c]
  | c :: d :: rest =>
    if c = cEscb then
      if d = cSubm then (unescBytes rest).map (cMark :: ·)
      else if d = cSube then (unescBytes rest).map (cEscb :: ·)
      else .error badEscape
    else (unescBytes (d :: rest)).map (c :: ·)

/-- R136: one row of the table of the serial form: the output and the next `ESCP`. -/
def unescStep (escp : Bool) (c : Byte) : Result (Bytes × Bool) :=
  if escp then
    if c = cSubm then .ok ([cMark], false)
    else if c = cSube then .ok ([cEscb], false)
    else .error badEscape
  else if c = cEscb then .ok ([], true)
  else .ok ([c], false)

/-- R136, R51: one byte of the serial form inside its operation: the first byte meets `ESCP` at its initial value; "at the
end of the input, `ESCP = 1` raises `FramingError(1)`". The output and the next `ESCP`. -/
def unescSerial (first last escp : Bool) (c : Byte) : Result (Bytes × Bool) :=
  match unescStep (!first && escp) c with
  | .error f => .error f
  | .ok (out, e) => if last && e then .error badEscape else .ok (out, e)

/-- ESC, opid `0x10` (R131). -/
def execEsc (b : Bytes) (s : State) : Host.Outcome State Fault Refusal :=
  .next (s.setResult (.ok (.bytes (escBytes b))))

/-- UNESC, opid `0x11` (R134). -/
def execUnesc (e : Bytes) (s : State) : Host.Outcome State Fault Refusal :=
  .next (s.setResult (outcome .bytes (unescBytes e)))

end Sys2Proof.Machine
end

