-- ==== Sys2Proof/Machine/FrameDelimiter.lean ====
section
/-! DEFINITION. Frame Delimiter State Machine: DLM.BYTE, DLM.PARSE, DLM.RESET, WRAP, UNWRAP (41_frame_delimiter.md). -/

namespace Sys2Proof.Machine

/-- R151 to R155: one transition of a delimiter instance in state `dst` with buffer `buf`, on byte `c`, `max` being
`MAXFRAME`: the next state, the next buffer and the result. -/
def dlmTransition (max : Option Nat) (dst : Dst) (buf : Bytes) (c : Byte) : Dst × Bytes × DlmResult :=
  match dst with
  | .idle => if c = cMark then (.started, [cMark], .none) else (.idle, buf, .none)
  | .started => if c = cMark then (.idle, [], .none) else (.inBody, buf ++ [c], .none)
  | .inBody =>
    if max = some buf.length then (if c = cMark then .idle else .overrun, [], .overrun)
    else if c = cMark then (.idle, [], .frame (buf ++ [cMark]))
    else (.inBody, buf ++ [c], .none)
  | .overrun => (if c = cMark then .idle else .overrun, buf, .none)

/-- The registers of a peer after one transition. -/
def Peer.dlmNext (q : Peer) (max : Option Nat) (c : Byte) : Peer :=
  { q with dst := (dlmTransition max q.dst q.buf c).1, buf := (dlmTransition max q.dst q.buf c).2.1 }

/-- R151: DLM.BYTE, the state after and the result. A peer number outside `0..NPEERS-1` has no instance: nothing (R251). -/
def dlmByte (p : Nat) (c : Byte) (s : State) : State × DlmResult :=
  match s.peers[p]? with
  | none => (s, .none)
  | some q =>
    (s.updPeer p fun q => q.dlmNext s.params.maxframe c, (dlmTransition s.params.maxframe q.dst q.buf c).2.2)

/-- R157: DLM.PARSE, the fold of DLM.BYTE over a chunk with the non-`none` results in order. -/
def dlmParse (p : Nat) : Bytes → State → State × List DlmResult
  | [], s => (s, [])
  | c :: cs, s =>
    let (s1, r) := dlmByte p c s
    let (s2, rs) := dlmParse p cs s1
    (s2, if r = .none then rs else r :: rs)

/-- R156: DLM.RESET. -/
def dlmReset (p : Nat) (s : State) : State := s.updPeer p Peer.dlmReset

/-- R160: what WRAP writes after the start marker: the command byte, the escaped body, the end marker. -/
def wrapTail (body : Bytes) : Bytes := cCmdData :: escBytes body ++ [cMark]

/-- R160: WRAP. -/
def wrapBytes (body : Bytes) : Bytes := cMark :: wrapTail body

/-- R301: markers missing or misplaced after the unescape. -/
def badMarkers : Failure := ⟨.framingError, 2, opUnwrap⟩

/-- R162: UNWRAP; the command byte and the body. -/
def unwrapBytes (f : Bytes) : Result (Byte × Bytes) :=
  match unescBytes f with
  | .error e => .error e
  | .ok u =>
    if u.length < 3 ∨ u.head? ≠ some cMark ∨ u.getLast? ≠ some cMark then .error badMarkers
    else .ok (u.getD 1 0, (u.drop 2).dropLast)

/-- DLM.BYTE, opid `0x20` (R151). -/
def execDlmByte (p : Nat) (c : Byte) (s : State) : Host.Outcome State Fault Refusal :=
  .next ((dlmByte p c s).1.setResult (.ok (.dlm (dlmByte p c s).2)))

/-- DLM.PARSE, opid `0x21` (R157). -/
def execDlmParse (p : Nat) (chunk : Bytes) (s : State) : Host.Outcome State Fault Refusal :=
  .next ((dlmParse p chunk s).1.setResult (.ok (.dlms (dlmParse p chunk s).2)))

/-- DLM.RESET, opid `0x22` (R156). -/
def execDlmReset (p : Nat) (s : State) : Host.Outcome State Fault Refusal :=
  .next ((dlmReset p s).setResult (.ok .unit))

/-- WRAP, opid `0x23` (R160). -/
def execWrap (body : Bytes) (s : State) : Host.Outcome State Fault Refusal :=
  .next (s.setResult (.ok (.bytes (wrapBytes body))))

/-- UNWRAP, opid `0x24` (R162). -/
def execUnwrap (f : Bytes) (s : State) : Host.Outcome State Fault Refusal :=
  .next (s.setResult (outcome (fun r => .cmdBody r.1 r.2) (unwrapBytes f)))

end Sys2Proof.Machine
end

