-- ==== Sys2Proof/Machine/AddressCodec.lean ====
section
/-! DEFINITION. Address Codec: ADDR.UNPACK, ADDR.FMT, ADDR.DEC, ADDR.PARSE, ADDR.PACK, ADDR.ENC (42_address_codec.md). -/

namespace Sys2Proof.Machine

/-- R301: an address is due and fewer than 7 bytes remain. -/
def shortAddress : Failure := ⟨.malformedAddress, 0, opAddrUnpack⟩

/-- R301: SSID text not 1 or 2 decimal digits, or above 15. -/
def badSsidText : Failure := ⟨.malformedAddress, 2, opAddrParse⟩

/-- R301: callsign of 0 or more than 6 characters, in ADDR.PARSE. -/
def badCallText : Failure := ⟨.malformedAddress, 1, opAddrParse⟩

/-- R301: callsign of more than 6 characters, in ADDR.PACK. -/
def badCallLength : Failure := ⟨.malformedAddress, 1, opAddrPack⟩

/-- R301: a callsign character above `0x7F`. -/
def badCallChar (c : Byte) : Failure := ⟨.encodingFailure, c.toNat, opAddrPack⟩

/-- R181: ADDR.UNPACK. -/
def addrUnpack (b : Bytes) (off : Nat) : Result Unpacked :=
  if off + 7 > b.length then .error shortAddress
  else
    let a := memRead b off 7
    let last := a.getD 6 0
    .ok ⟨trimRight ((a.take 6).map charOfWire), ssidOfWire last, hrrOfWire last, extOfWire last⟩

/-- R183: ADDR.FMT. -/
def addrFmt (call : Bytes) (ssid : BitVec 4) : Bytes :=
  call ++ (if ssid ≠ 0 then cDash :: dec ssid.toNat else [])

/-- R185: ADDR.DEC. -/
def addrDec (b : Bytes) (off : Nat) : Result (Bytes × BitVec 3 × Bool) :=
  (addrUnpack b off).map fun u => (addrFmt u.call u.ssid, u.hrr, u.x)

/-- R188: the part of ADDR.PARSE that splits a token at its first `-` and reads the SSID text. -/
def splitSsid (t : Bytes) : Result (Bytes × BitVec 4) :=
  match splitFirst cDash t with
  | none => .ok (t, 0)
  | some (call, text) =>
    match ssidOfText text with
    | none => .error badSsidText
    | some ssid => .ok (call, ssid)

/-- R188: ADDR.PARSE, `fold` being `CASE_FOLD`. -/
def addrParse (fold : Bool) (t : Bytes) : Result Addr :=
  let (h, t) := stripStar t
  match splitSsid t with
  | .error e => .error e
  | .ok (call, ssid) =>
    let call := if fold then upper call else call
    if call.length = 0 ∨ call.length > 6 then .error badCallText else .ok ⟨call, ssid, h⟩

/-- R192: the six character bytes of a packed address: padded, each shifted left by one, the first character above `0x7F`
being the failure. -/
def packCall (call : Bytes) : Result Bytes :=
  match (padCall call).find? (fun c => decide (0x7F < c)) with
  | some c => .error (badCallChar c)
  | none => .ok ((padCall call).map wireOfChar)

/-- R192: ADDR.PACK. "An empty callsign packs to six `0x40` (ADDR.PACK does not refuse it; ADDR.PARSE does)": decision D19
says length 0 fails in both, and the model follows the rule (DEDUCED, log entry 23). -/
def addrPack (a : Addr) (isFinal : Bool) : Result Bytes :=
  if a.call.length > 6 then .error badCallLength
  else (packCall a.call).map (· ++ [ssidWire a.h a.ssid isFinal])

/-- R195: ADDR.ENC. -/
def addrEnc (fold : Bool) (t : Bytes) (isFinal : Bool) : Result Bytes :=
  match addrParse fold t with
  | .error e => .error e
  | .ok a => addrPack a isFinal

/-- ADDR.UNPACK, opid `0x30` (R181). -/
def execAddrUnpack (b : Bytes) (off : Nat) (s : State) : Host.Outcome State Fault Refusal :=
  .next (s.setResult (outcome .unpacked (addrUnpack b off)))

/-- ADDR.FMT, opid `0x31` (R183). -/
def execAddrFmt (call : Bytes) (ssid : BitVec 4) (s : State) : Host.Outcome State Fault Refusal :=
  .next (s.setResult (.ok (.bytes (addrFmt call ssid))))

/-- ADDR.DEC, opid `0x32` (R185). -/
def execAddrDec (b : Bytes) (off : Nat) (s : State) : Host.Outcome State Fault Refusal :=
  .next (s.setResult (outcome (fun r => .decoded r.1 r.2.1 r.2.2) (addrDec b off)))

/-- ADDR.PARSE, opid `0x33` (R188). -/
def execAddrParse (t : Bytes) (s : State) : Host.Outcome State Fault Refusal :=
  .next (s.setResult (outcome .addr (addrParse s.params.caseFold t)))

/-- ADDR.PACK, opid `0x34` (R192). -/
def execAddrPack (a : Addr) (isFinal : Bool) (s : State) : Host.Outcome State Fault Refusal :=
  .next (s.setResult (outcome .bytes (addrPack a isFinal)))

/-- ADDR.ENC, opid `0x35` (R195). -/
def execAddrEnc (t : Bytes) (isFinal : Bool) (s : State) : Host.Outcome State Fault Refusal :=
  .next (s.setResult (outcome .bytes (addrEnc s.params.caseFold t isFinal)))

end Sys2Proof.Machine
end

