-- ==== Sys2Proof/Machine/LinkFrameCodec.lean ====
section
/-! DEFINITION. Link Frame Codec: LF.DECB, LF.DECP, LF.ENCB, LF.ENCP, LF.INJ (43_link_frame_codec.md). -/

namespace Sys2Proof.Machine

/-- R301: control byte due, none remains. -/
def noControl : Failure := ⟨.truncatedFrame, 1, opLfDecb⟩

/-- R301: protocol-ID byte due, none remains. -/
def noPid : Failure := ⟨.truncatedFrame, 2, opLfDecb⟩

/-- R301: control low bits `01`, supervisory. -/
def supervisory : Failure := ⟨.unsupportedFrameType, 1, opLfDecb⟩

/-- R301: control low bit `0`, numbered information. -/
def numbered : Failure := ⟨.unsupportedFrameType, 2, opLfDecb⟩

/-- R301: path-notation sequence without `:`. -/
def noColon : Failure := ⟨.framingError, 3, opLfDecp⟩

/-- R301: path without `>`. -/
def noGt : Failure := ⟨.framingError, 4, opLfDecp⟩

/-! ## Binary dialect, decode (R211) -/

/-- R211, R213: the loop `while x = 0` of LF.DECB from position `pos`: the digipeaters and the position after the last of
them. `fuel` bounds the rounds; each round needs 7 bytes, so `len(B)` rounds always reach the end of `B`, where
ADDR.UNPACK fails in the way the exhausted fuel does. -/
def decbDigis : Nat → Bytes → Nat → Result (List Addr × Nat)
  | 0, _, _ => .error shortAddress
  | fuel + 1, b, pos =>
    match addrUnpack b pos with
    | .error e => .error e
    | .ok u =>
      let d : Addr := ⟨u.call, u.ssid, isRepeated u.hrr⟩
      if u.x then .ok ([d], pos + 7)
      else (decbDigis fuel b (pos + 7)).map fun (ds, q) => (d :: ds, q)

/-- R211, R214: the end of LF.DECB, on the bytes from the control byte on: `ctrl`, `pid`, `info`. -/
def decbControl : Bytes → Result (Byte × Byte × Bytes)
  | [] => .error noControl
  | ctrl :: rest =>
    if ctrlClass ctrl = 0b11 then
      match rest with
      | [] => .error noPid
      | pid :: info => .ok (ctrl, pid, info)
    else if ctrlClass ctrl = 0b01 then .error supervisory
    else .error numbered

/-- R211: LF.DECB. -/
def lfDecb (b : Bytes) : Result LinkFrame :=
  match addrUnpack b 0 with
  | .error e => .error e
  | .ok d =>
    match addrUnpack b 7 with
    | .error e => .error e
    | .ok sr =>
      match if sr.x then .ok ([], 14) else decbDigis b.length b 14 with
      | .error e => .error e
      | .ok (digis, pos) =>
        match decbControl (b.drop pos) with
        | .error e => .error e
        | .ok (ctrl, pid, info) => .ok ⟨⟨d.call, d.ssid, false⟩, ⟨sr.call, sr.ssid, false⟩, digis, ctrl, pid, info⟩

/-! ## Path notation, decode (R218) -/

/-- R218: ADDR.PARSE of each token, in order, the first failure being the one reported. -/
def parseTokens (fold : Bool) : List Bytes → Result (List Addr)
  | [] => .ok []
  | t :: ts =>
    match addrParse fold t with
    | .error e => .error e
    | .ok a => (parseTokens fold ts).map (a :: ·)

/-- R218, R219: LF.DECP, `fold` being `CASE_FOLD`. -/
def lfDecp (fold : Bool) (t : Bytes) : Result LinkFrame :=
  match splitFirst cColon t with
  | none => .error noColon
  | some (path, info) =>
    match splitFirst cGt path with
    | none => .error noGt
    | some (srctok, chain) =>
      let (dsttok, digitoks) := splitAll cComma chain
      match addrParse fold srctok with
      | .error e => .error e
      | .ok src =>
        match addrParse fold dsttok with
        | .error e => .error e
        | .ok dst =>
          (parseTokens fold digitoks).map fun digis => ⟨dst, src, digis, cCtlUi, cPidNol3, info⟩

/-! ## Encode (R222, R226) -/

/-- R222: the digipeater addresses in chain order, final only for the last. -/
def packDigis : List Addr → Result Bytes
  | [] => .ok []
  | a :: as =>
    match addrPack a as.isEmpty with
    | .error e => .error e
    | .ok b => (packDigis as).map (b ++ ·)

/-- R222: what LF.ENCB writes after the addresses. -/
def encbTail (info : Bytes) : Bytes := cCtlUi :: cPidNol3 :: info

/-- R222: LF.ENCB. -/
def lfEncb (f : LinkFrame) : Result Bytes :=
  match addrPack f.dst false with
  | .error e => .error e
  | .ok d =>
    match addrPack f.src f.digis.isEmpty with
    | .error e => .error e
    | .ok sr => (packDigis f.digis).map fun g => d ++ sr ++ g ++ encbTail f.info

/-- R226: what LF.ENCP writes for one digipeater. -/
def digiText (g : Addr) : Bytes := cComma :: addrFmt g.call g.ssid ++ (if g.h then [cStar] else [])

/-- R226: LF.ENCP. -/
def lfEncp (f : LinkFrame) : Bytes :=
  addrFmt f.src.call f.src.ssid ++ [cGt] ++ addrFmt f.dst.call f.dst.ssid ++ f.digis.flatMap digiText ++ [cColon] ++ f.info

/-! ## Signal report (R230 to R233) -/

/-- R230: `info ++ [0x20] ++ REPORT_FMT(rssi, snr)`. -/
def appendReport (fmt : ReportFmt) (info : Bytes) (rssi snr : Metric) : Bytes :=
  info ++ [cSpace] ++ reportText fmt rssi snr

/-- R232: "exactly one trailing newline". -/
def stripNl (info : Bytes) : Bytes := if info.getLast? = some cNl then info.dropLast else info

/-- R230, R231, R232: the payload after LF.INJ. -/
def injInfo (params : Params) (dialect : Dialect) (append : Bool) (info : Bytes) (rssi snr : Metric) : Bytes :=
  if !append then info
  else if info.head? = some cColon then info
  else
    appendReport params.reportFmt (if dialect = .path ∨ params.stripNlBinary then stripNl info else info) rssi snr

/-- R230: LF.INJ reads `CFG` and the parameters. -/
def lfInj (s : State) (f : LinkFrame) (rssi snr : Metric) : LinkFrame :=
  { f with info := injInfo s.params s.dialect s.appendReport f.info rssi snr }

/-- LF.DECB, opid `0x40` (R211). -/
def execLfDecb (b : Bytes) (s : State) : Host.Outcome State Fault Refusal :=
  .next (s.setResult (outcome .frame (lfDecb b)))

/-- LF.DECP, opid `0x41` (R218). -/
def execLfDecp (t : Bytes) (s : State) : Host.Outcome State Fault Refusal :=
  .next (s.setResult (outcome .frame (lfDecp s.params.caseFold t)))

/-- LF.ENCB, opid `0x42` (R222). -/
def execLfEncb (f : LinkFrame) (s : State) : Host.Outcome State Fault Refusal :=
  .next (s.setResult (outcome .bytes (lfEncb f)))

/-- LF.ENCP, opid `0x43` (R226). -/
def execLfEncp (f : LinkFrame) (s : State) : Host.Outcome State Fault Refusal :=
  .next (s.setResult (.ok (.bytes (lfEncp f))))

/-- LF.INJ, opid `0x44` (R230). -/
def execLfInj (f : LinkFrame) (rssi snr : Metric) (s : State) : Host.Outcome State Fault Refusal :=
  .next (s.setResult (.ok (.frame (lfInj s f rssi snr))))

end Sys2Proof.Machine
end

