-- ==== Sys2Proof/Machine/Bridge.lean ====
section
/-! DEFINITION. Bridge Orchestrator: BR.RESET, BR.CONN, BR.DISC, BR.NETRX, BR.FRAME, BR.RADIORX, BR.TXPOLL, BR.STOP
(44_bridge.md). -/

namespace Sys2Proof.Machine

/-! ## Reset and connections -/

/-- R250: a peer after BR.RESET; what was written to it stays written (R352). -/
def Peer.brReset (q : Peer) : Peer := { q.dlmReset with conn := false }

/-- R250: BR.RESET, "State written: all of it"; the hidden bit goes to its initial value (R51, log entry 13). -/
def brReset (dialect : Dialect) (append : Bool) (s : State) : State :=
  { s with
    dialect := dialect, appendReport := append, run := true, txq := [], peers := s.peers.map Peer.brReset, escp := false }

/-- R252: BR.CONN. -/
def brConn (p : Nat) (s : State) : State :=
  whenRunning s (s.updPeer p fun q => { q.dlmReset with conn := true })

/-- R253: BR.DISC. -/
def brDisc (p : Nat) (s : State) : State :=
  whenRunning s (s.updPeer p fun q => { q.dlmReset with conn := false })

/-! ## NET→RADIO -/

/-- R259: `TORADIO(f)`. -/
def toRadio (dialect : Dialect) (f : LinkFrame) : Result Bytes :=
  match dialect with
  | .path => .ok (lfEncp f)
  | .binary => lfEncb f

/-- R300, R301: a command byte other than `0x00`. -/
def badCommand (cmd : Byte) : Failure := ⟨.unsupportedCommand, cmd.toNat, opFrame⟩

/-- R300, R301: a push onto a full queue. -/
def queueOverflow : Failure := ⟨.queueOverflow, 0, opFrame⟩

/-- R300, R301: a frame longer than the buffer; the info value is `MAXFRAME`. -/
def bufferOverflow (max : Option Nat) : Failure := ⟨.bufferOverflow, max.getD 0, opDlmByte⟩

/-- R258: BR.FRAME from the point where UNWRAP has given the command byte and the body. -/
def brCommand (p : Nat) (cmd : Byte) (body : Bytes) (s : State) : State :=
  if cmd ≠ cCmdData then failEntry .netToRadio p (badCommand cmd) s
  else
    match lfDecb body with
    | .error e => failEntry .netToRadio p e s
    | .ok f =>
      match toRadio s.dialect f with
      | .error e => failEntry .netToRadio p e s
      | .ok item =>
        if s.queueFull then failEntry .netToRadio p queueOverflow s
        else s.pushTx item

/-- R258: BR.FRAME. -/
def brFrame (p : Nat) (f : Bytes) (s : State) : State :=
  match unwrapBytes f with
  | .error e => failEntry .netToRadio p e s
  | .ok (cmd, body) => brCommand p cmd body s

/-- R255: what BR.NETRX does with the result of one DLM.BYTE. -/
def brDelimited (p : Nat) (r : DlmResult) (s : State) : State :=
  match r with
  | .none => s
  | .frame f => brFrame p f s
  | .overrun => failEntry .netToRadio p (bufferOverflow s.params.maxframe) s

/-- R255: the loop of BR.NETRX over a chunk. -/
def brNetrxLoop (p : Nat) : Bytes → State → State
  | [], s => s
  | c :: cs, s => brNetrxLoop p cs (brDelimited p (dlmByte p c s).2 (dlmByte p c s).1)

/-- R254, R255: BR.NETRX. -/
def brNetrx (p : Nat) (chunk : Bytes) (s : State) : State :=
  whenRunning s (if isConnected p s then brNetrxLoop p chunk s else s)

/-! ## RADIO→NET -/

/-- R263: the radio packet is parsed in the dialect `CFG.DIALECT`. -/
def fromRadio (s : State) (payload : Bytes) : Result LinkFrame :=
  match s.dialect with
  | .path => lfDecp s.params.caseFold payload
  | .binary => lfDecb payload

/-- R262: the body BR.RADIORX wraps, or the failure it logs. -/
def radioBody (s : State) (payload : Bytes) (rssi snr : Metric) : Result Bytes :=
  match fromRadio s payload with
  | .error e => .error e
  | .ok f => lfEncb (lfInj s f rssi snr)

/-- R262: BR.RADIORX. -/
def brRadiorx (payload : Bytes) (rssi snr : Metric) (s : State) : State :=
  whenRunning s
    (match radioBody s payload rssi snr with
    | .error e => failEntry .radioToNet 0 e s
    | .ok body => s.netWriteAll (wrapBytes body))

/-! ## Transmit poll and stop -/

/-- R266: BR.TXPOLL. -/
def brTxpoll (channelIdle : Bool) (s : State) : State :=
  whenRunning s
    (match s.txq with
    | [] => s
    | item :: rest => if channelIdle then s.popToRadio item rest else s)

/-- R270: BR.STOP. -/
def brStop (s : State) : State := whenRunning s s.stop

/-- BR.RESET, opid `0x00` (R250). -/
def execBrReset (dialect : Dialect) (append : Bool) (s : State) : Host.Outcome State Fault Refusal :=
  .next (brReset dialect append s)

/-- BR.CONN, opid `0x01` (R252). -/
def execBrConn (p : Nat) (s : State) : Host.Outcome State Fault Refusal := .next (brConn p s)

/-- BR.DISC, opid `0x02` (R253). -/
def execBrDisc (p : Nat) (s : State) : Host.Outcome State Fault Refusal := .next (brDisc p s)

/-- BR.NETRX, opid `0x03` (R255). -/
def execBrNetrx (p : Nat) (chunk : Bytes) (s : State) : Host.Outcome State Fault Refusal := .next (brNetrx p chunk s)

/-- BR.RADIORX, opid `0x04` (R262). -/
def execBrRadiorx (payload : Bytes) (rssi snr : Metric) (s : State) : Host.Outcome State Fault Refusal :=
  .next (brRadiorx payload rssi snr s)

/-- BR.TXPOLL, opid `0x05` (R266). -/
def execBrTxpoll (channelIdle : Bool) (s : State) : Host.Outcome State Fault Refusal := .next (brTxpoll channelIdle s)

/-- BR.STOP, opid `0x06` (R270). -/
def execBrStop (s : State) : Host.Outcome State Fault Refusal := .next (brStop s)

/-- BR.FRAME, opid `0x07` (R258): internal, so not behind the `RUN` gate of the events. -/
def execBrFrame (p : Nat) (f : Bytes) (s : State) : Host.Outcome State Fault Refusal := .next (brFrame p f s)

end Sys2Proof.Machine
end

