-- ==== Sys2Proof/Machine/ByteClasses.lean ====
section
/-! DEFINITION. The 25 byte classes and constants of the opcode table (30_encoding.md R91 to R111): what the unit of the
block that meets a byte of the class does with it there. Each meaning is one call of the shared operation that unit uses
(log entry 6). -/

namespace Sys2Proof.Machine

/-! ## Transport bytes (R91) -/

/-- R91: a transport byte met by the delimiter of a peer (one DLM.BYTE, R151), by ESC (what it writes for that byte, R131)
or by UNESC (one byte of the serial form, R136; a failure ends the operation, so `ESCP` is back at its initial value, log
entry 16). -/
def transportByte (site : TSite) (c : Byte) (s : State) : State :=
  match site with
  | .delimiter p => (dlmByte p c s).1.setResult (.ok (.dlm (dlmByte p c s).2))
  | .esc => s.setResult (.ok (.bytes (escByte c)))
  | .unesc first last =>
    match unescSerial first last s.escp c with
    | .error f => s.setEscp false (.fail f)
    | .ok (out, e) => s.setEscp e (.ok (.bytes out))

/-- MARK, `0xC0`. -/
def execMark (site : TSite) (s : State) : Host.Outcome State Fault Refusal := .next (transportByte site cMark s)

/-- ESCB, `0xDB`. -/
def execEscb (site : TSite) (s : State) : Host.Outcome State Fault Refusal := .next (transportByte site cEscb s)

/-- SUBM, `0xDC`: "special meaning only directly after `ESCB`". -/
def execSubm (site : TSite) (s : State) : Host.Outcome State Fault Refusal := .next (transportByte site cSubm s)

/-- SUBE, `0xDD`. -/
def execSube (site : TSite) (s : State) : Host.Outcome State Fault Refusal := .next (transportByte site cSube s)

/-- DATA: "itself". -/
def execData (site : TSite) (d : Byte) (s : State) : Host.Outcome State Fault Refusal := .next (transportByte site d s)

/-! ## Escape pairs (R92) -/

/-- R92: UNESC reads the pair and what follows, or ESC writes it for the byte `c` it stands for. -/
def escapePair (use : PairUse) (c sub : Byte) (s : State) : State :=
  match use with
  | .read rest => s.setResult (outcome .bytes (unescBytes (cEscb :: sub :: rest)))
  | .write rest => s.setResult (.ok (.bytes (escBytes (c :: rest))))

/-- ESCP.MARK, `DB DC`, stands for `0xC0`. -/
def execEscpMark (use : PairUse) (s : State) : Host.Outcome State Fault Refusal := .next (escapePair use cMark cSubm s)

/-- ESCP.ESC, `DB DD`, stands for `0xDB`. -/
def execEscpEsc (use : PairUse) (s : State) : Host.Outcome State Fault Refusal := .next (escapePair use cEscb cSube s)

/-- ESCP.BAD: UNESC meets `0xDB` followed by an unrecognized substitute or by nothing (R134). -/
def execEscpBad (tail : Bytes) (s : State) : Host.Outcome State Fault Refusal :=
  .next (s.setResult (outcome .bytes (unescBytes (cEscb :: tail))))

/-! ## Command byte (R94, R261) -/

/-- CMD.DATA, `0x00`: BR.FRAME accepts the frame (R258), or WRAP writes it before the escaped body (R160). -/
def execCmdData (use : CmdUse) (s : State) : Host.Outcome State Fault Refusal :=
  .next
    (match use with
    | .frame p body => brCommand p cCmdData body s
    | .wrap body => s.setResult (.ok (.bytes (wrapTail body))))

/-- CMD.OTHER: "frame dropped with `Log(UnsupportedCommand, ...)`" (R261). -/
def execCmdOther (p : Nat) (cmd : Byte) (body : Bytes) (s : State) : Host.Outcome State Fault Refusal :=
  .next (brCommand p cmd body s)

/-! ## Bytes of a packed address (R95, R96) -/

/-- ADDR.CALLBYTE: unpacked, the character with bit 0 ignored; packed, the character shifted left, bit 0 `0`. -/
def execAddrCallbyte (use : AddrUse) (c : BitVec 7) (low : Bool) (s : State) : Host.Outcome State Fault Refusal :=
  .next (s.setResult (.ok (.bytes
    (match use with
    | .unpack => [charOfWire (callbyteWire c low)]
    | .pack => [wireOfChar (c.setWidth 8)]))))

/-- ADDR.SSIDBYTE: unpacked, the fields with the reserved bits inside `hrr` (R97); packed, the fields with the reserved
bits `11`. -/
def execAddrSsidbyte (use : AddrUse) (h : Bool) (rr : BitVec 2) (ssid : BitVec 4) (x : Bool) (s : State) :
    Host.Outcome State Fault Refusal :=
  .next (s.setResult (.ok
    (match use with
    | .unpack =>
      let b := ssidbyteWire h rr ssid x
      .ssidFields (ssidOfWire b) (hrrOfWire b) (extOfWire b) (isRepeated (hrrOfWire b))
    | .pack => .bytes [ssidWire h ssid x])))

/-! ## Control byte and protocol-ID (R101, R104, R105) -/

/-- R211, R214: LF.DECB at its control byte. -/
def controlByte (c : Byte) (rest : Bytes) (s : State) : State :=
  s.setResult (outcome (fun r => .control r.1 r.2.1 r.2.2) (decbControl (c :: rest)))

/-- CTL.U: accepted, a protocol-ID byte follows. -/
def execCtlU (hi : BitVec 6) (rest : Bytes) (s : State) : Host.Outcome State Fault Refusal :=
  .next (controlByte (ctlUWire hi) rest s)

/-- CTL.S: `UnsupportedFrameType(1)`. -/
def execCtlS (hi : BitVec 6) (rest : Bytes) (s : State) : Host.Outcome State Fault Refusal :=
  .next (controlByte (ctlSWire hi) rest s)

/-- CTL.I: `UnsupportedFrameType(2)`. -/
def execCtlI (hi : BitVec 7) (rest : Bytes) (s : State) : Host.Outcome State Fault Refusal :=
  .next (controlByte (ctlIWire hi) rest s)

/-- CTL.UI, `0x03`: LF.ENCB writes it, then protocol-ID and payload (R222); LF.DECP puts it in the record (R218). -/
def execCtlUi (use : CtlUiUse) (s : State) : Host.Outcome State Fault Refusal :=
  .next (s.setResult (.ok (.bytes
    (match use with
    | .encb info => encbTail info
    | .decp => [cCtlUi]))))

/-- PID.NOL3: read after an accepted control byte, its value not examined (R105); `0xF0` written before the payload; or
put in the record by LF.DECP. -/
def execPidNol3 (use : PidUse) (s : State) : Host.Outcome State Fault Refusal :=
  .next
    (match use with
    | .decb pid info => controlByte cCtlUi (pid :: info) s
    | .encb info => s.setResult (.ok (.bytes ((encbTail info).drop 1)))
    | .decp => s.setResult (.ok (.bytes [cPidNol3])))

/-! ## Path-notation characters (R111) -/

/-- R218: a split at the first occurrence of a separator, as a value; the whole sequence and nothing where there is none. -/
def splitValue (c : Byte) (t : Bytes) : Value :=
  match splitFirst c t with
  | some (pre, post) => .split pre post
  | none => .split t []

/-- P.GT: "ends the source token (first occurrence in the path)"; "a second `>` stays inside the chain" (R219). -/
def execPGt (before after : Bytes) (s : State) : Host.Outcome State Fault Refusal :=
  .next (s.setResult (.ok (splitValue cGt (before ++ cGt :: after))))

/-- P.COMMA: "separates chain tokens". -/
def execPComma (before after : Bytes) (s : State) : Host.Outcome State Fault Refusal :=
  .next (s.setResult (.ok (.tokens (splitAll cComma (before ++ cComma :: after)).1
    (splitAll cComma (before ++ cComma :: after)).2)))

/-- P.COLON: "ends the path (first occurrence in the sequence)", or the message indicator LF.INJ tests (R231). -/
def execPColon (use : ColonUse) (s : State) : Host.Outcome State Fault Refusal :=
  .next (s.setResult (.ok
    (match use with
    | .pathEnd before after => splitValue cColon (before ++ cColon :: after)
    | .message info rssi snr => .bytes (injInfo s.params s.dialect s.appendReport (cColon :: info) rssi snr))))

/-- P.STAR: "repeated marker, last character of a token"; elsewhere "a callsign character" (R189). -/
def execPStar (before after : Bytes) (s : State) : Host.Outcome State Fault Refusal :=
  .next (s.setResult (.ok (.star (stripStar (before ++ cStar :: after)).1 (stripStar (before ++ cStar :: after)).2)))

/-- P.DASH: "introduces the SSID (first occurrence in a token)". -/
def execPDash (before after : Bytes) (s : State) : Host.Outcome State Fault Refusal :=
  .next (s.setResult (outcome (fun r => .callSsid r.1 r.2) (splitSsid (before ++ cDash :: after))))

/-- P.SPACE: "callsign padding on the wire; separator before the signal report". As padding it follows a callsign of fewer
than 6 characters; one of 6 gets none and a longer one fails in ADDR.PACK (R192). -/
def execPSpace (use : SpaceUse) (s : State) : Host.Outcome State Fault Refusal :=
  .next (s.setResult
    (match use with
    | .pad call => outcome .bytes (if call.length > 6 then .error badCallLength else packCall call)
    | .trim before => .ok (.bytes (trimRight (before ++ [cSpace])))
    | .separator info rssi snr => .ok (.bytes (appendReport s.params.reportFmt info rssi snr))))

/-- P.NL: "stripped once by LF.INJ". -/
def execPNl (before after : Bytes) (rssi snr : Metric) (s : State) : Host.Outcome State Fault Refusal :=
  .next (s.setResult (.ok (.bytes
    (injInfo s.params s.dialect s.appendReport (before ++ cNl :: after) rssi snr))))

/-- P.DIGIT: an SSID digit, with the SSID text around it (R188). -/
def execPDigit (d : BitVec 4) (before after : Bytes) (s : State) : Host.Outcome State Fault Refusal :=
  .next (s.setResult
    (match ssidOfText (before ++ digitWire d :: after) with
    | some v => .ok (.ssid v)
    | none => .fail badSsidText))

end Sys2Proof.Machine
end

