-- ==== Sys2Proof/Machine/Dispatch.lean ====
section
/-! DEFINITION. One arm per constructor of `Instr`. -/

namespace Sys2Proof.Machine

def exec (i : Instr) (s : State) : Host.Outcome State Fault Refusal :=
  match i with
  | .brReset d a => Sys2Proof.Machine.execBrReset d a s
  | .brConn p => Sys2Proof.Machine.execBrConn p s
  | .brDisc p => Sys2Proof.Machine.execBrDisc p s
  | .brNetrx p chunk => Sys2Proof.Machine.execBrNetrx p chunk s
  | .brRadiorx payload rssi snr => Sys2Proof.Machine.execBrRadiorx payload rssi snr s
  | .brTxpoll idle => Sys2Proof.Machine.execBrTxpoll idle s
  | .brStop => Sys2Proof.Machine.execBrStop s
  | .brFrame p f => Sys2Proof.Machine.execBrFrame p f s
  | .esc b => Sys2Proof.Machine.execEsc b s
  | .unesc e => Sys2Proof.Machine.execUnesc e s
  | .dlmByte p c => Sys2Proof.Machine.execDlmByte p c s
  | .dlmParse p chunk => Sys2Proof.Machine.execDlmParse p chunk s
  | .dlmReset p => Sys2Proof.Machine.execDlmReset p s
  | .wrap body => Sys2Proof.Machine.execWrap body s
  | .unwrap f => Sys2Proof.Machine.execUnwrap f s
  | .addrUnpack b off => Sys2Proof.Machine.execAddrUnpack b off s
  | .addrFmt call ssid => Sys2Proof.Machine.execAddrFmt call ssid s
  | .addrDec b off => Sys2Proof.Machine.execAddrDec b off s
  | .addrParse t => Sys2Proof.Machine.execAddrParse t s
  | .addrPack a fin => Sys2Proof.Machine.execAddrPack a fin s
  | .addrEnc t fin => Sys2Proof.Machine.execAddrEnc t fin s
  | .lfDecb b => Sys2Proof.Machine.execLfDecb b s
  | .lfDecp t => Sys2Proof.Machine.execLfDecp t s
  | .lfEncb f => Sys2Proof.Machine.execLfEncb f s
  | .lfEncp f => Sys2Proof.Machine.execLfEncp f s
  | .lfInj f rssi snr => Sys2Proof.Machine.execLfInj f rssi snr s
  | .mark site => Sys2Proof.Machine.execMark site s
  | .escb site => Sys2Proof.Machine.execEscb site s
  | .subm site => Sys2Proof.Machine.execSubm site s
  | .sube site => Sys2Proof.Machine.execSube site s
  | .data site d => Sys2Proof.Machine.execData site d s
  | .escpMark use => Sys2Proof.Machine.execEscpMark use s
  | .escpEsc use => Sys2Proof.Machine.execEscpEsc use s
  | .escpBad tail => Sys2Proof.Machine.execEscpBad tail s
  | .cmdData use => Sys2Proof.Machine.execCmdData use s
  | .cmdOther p cmd body => Sys2Proof.Machine.execCmdOther p cmd body s
  | .addrCallbyte use c low => Sys2Proof.Machine.execAddrCallbyte use c low s
  | .addrSsidbyte use h rr ssid x => Sys2Proof.Machine.execAddrSsidbyte use h rr ssid x s
  | .ctlU hi rest => Sys2Proof.Machine.execCtlU hi rest s
  | .ctlS hi rest => Sys2Proof.Machine.execCtlS hi rest s
  | .ctlI hi rest => Sys2Proof.Machine.execCtlI hi rest s
  | .ctlUi use => Sys2Proof.Machine.execCtlUi use s
  | .pidNol3 use => Sys2Proof.Machine.execPidNol3 use s
  | .pGt before after => Sys2Proof.Machine.execPGt before after s
  | .pComma before after => Sys2Proof.Machine.execPComma before after s
  | .pColon use => Sys2Proof.Machine.execPColon use s
  | .pStar before after => Sys2Proof.Machine.execPStar before after s
  | .pDash before after => Sys2Proof.Machine.execPDash before after s
  | .pSpace use => Sys2Proof.Machine.execPSpace use s
  | .pNl before after rssi snr => Sys2Proof.Machine.execPNl before after rssi snr s
  | .pDigit d before after => Sys2Proof.Machine.execPDigit d before after s

end Sys2Proof.Machine
end

