-- ==== Sys2Proof/Machine/Step.lean ====
section
/-! DEFINITION. One step: the next word the surroundings present is taken, decoded and run (30_encoding.md R121,
60_exceptions.md R312). The block has no program counter and fetches nothing (10_state.md R23). -/

namespace Sys2Proof.Machine

/-- One step. Nothing presented: nothing happens (R311, an event is taken when the surroundings present it). An instruction
runs, with its word taken (R67, "each input byte is processed exactly once"). A word that is no instruction is taken and
has no effect: R121 says so of the event port, and R321, "No input can stop, wedge or reset the block", leaves nothing else
at the others (DEDUCED, log entry 24). -/
def step (s : State) : Host.Outcome State Fault Refusal :=
  match s.pending with
  | [] => .next s
  | w :: rest =>
    match decode w with
    | .ok i => exec i { s with pending := rest }
    | .error _ => .next { s with pending := rest }

/-- The state in which the next step runs the opcode-table word `w`: the surroundings present it first (log entry 9). -/
def State.withFetchWord (s : State) (nbits w : Nat) : State := { s with pending := tableInput nbits w :: s.pending }

end Sys2Proof.Machine
end

