-- ==== Sys2Proof/Safety.lean ====
section
/-! DEFINITION. What a good state is (the invariants 10_state.md R21, R25, R35, R45 give), what a run is, and the classes
of instruction the claims speak of. -/

namespace Sys2Proof.Machine

/-! ## Good states -/

/-- A length that a capacity allows; `none` is infinite. -/
def WithinCap (cap : Option Nat) (n : Nat) : Prop := ∀ m, cap = some m → n ≤ m

/-- 00_scope.md section 4, D11, D12, R155: `MAXFRAME >= 3`, `QDEPTH >= 1`. -/
structure ParamsOk (p : Params) : Prop where
  maxframe : ∀ m, p.maxframe = some m → 3 ≤ m
  qdepth : ∀ m, p.qdepth = some m → 1 ≤ m

/-- R159 (a): a delimited frame, at least 3 bytes, a marker at both ends and none between. -/
def Delimited (f : Bytes) : Prop := ∃ mid, f = cMark :: mid ++ [cMark] ∧ mid ≠ [] ∧ cMark ∉ mid

/-- R21, R25: what the buffer holds in each delimiter state. -/
def BufShape : Dst → Bytes → Prop
  | .idle, b => b = []
  | .overrun, b => b = []
  | .started, b => b = [cMark]
  | .inBody, b => ∃ rest, b = cMark :: rest ∧ rest ≠ [] ∧ cMark ∉ rest

/-- What holds of a peer's registers, `max` being `MAXFRAME`. -/
structure PeerOk (max : Option Nat) (q : Peer) : Prop where
  /-- R21, R25. -/
  shape : BufShape q.dst q.buf
  /-- R21: length `0..MAXFRAME`. -/
  fits : WithinCap max q.buf.length
  /-- R24, R155: `OVERRUN` is reachable for finite `MAXFRAME` only. -/
  overrunFinite : q.dst = .overrun → max ≠ none
  /-- R45, R78: every `NetWrite` is one complete delimited frame, with the command byte `0x00` (R94). -/
  writes : ∀ b ∈ q.netTx, Delimited b ∧ b[1]? = some cCmdData

/-- The invariant of the machine. -/
structure Inv (s : State) : Prop where
  params : ParamsOk s.params
  /-- D13: `NPEERS >= 1`. -/
  somePeer : 1 ≤ s.npeers
  peers : ∀ q ∈ s.peers, PeerOk s.params.maxframe q
  /-- R35: `TXQ` has length `0..QDEPTH`. -/
  queue : WithinCap s.params.qdepth s.txq.length

/-! ## Texts -/

/-- R188: an SSID text, one or two decimal digits with value `v`. -/
def SsidText (v : Nat) (text : Bytes) : Prop :=
  v ≤ 15 ∧ (text = [BitVec.ofNat 8 (0x30 + v)] ∧ v ≤ 9 ∨
    text = [BitVec.ofNat 8 (0x30 + v / 10), BitVec.ofNat 8 (0x30 + v % 10)])

/-! ## Runs -/

/-- A sequence of instructions, each on the state the one before left; it stops at the first fault or refusal. -/
def runInstrs : List Instr → State → Host.Outcome State Fault Refusal
  | [], s => .next s
  | i :: is, s =>
    match exec i s with
    | .next t => runInstrs is t
    | .fault r => .fault r
    | .refused r => .refused r

/-- Instruction `i` returns `r` in state `s` and writes nothing else. -/
def Returns (i : Instr) (s : State) (r : OpResult) : Prop := exec i s = .next { s with result := r }

/-- R91: the instruction a transport byte `c` is at a site, by its value. -/
def transportInstr (site : TSite) (c : Byte) : Instr :=
  if c = cMark then .mark site
  else if c = cEscb then .escb site
  else if c = cSubm then .subm site
  else if c = cSube then .sube site
  else .data site c

/-- R136: the serial form of UNESC as a run of transport bytes at the `unesc` site from state `s`, the last one marked so,
and the first one where `first` says that the operation begins here: the outputs joined, or the failure. -/
def serialUnesc (first : Bool) : Bytes → State → Result Bytes
  | [], _ => .ok []
  | c :: cs, s =>
    match exec (transportInstr (.unesc first cs.isEmpty) c) s with
    | .next t =>
      match t.result with
      | .ok (.bytes out) => (serialUnesc false cs t).map (out ++ ·)
      | .fail f => .error f
      | _ => .error badEscape
    | _ => .error badEscape

/-- The log records of one direction (R45). -/
def logOf (d : Direction) (s : State) : List LogRecord := s.log.filter fun r => decide (r.dir = d)

/-! ## Classes of instruction -/

/-- R121: the seven events. -/
def isEvent : Instr → Bool
  | .brReset _ _ | .brConn _ | .brDisc _ | .brNetrx _ _ | .brRadiorx _ _ _ | .brTxpoll _ | .brStop => true
  | _ => false

/-- The place of a transport byte at which only a value is computed. -/
def sitePure : TSite → Bool
  | .esc => true
  | .delimiter _ | .unesc _ _ => false

/-- R130, R160, R162, 42_address_codec.md, R210: the operations that are functions of their operands and of `CFG`, and the
byte classes met by one of them. -/
def isPure : Instr → Bool
  | .esc _ | .unesc _ | .wrap _ | .unwrap _
  | .addrUnpack _ _ | .addrFmt _ _ | .addrDec _ _ | .addrParse _ | .addrPack _ _ | .addrEnc _ _
  | .lfDecb _ | .lfDecp _ | .lfEncb _ | .lfEncp _ | .lfInj _ _ _
  | .escpMark _ | .escpEsc _ | .escpBad _ | .cmdData (.wrap _)
  | .addrCallbyte _ _ _ | .addrSsidbyte _ _ _ _ _
  | .ctlU _ _ | .ctlS _ _ | .ctlI _ _ | .ctlUi _ | .pidNol3 _
  | .pGt _ _ | .pComma _ _ | .pColon _ | .pStar _ _ | .pDash _ _ | .pSpace _ | .pNl _ _ _ _ | .pDigit _ _ _ => true
  | .mark site | .escb site | .subm site | .sube site | .data site _ => sitePure site
  | .brReset _ _ | .brConn _ | .brDisc _ | .brNetrx _ _ | .brRadiorx _ _ _ | .brTxpoll _ | .brStop | .brFrame _ _
  | .dlmByte _ _ | .dlmParse _ _ | .dlmReset _ | .cmdData (.frame _ _) | .cmdOther _ _ _ => false

end Sys2Proof.Machine
end

