-- ==== Sys2Proof/Certificates/Slice0/Obligations.lean ====
section
/-! DEFINITION. The statements of this row, from the numbered rules of spec/. `Returns i s r` (Safety.lean) says that
instruction `i` answers a next state in which only the result register differs, and holds `r`. -/

open Sys2Proof Sys2Proof.Machine

/-! ## Decoding and stepping -/

/-- R90 to R121: the decoder reads back every well-formed instruction from its word. -/
def Obligations.DecodeOfEncodeIsTheInstruction : Prop :=
  ∀ i : Instr, i.wf = true → decode (encode i) = .ok i

/-- The other way: a word the decoder accepts is the word of a well-formed instruction, at the same port, with the same
code bits. -/
def Obligations.DecodedWordIsReencodedBitForBit : Prop :=
  ∀ (w : PortWord) (i : Instr), decode w = .ok i →
    i.wf = true ∧ (encode i).port = w.port ∧ (encode i).code = w.code

/-- Words written out from R120, R91, R92, R96, R101, R105 and R111, one or more of each format. -/
def Obligations.WordsOfTheTableDecodeAsTheSpecSays : Prop :=
  decodeTableWord 8 0x00 = some (.brReset .binary false) ∧
  decodeTableWord 8 0x05 = some (.brTxpoll false) ∧
  decodeTableWord 8 0x10 = some (.esc []) ∧
  decodeTableWord 8 0x22 = some (.dlmReset 0) ∧
  decodeTableWord 8 0x31 = some (.addrFmt [] 0) ∧
  decodeTableWord 8 0x40 = some (.lfDecb []) ∧
  decodeTableWord 8 0xC0 = some (.mark (.delimiter 0)) ∧
  decodeTableWord 16 0xDBDC = some (.escpMark (.read [])) ∧
  decodeTableWord 16 0xDBDD = some (.escpEsc (.read [])) ∧
  decodeTableWord 16 0xDB41 = some (.escpBad [0x41]) ∧
  decodeTableWord 8 0xF0 = some (.pidNol3 (.decb 0xF0 [])) ∧
  decodeTableWord 8 0x3E = some (.pGt [] []) ∧
  decode ⟨.addrSsid, [0xE2], { sel := 0 }⟩ = .ok (.addrSsidbyte .unpack true 0b11 1 false) ∧
  decode ⟨.addrCall, [0x9E], { sel := 1 }⟩ = .ok (.addrCallbyte .pack 0x4F false) ∧
  decode ⟨.ctrl, [0x13], { data := [0xCF] }⟩ = .ok (.ctlU 0b000100 [0xCF]) ∧
  decode ⟨.ctrl, [0x05], {}⟩ = .ok (.ctlS 0b000001 []) ∧
  decode ⟨.ctrl, [0x02], {}⟩ = .ok (.ctlI 0b0000001 []) ∧
  decode ⟨.cmd, [0x01], { p := 1 }⟩ = .ok (.cmdOther 1 0x01 []) ∧
  decode ⟨.pchar, [0x37], {}⟩ = .ok (.pDigit 7 [] [])

/-- R121, R311, R67, R321: what one step does in each of its three cases. That a word which is no instruction has no effect
at a port other than the event port too is the model's reading (log entry 24). -/
def Obligations.StepRunsTheDecodedInstruction : Prop :=
  ∀ s : State,
    (s.pending = [] → step s = .next s) ∧
    ∀ (w : PortWord) (rest : List PortWord), s.pending = w :: rest →
      (∀ i, decode w = .ok i → step s = exec i { s with pending := rest }) ∧
      (∀ e, decode w = .error e → step s = .next { s with pending := rest })

/-- R121: the event port takes the opids `0x00` to `0x06` with the fields each event's rule names; "any other value of `ev`
is not an event and has no effect", so no internal operation is started from it. -/
def Obligations.EventPortTakesTheSevenEventsOnly : Prop :=
  ∀ a : Args,
    decode ⟨.event, [0x00], a⟩ = .ok (.brReset (if a.pinDialect then .path else .binary) a.pinAppendReport) ∧
    decode ⟨.event, [0x01], a⟩ = .ok (.brConn a.p) ∧
    decode ⟨.event, [0x02], a⟩ = .ok (.brDisc a.p) ∧
    decode ⟨.event, [0x03], a⟩ = .ok (.brNetrx a.p a.data) ∧
    decode ⟨.event, [0x04], a⟩ = .ok (.brRadiorx a.data a.rssi a.snr) ∧
    decode ⟨.event, [0x05], a⟩ = .ok (.brTxpoll a.channelIdle) ∧
    decode ⟨.event, [0x06], a⟩ = .ok .brStop ∧
    ∀ (ev : Byte) (s : State) (rest : List PortWord), 0x06 < ev.toNat → s.pending = ⟨.event, [ev], a⟩ :: rest →
      step s = .next { s with pending := rest }

/-! ## The whole machine -/

/-- R21, R24, R25, R35, R45: the invariant of Safety.lean. -/
def Obligations.StepKeepsTheInvariant : Prop :=
  ∀ s t : State, Inv s → step s = .next t → Inv t

/-- R55, R350: the state after reset. It meets the invariant, holds the values R55 gives, and is what BR.RESET with both
pins low leaves of itself. That the pins are low and that there are two peers is the model's choice (log entries 2, 3). -/
def Obligations.ResetStateHasTheGivenValuesAndTheInvariant : Prop :=
  Inv State.reset ∧ State.reset.run = true ∧ State.reset.txq = [] ∧
  (∀ q ∈ State.reset.peers, q.conn = false ∧ q.dst = .idle ∧ q.buf = []) ∧
  exec (.brReset .binary false) State.reset = .next State.reset

/-- R321: every instruction ends in a next state; only BR.STOP takes the machine out of `RUN = 1`; with `RUN = 0` no event
but BR.RESET has an effect, and BR.RESET sets `RUN`; with `RUN = 1` some event, BR.STOP, has one; and every step ends in a
next state, whatever is presented. -/
def Obligations.NoInputStopsTheBlock : Prop :=
  (∀ s : State, ∃ t, step s = .next t) ∧
  (∀ s : State, s.run = true → exec .brStop s ≠ .next s) ∧
  ∀ (i : Instr) (s : State), ∃ t, exec i s = .next t ∧
    (s.run = true → t.run = false → i = .brStop) ∧
    (s.run = false → isEvent i = true → (∀ d a, i ≠ .brReset d a) → t = s) ∧
    (∀ d a, i = .brReset d a → t.run = true)

/-- R32: the two `CFG` fields are written only by BR.RESET, which copies the two configuration inputs. -/
def Obligations.OnlyResetWritesTheConfiguration : Prop :=
  ∀ (i : Instr) (s t : State), exec i s = .next t →
    (t.dialect = s.dialect ∧ t.appendReport = s.appendReport) ∨
    ∃ d a, i = .brReset d a ∧ t.dialect = d ∧ t.appendReport = a

/-- R22, R25, R26, R27, R36, R45, R51, R56, R372: which instruction can change which piece of state. -/
def Obligations.EachStateElementHasItsWriters : Prop :=
  ∀ (i : Instr) (s t : State), i.wf = true → exec i s = .next t →
    t.params = s.params ∧ t.pending = s.pending ∧ t.npeers = s.npeers ∧
    (t.run ≠ s.run → i = .brStop ∨ ∃ d a, i = .brReset d a) ∧
    (t.peers.map (·.conn) ≠ s.peers.map (·.conn) →
      (∃ d a, i = .brReset d a) ∨ (∃ p, i = .brConn p) ∨ ∃ p, i = .brDisc p) ∧
    (t.peers.map (fun q => (q.dst, q.buf)) ≠ s.peers.map (fun q => (q.dst, q.buf)) →
      (∃ d a, i = .brReset d a) ∨ (∃ p, i = .brConn p ∨ i = .brDisc p ∨ i = .dlmReset p) ∨
      (∃ p c, i = .brNetrx p c ∨ i = .dlmParse p c) ∨ (∃ p c, i = .dlmByte p c) ∨
      ∃ p, i = .mark (.delimiter p) ∨ i = .escb (.delimiter p) ∨ i = .subm (.delimiter p) ∨ i = .sube (.delimiter p) ∨
        ∃ d, i = .data (.delimiter p) d) ∧
    (t.peers.map (·.netTx) ≠ s.peers.map (·.netTx) → ∃ b r n, i = .brRadiorx b r n) ∧
    (t.txq ≠ s.txq → (∃ d a, i = .brReset d a) ∨ (∃ p c, i = .brNetrx p c ∨ i = .brFrame p c) ∨
      (∃ p b, i = .cmdData (.frame p b)) ∨ i = .brTxpoll true) ∧
    (t.radioTx ≠ s.radioTx → i = .brTxpoll true) ∧
    (t.log ≠ s.log → (∃ p c, i = .brNetrx p c ∨ i = .brFrame p c) ∨ (∃ b r n, i = .brRadiorx b r n) ∨
      (∃ p b, i = .cmdData (.frame p b)) ∨ ∃ p c b, i = .cmdOther p c b) ∧
    (t.escp ≠ s.escp → (∃ d a, i = .brReset d a) ∨ ∃ f l, i = .mark (.unesc f l) ∨ i = .escb (.unesc f l) ∨
      i = .subm (.unesc f l) ∨ i = .sube (.unesc f l) ∨ ∃ d, i = .data (.unesc f l) d) ∧
    (t.result ≠ s.result → isEvent i = false ∧ ∀ p c, i ≠ .brFrame p c)

/-- R67, R352: "An output event, once emitted, cannot be recalled": every instruction only appends to the three outputs. -/
def Obligations.OutputsAreNeverRecalled : Prop :=
  ∀ (i : Instr) (s t : State), exec i s = .next t →
    s.log <+: t.log ∧ s.radioTx <+: t.radioTx ∧
    ∀ (p : Nat) (q q' : Peer), s.peers[p]? = some q → t.peers[p]? = some q' → q.netTx <+: q'.netTx

/-! ## Events -/

/-- R250, R352: BR.RESET, in any state, running or not. It is the only event with an effect while `RUN = 0` and the only one
that writes `CFG`. What it does outside the block's state tuple is the model's reading (log entry 13, DEDUCED): what was
emitted, the parameters, the words not yet taken and the result register stay, `ESCP` goes to its initial value. -/
def Obligations.ResetWritesTheWholeStateTuple : Prop :=
  ∀ s : State,
    (∀ (d : Dialect) (a : Bool), exec (.brReset d a) s = .next { s with
      dialect := d, appendReport := a, run := true, txq := [], escp := false,
      peers := s.peers.map fun q => { q with conn := false, dst := .idle, buf := [] } }) ∧
    ∀ (i : Instr) (t : State), isEvent i = true → exec i s = .next t →
      ((s.run = false ∧ t ≠ s) ∨ t.dialect ≠ s.dialect ∨ t.appendReport ≠ s.appendReport) → ∃ d a, i = .brReset d a

/-- R252, R253, R254: BR.CONN and BR.DISC on a peer of the block, and the bytes of a peer whose `CONN[p] = 0`, which do not
reach the delimiter. -/
def Obligations.ConnectionEventsResetTheDelimiterAndGateTheBytes : Prop :=
  ∀ (s : State) (p : Nat) (q : Peer), s.peers[p]? = some q →
    (s.run = true →
      exec (.brConn p) s = .next { s with peers := s.peers.set p { q with conn := true, dst := .idle, buf := [] } } ∧
      exec (.brDisc p) s = .next { s with peers := s.peers.set p { q with conn := false, dst := .idle, buf := [] } }) ∧
    ∀ chunk, q.conn = false → exec (.brNetrx p chunk) s = .next s

/-- R251: an event that names a peer outside `0..NPEERS-1` does nothing, and neither does any event but BR.RESET while
`RUN = 0`. That an internal operation on such a peer returns "nothing" is the model's reading (log entry 10). -/
def Obligations.AbsentPeersAndStoppedBlockIgnoreEvents : Prop :=
  (∀ (s : State) (p : Nat) (chunk : Bytes), s.npeers ≤ p →
    exec (.brConn p) s = .next s ∧ exec (.brDisc p) s = .next s ∧ exec (.brNetrx p chunk) s = .next s ∧
    (∀ c, Returns (.dlmByte p c) s (.ok (.dlm .none))) ∧ Returns (.dlmParse p chunk) s (.ok (.dlms [])) ∧
    Returns (.dlmReset p) s (.ok .unit)) ∧
  ∀ (s : State) (i : Instr), s.run = false → isEvent i = true → (∀ d a, i ≠ .brReset d a) → exec i s = .next s

/-- R255: BR.NETRX returns at once if `RUN = 0` or `CONN[p] = 0`; otherwise it runs DLM.BYTE on each byte in order and deals
with its result before the next byte. -/
def Obligations.NetrxHandlesEachByteBeforeTheNext : Prop :=
  (∀ (s : State) (p : Nat) (chunk : Bytes), (s.run = false ∨ ∀ q, s.peers[p]? = some q → q.conn = false) →
    exec (.brNetrx p chunk) s = .next s) ∧
  ∀ (s : State) (p : Nat) (q : Peer), s.run = true → s.peers[p]? = some q → q.conn = true →
    exec (.brNetrx p []) s = .next s ∧
    ∀ (c : Byte) (cs : Bytes), ∃ t r, exec (.dlmByte p c) s = .next t ∧ t.result = .ok (.dlm r) ∧
      (r = .none → exec (.brNetrx p (c :: cs)) s = exec (.brNetrx p cs) { t with result := s.result }) ∧
      (∀ f, r = .frame f → ∃ u, exec (.brFrame p f) { t with result := s.result } = .next u ∧
        exec (.brNetrx p (c :: cs)) s = exec (.brNetrx p cs) u) ∧
      (∀ m, r = .overrun → s.params.maxframe = some m →
        exec (.brNetrx p (c :: cs)) s = exec (.brNetrx p cs)
          { t with result := s.result, log := s.log ++ [⟨.bufferOverflow, 0x20, .netToRadio, p, m⟩] })

/-- R64: the result depends only on the concatenation of the chunks of one peer. -/
def Obligations.ChunkBoundariesDoNotMatter : Prop :=
  ∀ (s : State) (p : Nat) (chunks : List Bytes),
    runInstrs (chunks.map (.brNetrx p ·)) s = exec (.brNetrx p chunks.flatten) s

/-- R258, R259, R261, R303, R320: BR.FRAME, its tests in their order, each failure one log record and no other change. -/
def Obligations.FrameIsQueuedOrDroppedWithOneRecord : Prop :=
  ∀ (s : State) (p : Nat) (frame : Bytes),
    (∀ e, Returns (.unwrap frame) s (.fail e) →
      exec (.brFrame p frame) s = .next { s with log := s.log ++ [⟨e.kind, e.unit, .netToRadio, p, e.info⟩] }) ∧
    ∀ cmd body, Returns (.unwrap frame) s (.ok (.cmdBody cmd body)) →
      (cmd ≠ 0x00 → exec (.brFrame p frame) s =
        .next { s with log := s.log ++ [⟨.unsupportedCommand, 0x07, .netToRadio, p, cmd.toNat⟩] }) ∧
      (cmd = 0x00 →
        (∀ e, Returns (.lfDecb body) s (.fail e) →
          exec (.brFrame p frame) s = .next { s with log := s.log ++ [⟨e.kind, e.unit, .netToRadio, p, e.info⟩] }) ∧
        ∀ f item, Returns (.lfDecb body) s (.ok (.frame f)) →
          (s.dialect = .path → Returns (.lfEncp f) s (.ok (.bytes item))) →
          (s.dialect = .binary → Returns (.lfEncb f) s (.ok (.bytes item))) →
          (s.params.qdepth = some s.txq.length → exec (.brFrame p frame) s =
            .next { s with log := s.log ++ [⟨.queueOverflow, 0x07, .netToRadio, p, 0⟩] }) ∧
          (s.params.qdepth ≠ some s.txq.length → exec (.brFrame p frame) s = .next { s with txq := s.txq ++ [item] }))

/-- R320: a completed frame costs exactly itself: from `IDLE`, its bytes leave the delimiter as it was, and the rest of the
state is what BR.FRAME alone makes of it. -/
def Obligations.CompletedFrameLeavesTheDelimiterIdle : Prop :=
  ∀ (s : State) (p : Nat) (q : Peer) (frame : Bytes), s.run = true → s.peers[p]? = some q → q.conn = true →
    q.dst = .idle → q.buf = [] → Delimited frame → WithinCap s.params.maxframe frame.length →
    ∃ t, exec (.brNetrx p frame) s = .next t ∧ exec (.brFrame p frame) s = .next t ∧ t.peers = s.peers

/-- R262, R263, R264: BR.RADIORX, one record and nothing written, or the same frame to every connected peer; nothing while
`RUN = 0`. -/
def Obligations.RadioPacketIsWrittenToEveryConnectedPeerOrLogged : Prop :=
  (∀ (s : State) (payload : Bytes) (rssi snr : Metric), s.run = false →
    exec (.brRadiorx payload rssi snr) s = .next s) ∧
  ∀ (s : State) (payload : Bytes) (rssi snr : Metric), s.run = true →
    let parse : Instr := match s.dialect with
      | .path => .lfDecp payload
      | .binary => .lfDecb payload
    let logged (e : Failure) : Prop := exec (.brRadiorx payload rssi snr) s =
      .next { s with log := s.log ++ [⟨e.kind, e.unit, .radioToNet, 0, e.info⟩] }
    (∀ e, Returns parse s (.fail e) → logged e) ∧
    ∀ f f2, Returns parse s (.ok (.frame f)) → Returns (.lfInj f rssi snr) s (.ok (.frame f2)) →
      (∀ e, Returns (.lfEncb f2) s (.fail e) → logged e) ∧
      ∀ body out, Returns (.lfEncb f2) s (.ok (.bytes body)) → Returns (.wrap body) s (.ok (.bytes out)) →
        exec (.brRadiorx payload rssi snr) s = .next { s with
          peers := s.peers.map fun q => if q.conn then { q with netTx := q.netTx ++ [out] } else q }

/-- R266: BR.TXPOLL. -/
def Obligations.PollSendsTheHeadWhenTheChannelIsIdle : Prop :=
  (∀ (s : State) (idle : Bool), s.run = false → exec (.brTxpoll idle) s = .next s) ∧
  ∀ s : State, s.run = true →
    (∀ idle, s.txq = [] → exec (.brTxpoll idle) s = .next s) ∧
    exec (.brTxpoll false) s = .next s ∧
    ∀ item rest, s.txq = item :: rest →
      exec (.brTxpoll true) s = .next { s with txq := rest, radioTx := s.radioTx ++ [item] }

/-- R77, R267, R332: over any run of polls, the items sent are the first ones of the queue, in order, one for each poll
that found the channel idle; "items remain queued (not dropped) while the channel is busy". -/
def Obligations.PollsDrainTheQueueInOrder : Prop :=
  ∀ (s : State) (polls : List Bool), s.run = true →
    runInstrs (polls.map .brTxpoll) s = .next { s with
      txq := s.txq.drop (polls.count true), radioTx := s.radioTx ++ s.txq.take (polls.count true) }

/-- R270: BR.STOP. Items in the queue stay there and partial frames in their buffers, whatever events follow, until
BR.RESET. -/
def Obligations.StopClearsRunOnly : Prop :=
  ∀ s : State, exec .brStop s = .next { s with run := false } ∧
    ∀ events : List Instr, (∀ i ∈ events, isEvent i = true ∧ ∀ d a, i ≠ .brReset d a) →
      runInstrs (.brStop :: events) s = .next { s with run := false }

/-- R79: the two directions share no state: a radio packet and a chunk, a frame or a poll give, in either order, the same
state but for the order of the log records of different directions. -/
def Obligations.DirectionsDoNotInterfere : Prop :=
  ∀ (s : State) (i : Instr) (payload : Bytes) (rssi snr : Metric),
    ((∃ p c, i = .brNetrx p c) ∨ (∃ p c, i = .brFrame p c) ∨ ∃ b, i = .brTxpoll b) →
    ∃ t u, runInstrs [i, .brRadiorx payload rssi snr] s = .next t ∧
      runInstrs [.brRadiorx payload rssi snr, i] s = .next u ∧
      u = { t with log := u.log } ∧ ∀ d, logOf d t = logOf d u

/-- R22: no operation of peer `p` reads or writes the registers of another peer. -/
def Obligations.PeersDoNotInterfere : Prop :=
  ∀ (s : State) (p p' : Nat) (x : Peer) (chunk : Bytes), p ≠ p' →
    ∃ t, exec (.brNetrx p chunk) s = .next t ∧ t.peers[p']? = s.peers[p']? ∧
      exec (.brNetrx p chunk) { s with peers := s.peers.set p' x } = .next { t with peers := t.peers.set p' x }

/-- R272: end to end for a well-formed frame. (a) Its wrapped binary form, in any chunks, queues its radio form; (b) its
radio form is written, wrapped, to every connected peer; (c) the frame so written, fed back, queues the radio form again.
R155 adds the premise that the frame fits the buffer. -/
def Obligations.WellFormedFramePassesThroughBothWays : Prop :=
  ∀ (s : State) (f : LinkFrame), s.run = true → f.WellFormed →
    ∃ body pkt, Returns (.lfEncb f) s (.ok (.bytes body)) ∧
      (s.dialect = .path → Returns (.lfEncp f) s (.ok (.bytes pkt))) ∧ (s.dialect = .binary → pkt = body) ∧
      let written := s.peers.map fun q => if q.conn then { q with netTx := q.netTx ++ [wrapBytes body] } else q
      (∀ (p : Nat) (q : Peer) (chunks : List Bytes), s.peers[p]? = some q → q.conn = true → q.dst = .idle → q.buf = [] →
        s.params.qdepth ≠ some s.txq.length → WithinCap s.params.maxframe (wrapBytes body).length →
        chunks.flatten = wrapBytes body →
        runInstrs (chunks.map (.brNetrx p ·)) s = .next { s with txq := s.txq ++ [pkt] }) ∧
      (∀ rssi snr, s.appendReport = false →
        exec (.brRadiorx pkt rssi snr) s = .next { s with peers := written }) ∧
      (∀ (p : Nat) (q : Peer) (chunks : List Bytes) (rssi snr : Metric),
        s.appendReport = false → s.peers[p]? = some q → q.conn = true → q.dst = .idle → q.buf = [] →
        s.params.qdepth ≠ some s.txq.length → WithinCap s.params.maxframe (wrapBytes body).length →
        chunks.flatten = wrapBytes body →
        runInstrs (.brRadiorx pkt rssi snr :: chunks.map (.brNetrx p ·)) s =
          .next { s with peers := written, txq := s.txq ++ [pkt] })

/-! ## Byte stuffer -/

/-- R131, R132: ESC, byte by byte; the length of its result; and that the result never contains `0xC0`. -/
def Obligations.EscReplacesTheTwoReservedBytes : Prop :=
  ∀ (s : State) (b : Bytes), ∃ out, Returns (.esc b) s (.ok (.bytes out)) ∧
    out = (b.map fun c => if c = 0xC0 then [0xDB, 0xDC] else if c = 0xDB then [0xDB, 0xDD] else [c]).flatten ∧
    out.length = b.length + b.count 0xC0 + b.count 0xDB ∧ (0xC0 : Byte) ∉ out

/-- R134: UNESC from left to right. -/
def Obligations.UnescReadsPairsLeftToRight : Prop :=
  ∀ s : State,
    let bad : OpResult := .fail ⟨.framingError, 1, 0x11⟩
    Returns (.unesc []) s (.ok (.bytes [])) ∧ Returns (.unesc [0xDB]) s bad ∧
    (∀ (d : Byte) (rest : Bytes), d ≠ 0xDC → d ≠ 0xDD → Returns (.unesc (0xDB :: d :: rest)) s bad) ∧
    ∀ rest : Bytes,
      (∀ u, Returns (.unesc rest) s (.ok (.bytes u)) →
        Returns (.unesc (0xDB :: 0xDC :: rest)) s (.ok (.bytes (0xC0 :: u))) ∧
        Returns (.unesc (0xDB :: 0xDD :: rest)) s (.ok (.bytes (0xDB :: u))) ∧
        ∀ c : Byte, c ≠ 0xDB → Returns (.unesc (c :: rest)) s (.ok (.bytes (c :: u)))) ∧
      (Returns (.unesc rest) s bad →
        Returns (.unesc (0xDB :: 0xDC :: rest)) s bad ∧ Returns (.unesc (0xDB :: 0xDD :: rest)) s bad ∧
        ∀ c : Byte, c ≠ 0xDB → Returns (.unesc (c :: rest)) s bad) ∧
      ((∃ u, Returns (.unesc rest) s (.ok (.bytes u))) ∨ Returns (.unesc rest) s bad)

/-- R135: `UNESC(ESC(b)) = ok(b)` for every `b`; the other way `ESC(UNESC(e))` equals `e` only when UNESC succeeds and `e`
contains no `0xC0`. -/
def Obligations.UnescInvertsEsc : Prop :=
  (∀ (s : State) (b : Bytes), ∃ out, Returns (.esc b) s (.ok (.bytes out)) ∧ Returns (.unesc out) s (.ok (.bytes b))) ∧
  ∀ (s : State) (e u : Bytes), Returns (.unesc e) s (.ok (.bytes u)) →
    (Returns (.esc u) s (.ok (.bytes e)) ↔ (0xC0 : Byte) ∉ e)

/-- R136, R51: the table of the serial form, one row for each `ESCP` and byte (the table gives no `ESCP` after a failure);
the first byte of an operation meets `ESCP = 0` whatever the state holds; an escape byte as the last one fails; and the
serial form gives the same result as UNESC for every input, from every state. -/
def Obligations.SerialFormAgreesWithUnesc : Prop :=
  (∀ (s : State) (c : Byte) (first last : Bool),
    let escp := !first && s.escp
    let goes (e : Bool) (r : OpResult) : Prop :=
      exec (transportInstr (.unesc first last) c) s = .next { s with escp := e, result := r }
    (escp = false → c = 0xDB → last = false → goes true (.ok (.bytes []))) ∧
    (escp = false → c = 0xDB → last = true → ∃ e, goes e (.fail ⟨.framingError, 1, 0x11⟩)) ∧
    (escp = false → c ≠ 0xDB → goes false (.ok (.bytes [c]))) ∧
    (escp = true → c = 0xDC → goes false (.ok (.bytes [0xC0]))) ∧
    (escp = true → c = 0xDD → goes false (.ok (.bytes [0xDB]))) ∧
    (escp = true → c ≠ 0xDC → c ≠ 0xDD → ∃ e, goes e (.fail ⟨.framingError, 1, 0x11⟩))) ∧
  ∀ (s : State) (e : Bytes), Returns (.unesc e) s (outcome .bytes (serialUnesc true e s))

/-- R91: at the delimiter a transport byte is one DLM.BYTE, at ESC the escape of that one byte. -/
def Obligations.TransportBytesAtDelimiterAndStuffer : Prop :=
  ∀ (s : State) (c : Byte),
    (∀ p, ∃ t, exec (transportInstr (.delimiter p) c) s = .next t ∧ exec (.dlmByte p c) s = .next t) ∧
    Returns (transportInstr .esc c) s (.ok (.bytes
      (if c = 0xC0 then [0xDB, 0xDC] else if c = 0xDB then [0xDB, 0xDD] else [c])))

/-- R92: the pairs `DB DC` and `DB DD` stand for `0xC0` and `0xDB`, read and written; `0xDB` followed by anything else or
by nothing stands for nothing. -/
def Obligations.EscapePairsStandForTheReservedBytes : Prop :=
  ∀ (s : State) (rest : Bytes),
    (∀ u, Returns (.unesc rest) s (.ok (.bytes u)) →
      Returns (.escpMark (.read rest)) s (.ok (.bytes (0xC0 :: u))) ∧
      Returns (.escpEsc (.read rest)) s (.ok (.bytes (0xDB :: u)))) ∧
    (∀ e, Returns (.unesc rest) s (.fail e) →
      Returns (.escpMark (.read rest)) s (.fail e) ∧ Returns (.escpEsc (.read rest)) s (.fail e)) ∧
    (∀ out, Returns (.esc rest) s (.ok (.bytes out)) →
      Returns (.escpMark (.write rest)) s (.ok (.bytes (0xDB :: 0xDC :: out))) ∧
      Returns (.escpEsc (.write rest)) s (.ok (.bytes (0xDB :: 0xDD :: out)))) ∧
    ∀ tail, (Instr.escpBad tail).wf = true → Returns (.escpBad tail) s (.fail ⟨.framingError, 1, 0x11⟩)

/-! ## Frame delimiter -/

/-- R151 to R154, with the two tests R155 adds: every transition, and everything it leaves unchanged. -/
def Obligations.DelimiterTransitions : Prop :=
  ∀ (s : State) (p : Nat) (q : Peer) (c : Byte), s.peers[p]? = some q →
    let goes (d : Dst) (b : Bytes) (r : DlmResult) : Prop := exec (.dlmByte p c) s = .next { s with
      peers := s.peers.set p { q with dst := d, buf := b }, result := .ok (.dlm r) }
    (q.dst = .idle → c = 0xC0 → goes .started [0xC0] .none) ∧
    (q.dst = .idle → c ≠ 0xC0 → goes .idle q.buf .none) ∧
    (q.dst = .started → c = 0xC0 → goes .idle [] .none) ∧
    (q.dst = .started → c ≠ 0xC0 → goes .inBody (q.buf ++ [c]) .none) ∧
    (q.dst = .inBody → s.params.maxframe ≠ some q.buf.length → c = 0xC0 → goes .idle [] (.frame (q.buf ++ [0xC0]))) ∧
    (q.dst = .inBody → s.params.maxframe ≠ some q.buf.length → c ≠ 0xC0 → goes .inBody (q.buf ++ [c]) .none) ∧
    (q.dst = .inBody → s.params.maxframe = some q.buf.length → c = 0xC0 → goes .idle [] .overrun) ∧
    (q.dst = .inBody → s.params.maxframe = some q.buf.length → c ≠ 0xC0 → goes .overrun [] .overrun) ∧
    (q.dst = .overrun → c = 0xC0 → goes .idle q.buf .none) ∧
    (q.dst = .overrun → c ≠ 0xC0 → goes .overrun q.buf .none)

/-- R155: a frame of total length `n` is delivered if and only if `n <= MAXFRAME`; otherwise the one result is `overrun`,
BR.NETRX logs it once, and either way the delimiter is `IDLE` afterwards with nothing else changed. -/
def Obligations.FrameIsDeliveredIffItFitsTheBuffer : Prop :=
  ∀ (s : State) (p : Nat) (q : Peer) (frame : Bytes), s.peers[p]? = some q → q.dst = .idle → q.buf = [] →
    ParamsOk s.params → Delimited frame →
    (WithinCap s.params.maxframe frame.length →
      Returns (.dlmParse p frame) s (.ok (.dlms [.frame frame]))) ∧
    ∀ m, s.params.maxframe = some m → m < frame.length →
      Returns (.dlmParse p frame) s (.ok (.dlms [.overrun])) ∧
      (s.run = true → q.conn = true → exec (.brNetrx p frame) s =
        .next { s with log := s.log ++ [⟨.bufferOverflow, 0x20, .netToRadio, p, m⟩] })

/-- R156: DLM.RESET, from any delimiter state, and idempotent. -/
def Obligations.DelimiterResetGoesToIdle : Prop :=
  ∀ (s : State) (p : Nat) (q : Peer), s.peers[p]? = some q →
    ∃ t, exec (.dlmReset p) s = .next t ∧
      t = { s with peers := s.peers.set p { q with dst := .idle, buf := [] }, result := .ok .unit } ∧
      exec (.dlmReset p) t = .next t

/-- R157: DLM.PARSE is the fold of DLM.BYTE, keeping the results that are not `none`, in order. -/
def Obligations.ParseIsTheFoldOfByte : Prop :=
  ∀ (s : State) (p : Nat), Returns (.dlmParse p []) s (.ok (.dlms [])) ∧
    ∀ (c : Byte) (cs : Bytes), ∃ t u r rs, exec (.dlmByte p c) s = .next t ∧ t.result = .ok (.dlm r) ∧
      exec (.dlmParse p cs) t = .next u ∧ u.result = .ok (.dlms rs) ∧
      exec (.dlmParse p (c :: cs)) s = .next { u with result := .ok (.dlms (if r = .none then rs else r :: rs)) }

/-- R158: chunk independence of the delimiter. -/
def Obligations.DelimiterIsChunkIndependent : Prop :=
  ∀ (s : State) (p : Nat) (a b : Bytes), ∃ t u r1 r2,
    exec (.dlmParse p a) s = .next t ∧ t.result = .ok (.dlms r1) ∧
    exec (.dlmParse p b) t = .next u ∧ u.result = .ok (.dlms r2) ∧
    exec (.dlmParse p (a ++ b)) s = .next { u with result := .ok (.dlms (r1 ++ r2)) }

/-- R159: (a), (d) every delivered frame has a marker at both ends, none between, and at least 3 bytes; (b) the end marker
of a frame starts no other; (c) a run of markers starts a frame if and only if it is odd. The premise of (a) is the
invariant every step keeps. -/
def Obligations.ConsequencesOfTheTransitions : Prop :=
  (∀ (s t : State) (p : Nat) (chunk : Bytes) (rs : List DlmResult) (f : Bytes), Inv s →
    exec (.dlmParse p chunk) s = .next t → t.result = .ok (.dlms rs) → .frame f ∈ rs →
    Delimited f ∧ 3 ≤ f.length) ∧
  (∀ (s : State) (p : Nat) (q : Peer) (b1 b2 : Bytes), s.peers[p]? = some q → q.dst = .idle → q.buf = [] →
    s.params.maxframe = none → b1 ≠ [] → b2 ≠ [] → 0xC0 ∉ b1 → 0xC0 ∉ b2 →
    exec (.dlmParse p (0xC0 :: b1 ++ 0xC0 :: b2 ++ [0xC0])) s = .next { s with
      peers := s.peers.set p { q with dst := .started, buf := [0xC0] },
      result := .ok (.dlms [.frame (0xC0 :: b1 ++ [0xC0])]) }) ∧
  ∀ (s : State) (p : Nat) (q : Peer) (m : Nat) (c : Byte), s.peers[p]? = some q → q.dst = .idle → q.buf = [] → c ≠ 0xC0 →
    exec (.dlmParse p (List.replicate m 0xC0 ++ [c])) s = .next { s with
      peers := s.peers.set p (if m % 2 = 1 then { q with dst := .inBody, buf := [0xC0, c] } else q),
      result := .ok (.dlms []) }

/-- R362: with two markers between bodies every frame is delivered from `IDLE`, and every frame is lost from `STARTED`, for
any number of frames. -/
def Obligations.MarkerParityDecidesEveryLaterFrame : Prop :=
  ∀ (s : State) (p : Nat) (q : Peer) (bodies : List Bytes), s.peers[p]? = some q → s.params.maxframe = none →
    (∀ b ∈ bodies, b ≠ [] ∧ (0xC0 : Byte) ∉ b) →
    (q.dst = .idle → q.buf = [] → Returns (.dlmParse p (bodies.flatMap fun b => 0xC0 :: b ++ [0xC0])) s
      (.ok (.dlms (bodies.map fun b => .frame (0xC0 :: b ++ [0xC0]))))) ∧
    (q.dst = .started → q.buf = [0xC0] → Returns (.dlmParse p (bodies.flatMap fun b => 0xC0 :: b ++ [0xC0])) s
      (.ok (.dlms [])))

/-- R160, R163: WRAP puts markers and the command byte around the escaped body; the result holds exactly two markers; a
delimiter in `IDLE` with room for it yields exactly that frame; and UNWRAP gives the body back. -/
def Obligations.WrapMakesOneFrameThatUnwrapInverts : Prop :=
  ∀ (s : State) (body : Bytes), ∃ e out, Returns (.esc body) s (.ok (.bytes e)) ∧
    Returns (.wrap body) s (.ok (.bytes out)) ∧ out = [0xC0, 0x00] ++ e ++ [0xC0] ∧ out.count 0xC0 = 2 ∧
    Returns (.unwrap out) s (.ok (.cmdBody 0x00 body)) ∧
    ∀ (p : Nat) (q : Peer), s.peers[p]? = some q → q.dst = .idle → q.buf = [] →
      WithinCap s.params.maxframe out.length → Returns (.dlmParse p out) s (.ok (.dlms [.frame out]))

/-- R162, R364: UNWRAP unescapes the whole frame, then tests the markers, then strips. -/
def Obligations.UnwrapUnescapesThenStrips : Prop :=
  ∀ (s : State) (f : Bytes),
    (∀ e, Returns (.unesc f) s (.fail e) → Returns (.unwrap f) s (.fail e)) ∧
    (∀ u, Returns (.unesc f) s (.ok (.bytes u)) →
      (∀ cmd body, u = 0xC0 :: cmd :: body ++ [0xC0] → Returns (.unwrap f) s (.ok (.cmdBody cmd body))) ∧
      ((∀ cmd body, u ≠ 0xC0 :: cmd :: body ++ [0xC0]) → Returns (.unwrap f) s (.fail ⟨.framingError, 2, 0x24⟩)))

/-- R94, R160, R258, R261: the command byte `0x00` is the one accepted and the one written; any other drops the frame. That
the command byte is an instruction of its own is the model's (log entry 6, DESIGN CHOICE). -/
def Obligations.OnlyCommandZeroIsAccepted : Prop :=
  ∀ (s : State) (p : Nat) (body : Bytes),
    (∀ frame, Returns (.unwrap frame) s (.ok (.cmdBody 0x00 body)) →
      ∃ t, exec (.cmdData (.frame p body)) s = .next t ∧ exec (.brFrame p frame) s = .next t) ∧
    (∀ e, Returns (.esc body) s (.ok (.bytes e)) →
      Returns (.cmdData (.wrap body)) s (.ok (.bytes (0x00 :: e ++ [0xC0])))) ∧
    ∀ cmd : Byte, cmd ≠ 0x00 → exec (.cmdOther p cmd body) s =
      .next { s with log := s.log ++ [⟨.unsupportedCommand, 0x07, .netToRadio, p, cmd.toNat⟩] }

/-! ## Address codec -/

/-- R181: ADDR.UNPACK, field by field. -/
def Obligations.UnpackReadsTheFields : Prop :=
  ∀ (s : State) (b : Bytes) (off : Nat),
    (b.length < off + 7 → Returns (.addrUnpack b off) s (.fail ⟨.malformedAddress, 0, 0x30⟩)) ∧
    (off + 7 ≤ b.length → ∃ u, Returns (.addrUnpack b off) s (.ok (.unpacked u)) ∧
      u.ssid.toNat = (b.getD (off + 6) 0).toNat / 2 % 16 ∧ u.hrr.toNat = (b.getD (off + 6) 0).toNat / 32 ∧
      (u.x = true ↔ (b.getD (off + 6) 0).toNat % 2 = 1) ∧ u.call.getLast? ≠ some 0x20 ∧
      ∃ k, u.call ++ List.replicate k 0x20 = ((b.drop off).take 6).map fun c => BitVec.ofNat 8 (c.toNat / 2))

/-- R183, R185, R195: ADDR.FMT writes the SSID only if it is not 0, in one or two digits; ADDR.DEC is ADDR.UNPACK then
ADDR.FMT, and ADDR.ENC is ADDR.PARSE then ADDR.PACK. -/
def Obligations.FormatAndTheTwoCompositions : Prop :=
  ∀ s : State,
    (∀ call, Returns (.addrFmt call 0) s (.ok (.bytes call)) ∧
      (∀ n, 1 ≤ n → n ≤ 9 → Returns (.addrFmt call (BitVec.ofNat 4 n)) s
        (.ok (.bytes (call ++ [0x2D, BitVec.ofNat 8 (0x30 + n)])))) ∧
      ∀ n, 10 ≤ n → n ≤ 15 → Returns (.addrFmt call (BitVec.ofNat 4 n)) s
        (.ok (.bytes (call ++ [0x2D, 0x31, BitVec.ofNat 8 (0x30 + (n - 10))])))) ∧
    (∀ b off, (∀ e, Returns (.addrUnpack b off) s (.fail e) → Returns (.addrDec b off) s (.fail e)) ∧
      ∀ u text, Returns (.addrUnpack b off) s (.ok (.unpacked u)) →
        Returns (.addrFmt u.call u.ssid) s (.ok (.bytes text)) →
        Returns (.addrDec b off) s (.ok (.decoded text u.hrr u.x))) ∧
    ∀ t fin, (∀ e, Returns (.addrParse t) s (.fail e) → Returns (.addrEnc t fin) s (.fail e)) ∧
      ∀ a r, Returns (.addrParse t) s (.ok (.addr a)) → Returns (.addrPack a fin) s r → Returns (.addrEnc t fin) s r

/-- R188, R189, R190: ADDR.PARSE of a token with a callsign that holds no `-`: without SSID text, with a good one, with a
bad one (reported before the callsign length), each with a trailing `*` (`h`) or without. -/
def Obligations.ParseReadsCallsignSsidAndStar : Prop :=
  ∀ (s : State) (h : Bool) (call text : Bytes), 0x2D ∉ call →
    let star : Bytes := if h then [0x2A] else []
    let kept := if s.params.caseFold then upper call else call
    let badCall : OpResult := .fail ⟨.malformedAddress, 1, 0x33⟩
    let good : Prop := 1 ≤ call.length ∧ call.length ≤ 6
    ((h = false → call.getLast? ≠ some 0x2A) →
      (good → Returns (.addrParse (call ++ star)) s (.ok (.addr ⟨kept, 0, h⟩))) ∧
      (¬ good → Returns (.addrParse (call ++ star)) s badCall)) ∧
    ((h = false → text.getLast? ≠ some 0x2A) →
      (∀ v, SsidText v text →
        (good → Returns (.addrParse (call ++ 0x2D :: text ++ star)) s (.ok (.addr ⟨kept, BitVec.ofNat 4 v, h⟩))) ∧
        (¬ good → Returns (.addrParse (call ++ 0x2D :: text ++ star)) s badCall)) ∧
      ((∀ v, ¬ SsidText v text) →
        Returns (.addrParse (call ++ 0x2D :: text ++ star)) s (.fail ⟨.malformedAddress, 2, 0x33⟩)))

/-- R192, R95, R96, R113: ADDR.PACK, its two failures in their order and its seven bytes. -/
def Obligations.PackWritesSevenBytes : Prop :=
  ∀ (s : State) (a : Addr) (fin : Bool),
    (6 < a.call.length → Returns (.addrPack a fin) s (.fail ⟨.malformedAddress, 1, 0x34⟩)) ∧
    (a.call.length ≤ 6 → ∀ pre c post, a.call = pre ++ c :: post → (∀ b ∈ pre, b.toNat ≤ 0x7F) → 0x7F < c.toNat →
      Returns (.addrPack a fin) s (.fail ⟨.encodingFailure, c.toNat, 0x34⟩)) ∧
    (a.call.length ≤ 6 → (∀ b ∈ a.call, b.toNat ≤ 0x7F) → ∃ out, Returns (.addrPack a fin) s (.ok (.bytes out)) ∧
      out.length = 7 ∧ (∀ i (hi : i < a.call.length), (out.getD i 0).toNat = 2 * (a.call[i]).toNat) ∧
      (∀ i, a.call.length ≤ i → i < 6 → out.getD i 0 = 0x40) ∧
      (out.getD 6 0).toNat = (if a.h then 0x80 else 0) + 0x60 + 2 * a.ssid.toNat + (if fin then 1 else 0))

/-- R197: the two round trips of an address: packed and unpacked, for every callsign of at most 6 characters, each at most
`0x7F`, that does not end in a space; written as text and parsed, for every well-formed address. -/
def Obligations.AddressRoundTrips : Prop :=
  (∀ (s : State) (a : Addr) (fin : Bool), a.call.length ≤ 6 → (∀ c ∈ a.call, c.toNat ≤ 0x7F) →
    a.call.getLast? ≠ some 0x20 → ∃ out, Returns (.addrPack a fin) s (.ok (.bytes out)) ∧
      Returns (.addrUnpack out 0) s (.ok (.unpacked ⟨a.call, a.ssid, if a.h then 0b111 else 0b011, fin⟩))) ∧
  ∀ (s : State) (a : Addr), a.WellFormed → ∃ text, Returns (.addrFmt a.call a.ssid) s (.ok (.bytes text)) ∧
    Returns (.addrParse (text ++ if a.h then [0x2A] else [])) s (.ok (.addr a))

/-- R95, R96, R97, R113: the two kinds of byte of a packed address, unpacked and packed. -/
def Obligations.AddressBytesHoldTheirFields : Prop :=
  (∀ (s : State) (c : BitVec 7) (low : Bool),
    Returns (.addrCallbyte .unpack c low) s (.ok (.bytes [BitVec.ofNat 8 c.toNat])) ∧
    Returns (.addrCallbyte .pack c low) s (.ok (.bytes [BitVec.ofNat 8 (2 * c.toNat)]))) ∧
  ∀ (s : State) (h : Bool) (rr : BitVec 2) (ssid : BitVec 4) (x : Bool),
    Returns (.addrSsidbyte .unpack h rr ssid x) s (.ok (.ssidFields ssid
      (BitVec.ofNat 3 ((if h then 4 else 0) + rr.toNat)) x (decide (h = true ∧ rr = 0b11)))) ∧
    Returns (.addrSsidbyte .pack h rr ssid x) s (.ok (.bytes [BitVec.ofNat 8
      ((if h then 0x80 else 0) + 0x60 + 2 * ssid.toNat + (if x then 1 else 0))]))

/-! ## Link frame codec -/

/-- R101, R104, R105, R211, R214: the control byte: class `11` takes one more byte as protocol-ID and the rest as payload,
`01` and low bit `0` fail, the class being tested before the protocol-ID is looked for; the constants as they are
written. -/
def Obligations.ControlByteSelectsTheFrameClass : Prop :=
  ∀ (s : State),
    (∀ (hi : BitVec 6) (pid : Byte) (info : Bytes),
      Returns (.ctlU hi (pid :: info)) s (.ok (.control (BitVec.ofNat 8 (4 * hi.toNat + 3)) pid info)) ∧
      Returns (.ctlU hi []) s (.fail ⟨.truncatedFrame, 2, 0x40⟩)) ∧
    (∀ (hi : BitVec 6) (rest : Bytes), Returns (.ctlS hi rest) s (.fail ⟨.unsupportedFrameType, 1, 0x40⟩)) ∧
    (∀ (hi : BitVec 7) (rest : Bytes), Returns (.ctlI hi rest) s (.fail ⟨.unsupportedFrameType, 2, 0x40⟩)) ∧
    (∀ info, Returns (.ctlUi (.encb info)) s (.ok (.bytes (0x03 :: 0xF0 :: info))) ∧
      Returns (.pidNol3 (.encb info)) s (.ok (.bytes (0xF0 :: info))) ∧
      ∀ pid, Returns (.pidNol3 (.decb pid info)) s (.ok (.control 0x03 pid info))) ∧
    Returns (.ctlUi .decp) s (.ok (.bytes [0x03])) ∧ Returns (.pidNol3 .decp) s (.ok (.bytes [0xF0]))

/-- R211 to R215: LF.DECB after any address chain: seven bytes each, `d` the destination, `r` the source, `gs` the
digipeaters, with extension bit 0 from the source on until the last, the destination's bit free. Any proper beginning of the
chain fails as a malformed address, a missing control or protocol-ID byte as truncated, every control byte has the effect of
its class, and class `11` gives the frame: whatever the callsign characters, their bits 0, the reserved bits and the
protocol-ID are, a digipeater repeated if and only if its `hrr` is `0b111`, destination and source never. -/
def Obligations.BinaryDecodeFailsOnShortInputAndByClass : Prop :=
  ∀ (s : State) (d r : Bytes) (gs : List Bytes), (∀ a ∈ d :: r :: gs, a.length = 7) →
    (∀ (k : Nat) (a : Bytes), (r :: gs)[k]? = some a → (a.getD 6 0).getLsbD 0 = decide (k = gs.length)) →
    let hd := d ++ r ++ gs.flatten
    (∀ k, k < hd.length → Returns (.lfDecb (hd.take k)) s (.fail ⟨.malformedAddress, 0, 0x30⟩)) ∧
    Returns (.lfDecb hd) s (.fail ⟨.truncatedFrame, 1, 0x40⟩) ∧
    ∀ (c : Byte) (rest : Bytes),
      (c.toNat % 4 = 1 → Returns (.lfDecb (hd ++ c :: rest)) s (.fail ⟨.unsupportedFrameType, 1, 0x40⟩)) ∧
      (c.toNat % 2 = 0 → Returns (.lfDecb (hd ++ c :: rest)) s (.fail ⟨.unsupportedFrameType, 2, 0x40⟩)) ∧
      (c.toNat % 4 = 3 →
        Returns (.lfDecb (hd ++ [c])) s (.fail ⟨.truncatedFrame, 2, 0x40⟩) ∧
        ∀ (pid : Byte) (ud ur : Unpacked) (ugs : List Unpacked), Returns (.addrUnpack d 0) s (.ok (.unpacked ud)) →
          Returns (.addrUnpack r 0) s (.ok (.unpacked ur)) →
          List.Forall₂ (fun g u => Returns (.addrUnpack g 0) s (.ok (.unpacked u))) gs ugs →
          Returns (.lfDecb (hd ++ c :: pid :: rest)) s (.ok (.frame ⟨⟨ud.call, ud.ssid, false⟩, ⟨ur.call, ur.ssid, false⟩,
            ugs.map fun u => ⟨u.call, u.ssid, decide (u.hrr = 0b111)⟩, c, pid, rest⟩)))

/-- R218, R219: LF.DECP: the two missing separators, then the tokens in the order source, destination, digipeaters, the
first failure being the one reported. -/
def Obligations.PathDecodeParsesTheTokensInOrder : Prop :=
  (∀ (s : State) (t : Bytes), 0x3A ∉ t → Returns (.lfDecp t) s (.fail ⟨.framingError, 3, 0x41⟩)) ∧
  (∀ (s : State) (path info : Bytes), 0x3A ∉ path → 0x3E ∉ path →
    Returns (.lfDecp (path ++ 0x3A :: info)) s (.fail ⟨.framingError, 4, 0x41⟩)) ∧
  ∀ (s : State) (src dst : Bytes) (digis : List Bytes) (info : Bytes),
    (0x3E ∉ src ∧ 0x3A ∉ src) → (∀ t ∈ dst :: digis, 0x2C ∉ t ∧ 0x3A ∉ t) →
    let text := src ++ 0x3E :: dst ++ digis.flatMap (fun t => 0x2C :: t) ++ 0x3A :: info
    (∀ e, Returns (.addrParse src) s (.fail e) → Returns (.lfDecp text) s (.fail e)) ∧
    ∀ a, Returns (.addrParse src) s (.ok (.addr a)) →
      (∀ e, Returns (.addrParse dst) s (.fail e) → Returns (.lfDecp text) s (.fail e)) ∧
      ∀ b, Returns (.addrParse dst) s (.ok (.addr b)) →
        (∀ (pre post : List Bytes) (t : Bytes) (gs : List Addr) (e : Failure), digis = pre ++ t :: post →
          List.Forall₂ (fun t g => Returns (.addrParse t) s (.ok (.addr g))) pre gs →
          Returns (.addrParse t) s (.fail e) → Returns (.lfDecp text) s (.fail e)) ∧
        ∀ gs : List Addr, List.Forall₂ (fun t g => Returns (.addrParse t) s (.ok (.addr g))) digis gs →
          Returns (.lfDecp text) s (.ok (.frame ⟨b, a, gs, 0x03, 0xF0, info⟩))

/-- R222: LF.ENCB: destination not final, source final only without digipeaters, the last digipeater final, then the two
constants and the payload, whatever `ctrl` and `pid` the record holds; the first address that fails is the one reported;
and the length. -/
def Obligations.BinaryEncodePacksTheChainInOrder : Prop :=
  ∀ (s : State) (f : LinkFrame),
    (∀ e, Returns (.addrPack f.dst false) s (.fail e) → Returns (.lfEncb f) s (.fail e)) ∧
    ∀ d, Returns (.addrPack f.dst false) s (.ok (.bytes d)) →
      (∀ e, Returns (.addrPack f.src (decide (f.digis = []))) s (.fail e) → Returns (.lfEncb f) s (.fail e)) ∧
      ∀ r, Returns (.addrPack f.src (decide (f.digis = []))) s (.ok (.bytes r)) →
        (∀ k (hk : k < f.digis.length) (e : Failure),
          (∀ j (hj : j < f.digis.length), j < k → ∃ g, Returns (.addrPack f.digis[j] false) s (.ok (.bytes g))) →
          Returns (.addrPack f.digis[k] (decide (k + 1 = f.digis.length))) s (.fail e) →
          Returns (.lfEncb f) s (.fail e)) ∧
        ∀ gs : List Bytes, gs.length = f.digis.length →
          (∀ k (hk : k < f.digis.length), Returns (.addrPack f.digis[k] (decide (k + 1 = f.digis.length))) s
            (.ok (.bytes (gs.getD k [])))) →
          ∃ out, Returns (.lfEncb f) s (.ok (.bytes out)) ∧ out = d ++ r ++ gs.flatten ++ 0x03 :: 0xF0 :: f.info ∧
            out.length = 16 + 7 * f.digis.length + f.info.length

/-- R223, R98: in every output of LF.ENCB exactly the last address has extension bit 1. -/
def Obligations.OnlyTheLastAddressHasTheExtensionBit : Prop :=
  ∀ (s : State) (f : LinkFrame) (out : Bytes), Returns (.lfEncb f) s (.ok (.bytes out)) →
    ∀ k, k < f.digis.length + 2 → ∃ b, out[7 * k + 6]? = some b ∧ b.getLsbD 0 = decide (k = f.digis.length + 1)

/-- R226: LF.ENCP, a `*` on the repeated digipeaters only. -/
def Obligations.PathEncodeWritesTheChainAsText : Prop :=
  ∀ (s : State) (f : LinkFrame) (src dst : Bytes) (digis : List Bytes),
    Returns (.addrFmt f.src.call f.src.ssid) s (.ok (.bytes src)) →
    Returns (.addrFmt f.dst.call f.dst.ssid) s (.ok (.bytes dst)) →
    List.Forall₂ (fun (g : Addr) t => Returns (.addrFmt g.call g.ssid) s (.ok (.bytes t))) f.digis digis →
    Returns (.lfEncp f) s (.ok (.bytes (src ++ 0x3E :: dst ++
      (f.digis.zip digis).flatMap (fun gt => 0x2C :: gt.2 ++ if gt.1.h then [0x2A] else []) ++ 0x3A :: f.info)))

/-- R236: the round trip of a well-formed frame, with any number of digipeaters, in both dialects. -/
def Obligations.LinkFrameRoundTripsInBothDialects : Prop :=
  ∀ (s : State) (f : LinkFrame), f.WellFormed →
    (∃ body, Returns (.lfEncb f) s (.ok (.bytes body)) ∧ Returns (.lfDecb body) s (.ok (.frame f))) ∧
    ∃ text, Returns (.lfEncp f) s (.ok (.bytes text)) ∧ Returns (.lfDecp text) s (.ok (.frame f))

/-- R230, R231, R232: LF.INJ. The report text is whatever `REPORT_FMT` gives (R233). -/
def Obligations.SignalReportIsAppendedExceptToMessages : Prop :=
  ∀ (s : State) (f : LinkFrame) (rssi snr : Metric),
    let becomes (info : Bytes) : Prop := Returns (.lfInj f rssi snr) s (.ok (.frame { f with info := info }))
    let report := 0x20 :: reportText s.params.reportFmt rssi snr
    (s.appendReport = false → becomes f.info) ∧
    (∀ rest, f.info = 0x3A :: rest → becomes f.info) ∧
    (s.appendReport = true → f.info.head? ≠ some 0x3A →
      (∀ pre, f.info = pre ++ [0x0A] → s.dialect = .path ∨ s.params.stripNlBinary = true → becomes (pre ++ report)) ∧
      (f.info.getLast? ≠ some 0x0A ∨ (s.dialect = .binary ∧ s.params.stripNlBinary = false) →
        becomes (f.info ++ report)))

/-- R260: a decoded body can always be packed again, the result differs from it in the listed bits only, and with
`CFG.DIALECT = BINARY` it is what BR.FRAME queues. -/
def Obligations.RepackingNormalisesTheListedBitsOnly : Prop :=
  ∀ (s : State) (body : Bytes) (f : LinkFrame), Returns (.lfDecb body) s (.ok (.frame f)) →
    let n := f.digis.length + 2
    ∃ out, Returns (.lfEncb f) s (.ok (.bytes out)) ∧ out.length = body.length ∧
      (∀ (p : Nat) (frame : Bytes), s.dialect = .binary → Returns (.unwrap frame) s (.ok (.cmdBody 0x00 body)) →
        s.params.qdepth ≠ some s.txq.length → exec (.brFrame p frame) s = .next { s with txq := s.txq ++ [out] }) ∧
      (∀ k i, k < n → i < 6 → out[7 * k + i]? = (body[7 * k + i]?).map (· &&& 0xFE)) ∧
      (∀ k, k < n → ∃ b c, body[7 * k + 6]? = some b ∧ out[7 * k + 6]? = some c ∧
        c.extractLsb' 1 4 = b.extractLsb' 1 4 ∧ c.extractLsb' 5 2 = 0b11 ∧
        c.getLsbD 7 = decide (2 ≤ k ∧ b.extractLsb' 5 3 = 0b111) ∧ c.getLsbD 0 = decide (k + 1 = n)) ∧
      out[7 * n]? = some 0x03 ∧ out[7 * n + 1]? = some 0xF0 ∧ out.drop (7 * n + 2) = body.drop (7 * n + 2)

/-! ## Path-notation characters -/

/-- R111, R218, R219: the separators: `>` and `:` split at their first occurrence, whichever occurrence is met, `,` at every
one, `:` as first payload byte keeps the report away. -/
def Obligations.SeparatorsSplitThePath : Prop :=
  ∀ s : State,
    (∀ before after pre post, before ++ 0x3E :: after = pre ++ 0x3E :: post → 0x3E ∉ pre →
      Returns (.pGt before after) s (.ok (.split pre post))) ∧
    (∀ before after pre post, before ++ 0x3A :: after = pre ++ 0x3A :: post → 0x3A ∉ pre →
      Returns (.pColon (.pathEnd before after)) s (.ok (.split pre post))) ∧
    (∀ info rssi snr, Returns (.pColon (.message info rssi snr)) s (.ok (.bytes (0x3A :: info)))) ∧
    ∀ (b a : Bytes) (bs as : List Bytes), (∀ t ∈ b :: a :: (bs ++ as), 0x2C ∉ t) →
      Returns (.pComma (b ++ bs.flatMap (fun t => 0x2C :: t)) (a ++ as.flatMap (fun t => 0x2C :: t))) s
        (.ok (.tokens b (bs ++ a :: as)))

/-- R111, R188, R189: the characters inside a token: `*`, stripped where it is the last one and kept elsewhere, `-`, which
splits at its first occurrence, and the digits of the SSID text. -/
def Obligations.TokenCharactersGiveStarAndSsid : Prop :=
  ∀ (s : State) (before after : Bytes),
    (∀ token, before ++ 0x2A :: after = token ++ [0x2A] → Returns (.pStar before after) s (.ok (.star true token))) ∧
    ((before ++ 0x2A :: after).getLast? ≠ some 0x2A →
      Returns (.pStar before after) s (.ok (.star false (before ++ 0x2A :: after)))) ∧
    (∀ call text, before ++ 0x2D :: after = call ++ 0x2D :: text → 0x2D ∉ call →
      (∀ v, SsidText v text → Returns (.pDash before after) s (.ok (.callSsid call (BitVec.ofNat 4 v)))) ∧
      ((∀ v, ¬ SsidText v text) → Returns (.pDash before after) s (.fail ⟨.malformedAddress, 2, 0x33⟩))) ∧
    ∀ d : BitVec 4, d.toNat ≤ 9 →
      let text := before ++ BitVec.ofNat 8 (0x30 + d.toNat) :: after
      (∀ v, SsidText v text → Returns (.pDigit d before after) s (.ok (.ssid (BitVec.ofNat 4 v)))) ∧
      ((∀ v, ¬ SsidText v text) → Returns (.pDigit d before after) s (.fail ⟨.malformedAddress, 2, 0x33⟩))

/-- R111, R181, R192, R230, R232: the space as padding on the wire, as padding trimmed, as separator of the report; the
newline, which LF.INJ strips where it is the last byte of a payload that gets a report. -/
def Obligations.SpaceAndNewlineHaveTheirRoles : Prop :=
  ∀ s : State,
    (∀ call, 6 < call.length → Returns (.pSpace (.pad call)) s (.fail ⟨.malformedAddress, 1, 0x34⟩)) ∧
    (∀ call, call.length ≤ 6 → (∀ c ∈ call, c.toNat ≤ 0x7F) →
      Returns (.pSpace (.pad call)) s (.ok (.bytes
        (call.map (fun c => BitVec.ofNat 8 (2 * c.toNat)) ++ List.replicate (6 - call.length) 0x40)))) ∧
    (∀ call pre c post, call.length ≤ 6 → call = pre ++ c :: post → (∀ b ∈ pre, b.toNat ≤ 0x7F) → 0x7F < c.toNat →
      Returns (.pSpace (.pad call)) s (.fail ⟨.encodingFailure, c.toNat, 0x34⟩)) ∧
    (∀ (text : Bytes) k, text.getLast? ≠ some 0x20 →
      Returns (.pSpace (.trim (text ++ List.replicate k 0x20))) s (.ok (.bytes text))) ∧
    (∀ info rssi snr, Returns (.pSpace (.separator info rssi snr)) s
      (.ok (.bytes (info ++ 0x20 :: reportText s.params.reportFmt rssi snr)))) ∧
    ∀ before after rssi snr,
      let info := before ++ 0x0A :: after
      let becomes (out : Bytes) : Prop := Returns (.pNl before after rssi snr) s (.ok (.bytes out))
      let report := 0x20 :: reportText s.params.reportFmt rssi snr
      (s.appendReport = false ∨ info.head? = some 0x3A → becomes info) ∧
      (s.appendReport = true → info.head? ≠ some 0x3A →
        (∀ pre, info = pre ++ [0x0A] → s.dialect = .path ∨ s.params.stripNlBinary = true → becomes (pre ++ report)) ∧
        (info.getLast? ≠ some 0x0A ∨ (s.dialect = .binary ∧ s.params.stripNlBinary = false) → becomes (info ++ report)))
end

