-- ==== Sys2Proof/Laws/State.lean ====
section
/-! SUPPORT. One lemma per field per update, so that no proof unfolds a record update. -/

namespace Sys2Proof.Machine

variable (s : State)

/-! ## setResult -/

@[simp] theorem setResult_dialect (r : OpResult) :
    (s.setResult r).dialect = s.dialect := rfl
@[simp] theorem setResult_appendReport (r : OpResult) :
    (s.setResult r).appendReport = s.appendReport := rfl
@[simp] theorem setResult_run (r : OpResult) :
    (s.setResult r).run = s.run := rfl
@[simp] theorem setResult_peers (r : OpResult) :
    (s.setResult r).peers = s.peers := rfl
@[simp] theorem setResult_txq (r : OpResult) :
    (s.setResult r).txq = s.txq := rfl
@[simp] theorem setResult_escp (r : OpResult) :
    (s.setResult r).escp = s.escp := rfl
@[simp] theorem setResult_params (r : OpResult) :
    (s.setResult r).params = s.params := rfl
@[simp] theorem setResult_radioTx (r : OpResult) :
    (s.setResult r).radioTx = s.radioTx := rfl
@[simp] theorem setResult_log (r : OpResult) :
    (s.setResult r).log = s.log := rfl
@[simp] theorem setResult_result (r : OpResult) :
    (s.setResult r).result = r := rfl
@[simp] theorem setResult_pending (r : OpResult) :
    (s.setResult r).pending = s.pending := rfl

/-! ## updPeer -/

@[simp] theorem updPeer_dialect (p : Nat) (f : Peer → Peer) :
    (s.updPeer p f).dialect = s.dialect := rfl
@[simp] theorem updPeer_appendReport (p : Nat) (f : Peer → Peer) :
    (s.updPeer p f).appendReport = s.appendReport := rfl
@[simp] theorem updPeer_run (p : Nat) (f : Peer → Peer) :
    (s.updPeer p f).run = s.run := rfl
@[simp] theorem updPeer_peers (p : Nat) (f : Peer → Peer) :
    (s.updPeer p f).peers = s.peers.modify p f := rfl
@[simp] theorem updPeer_txq (p : Nat) (f : Peer → Peer) :
    (s.updPeer p f).txq = s.txq := rfl
@[simp] theorem updPeer_escp (p : Nat) (f : Peer → Peer) :
    (s.updPeer p f).escp = s.escp := rfl
@[simp] theorem updPeer_params (p : Nat) (f : Peer → Peer) :
    (s.updPeer p f).params = s.params := rfl
@[simp] theorem updPeer_radioTx (p : Nat) (f : Peer → Peer) :
    (s.updPeer p f).radioTx = s.radioTx := rfl
@[simp] theorem updPeer_log (p : Nat) (f : Peer → Peer) :
    (s.updPeer p f).log = s.log := rfl
@[simp] theorem updPeer_result (p : Nat) (f : Peer → Peer) :
    (s.updPeer p f).result = s.result := rfl
@[simp] theorem updPeer_pending (p : Nat) (f : Peer → Peer) :
    (s.updPeer p f).pending = s.pending := rfl

/-! ## netWriteAll -/

@[simp] theorem netWriteAll_dialect (out : Bytes) :
    (s.netWriteAll out).dialect = s.dialect := rfl
@[simp] theorem netWriteAll_appendReport (out : Bytes) :
    (s.netWriteAll out).appendReport = s.appendReport := rfl
@[simp] theorem netWriteAll_run (out : Bytes) :
    (s.netWriteAll out).run = s.run := rfl
@[simp] theorem netWriteAll_peers (out : Bytes) :
    (s.netWriteAll out).peers = s.peers.map fun q => if q.conn then { q with netTx := q.netTx ++ [out] } else q := rfl
@[simp] theorem netWriteAll_txq (out : Bytes) :
    (s.netWriteAll out).txq = s.txq := rfl
@[simp] theorem netWriteAll_escp (out : Bytes) :
    (s.netWriteAll out).escp = s.escp := rfl
@[simp] theorem netWriteAll_params (out : Bytes) :
    (s.netWriteAll out).params = s.params := rfl
@[simp] theorem netWriteAll_radioTx (out : Bytes) :
    (s.netWriteAll out).radioTx = s.radioTx := rfl
@[simp] theorem netWriteAll_log (out : Bytes) :
    (s.netWriteAll out).log = s.log := rfl
@[simp] theorem netWriteAll_result (out : Bytes) :
    (s.netWriteAll out).result = s.result := rfl
@[simp] theorem netWriteAll_pending (out : Bytes) :
    (s.netWriteAll out).pending = s.pending := rfl

/-! ## pushTx -/

@[simp] theorem pushTx_dialect (item : Bytes) :
    (s.pushTx item).dialect = s.dialect := rfl
@[simp] theorem pushTx_appendReport (item : Bytes) :
    (s.pushTx item).appendReport = s.appendReport := rfl
@[simp] theorem pushTx_run (item : Bytes) :
    (s.pushTx item).run = s.run := rfl
@[simp] theorem pushTx_peers (item : Bytes) :
    (s.pushTx item).peers = s.peers := rfl
@[simp] theorem pushTx_txq (item : Bytes) :
    (s.pushTx item).txq = s.txq ++ [item] := rfl
@[simp] theorem pushTx_escp (item : Bytes) :
    (s.pushTx item).escp = s.escp := rfl
@[simp] theorem pushTx_params (item : Bytes) :
    (s.pushTx item).params = s.params := rfl
@[simp] theorem pushTx_radioTx (item : Bytes) :
    (s.pushTx item).radioTx = s.radioTx := rfl
@[simp] theorem pushTx_log (item : Bytes) :
    (s.pushTx item).log = s.log := rfl
@[simp] theorem pushTx_result (item : Bytes) :
    (s.pushTx item).result = s.result := rfl
@[simp] theorem pushTx_pending (item : Bytes) :
    (s.pushTx item).pending = s.pending := rfl

/-! ## popToRadio -/

@[simp] theorem popToRadio_dialect (item : Bytes) (rest : List Bytes) :
    (s.popToRadio item rest).dialect = s.dialect := rfl
@[simp] theorem popToRadio_appendReport (item : Bytes) (rest : List Bytes) :
    (s.popToRadio item rest).appendReport = s.appendReport := rfl
@[simp] theorem popToRadio_run (item : Bytes) (rest : List Bytes) :
    (s.popToRadio item rest).run = s.run := rfl
@[simp] theorem popToRadio_peers (item : Bytes) (rest : List Bytes) :
    (s.popToRadio item rest).peers = s.peers := rfl
@[simp] theorem popToRadio_txq (item : Bytes) (rest : List Bytes) :
    (s.popToRadio item rest).txq = rest := rfl
@[simp] theorem popToRadio_escp (item : Bytes) (rest : List Bytes) :
    (s.popToRadio item rest).escp = s.escp := rfl
@[simp] theorem popToRadio_params (item : Bytes) (rest : List Bytes) :
    (s.popToRadio item rest).params = s.params := rfl
@[simp] theorem popToRadio_radioTx (item : Bytes) (rest : List Bytes) :
    (s.popToRadio item rest).radioTx = s.radioTx ++ [item] := rfl
@[simp] theorem popToRadio_log (item : Bytes) (rest : List Bytes) :
    (s.popToRadio item rest).log = s.log := rfl
@[simp] theorem popToRadio_result (item : Bytes) (rest : List Bytes) :
    (s.popToRadio item rest).result = s.result := rfl
@[simp] theorem popToRadio_pending (item : Bytes) (rest : List Bytes) :
    (s.popToRadio item rest).pending = s.pending := rfl

/-! ## stop -/

@[simp] theorem stop_dialect :
    (s.stop).dialect = s.dialect := rfl
@[simp] theorem stop_appendReport :
    (s.stop).appendReport = s.appendReport := rfl
@[simp] theorem stop_run :
    (s.stop).run = false := rfl
@[simp] theorem stop_peers :
    (s.stop).peers = s.peers := rfl
@[simp] theorem stop_txq :
    (s.stop).txq = s.txq := rfl
@[simp] theorem stop_escp :
    (s.stop).escp = s.escp := rfl
@[simp] theorem stop_params :
    (s.stop).params = s.params := rfl
@[simp] theorem stop_radioTx :
    (s.stop).radioTx = s.radioTx := rfl
@[simp] theorem stop_log :
    (s.stop).log = s.log := rfl
@[simp] theorem stop_result :
    (s.stop).result = s.result := rfl
@[simp] theorem stop_pending :
    (s.stop).pending = s.pending := rfl

/-! ## setEscp -/

@[simp] theorem setEscp_dialect (e : Bool) (r : OpResult) :
    (s.setEscp e r).dialect = s.dialect := rfl
@[simp] theorem setEscp_appendReport (e : Bool) (r : OpResult) :
    (s.setEscp e r).appendReport = s.appendReport := rfl
@[simp] theorem setEscp_run (e : Bool) (r : OpResult) :
    (s.setEscp e r).run = s.run := rfl
@[simp] theorem setEscp_peers (e : Bool) (r : OpResult) :
    (s.setEscp e r).peers = s.peers := rfl
@[simp] theorem setEscp_txq (e : Bool) (r : OpResult) :
    (s.setEscp e r).txq = s.txq := rfl
@[simp] theorem setEscp_escp (e : Bool) (r : OpResult) :
    (s.setEscp e r).escp = e := rfl
@[simp] theorem setEscp_params (e : Bool) (r : OpResult) :
    (s.setEscp e r).params = s.params := rfl
@[simp] theorem setEscp_radioTx (e : Bool) (r : OpResult) :
    (s.setEscp e r).radioTx = s.radioTx := rfl
@[simp] theorem setEscp_log (e : Bool) (r : OpResult) :
    (s.setEscp e r).log = s.log := rfl
@[simp] theorem setEscp_result (e : Bool) (r : OpResult) :
    (s.setEscp e r).result = r := rfl
@[simp] theorem setEscp_pending (e : Bool) (r : OpResult) :
    (s.setEscp e r).pending = s.pending := rfl

/-! ## emitLog -/

@[simp] theorem emitLog_dialect (r : LogRecord) :
    (s.emitLog r).dialect = s.dialect := rfl
@[simp] theorem emitLog_appendReport (r : LogRecord) :
    (s.emitLog r).appendReport = s.appendReport := rfl
@[simp] theorem emitLog_run (r : LogRecord) :
    (s.emitLog r).run = s.run := rfl
@[simp] theorem emitLog_peers (r : LogRecord) :
    (s.emitLog r).peers = s.peers := rfl
@[simp] theorem emitLog_txq (r : LogRecord) :
    (s.emitLog r).txq = s.txq := rfl
@[simp] theorem emitLog_escp (r : LogRecord) :
    (s.emitLog r).escp = s.escp := rfl
@[simp] theorem emitLog_params (r : LogRecord) :
    (s.emitLog r).params = s.params := rfl
@[simp] theorem emitLog_radioTx (r : LogRecord) :
    (s.emitLog r).radioTx = s.radioTx := rfl
@[simp] theorem emitLog_log (r : LogRecord) :
    (s.emitLog r).log = s.log ++ [r] := rfl
@[simp] theorem emitLog_result (r : LogRecord) :
    (s.emitLog r).result = s.result := rfl
@[simp] theorem emitLog_pending (r : LogRecord) :
    (s.emitLog r).pending = s.pending := rfl

/-! ## failEntry -/

@[simp] theorem failEntry_dialect (d : Direction) (p : Nat) (e : Failure) :
    (failEntry d p e s).dialect = s.dialect := rfl
@[simp] theorem failEntry_appendReport (d : Direction) (p : Nat) (e : Failure) :
    (failEntry d p e s).appendReport = s.appendReport := rfl
@[simp] theorem failEntry_run (d : Direction) (p : Nat) (e : Failure) :
    (failEntry d p e s).run = s.run := rfl
@[simp] theorem failEntry_peers (d : Direction) (p : Nat) (e : Failure) :
    (failEntry d p e s).peers = s.peers := rfl
@[simp] theorem failEntry_txq (d : Direction) (p : Nat) (e : Failure) :
    (failEntry d p e s).txq = s.txq := rfl
@[simp] theorem failEntry_escp (d : Direction) (p : Nat) (e : Failure) :
    (failEntry d p e s).escp = s.escp := rfl
@[simp] theorem failEntry_params (d : Direction) (p : Nat) (e : Failure) :
    (failEntry d p e s).params = s.params := rfl
@[simp] theorem failEntry_radioTx (d : Direction) (p : Nat) (e : Failure) :
    (failEntry d p e s).radioTx = s.radioTx := rfl
@[simp] theorem failEntry_log (d : Direction) (p : Nat) (e : Failure) :
    (failEntry d p e s).log = s.log ++ [⟨e.kind, e.unit, d, p, e.info⟩] := rfl
@[simp] theorem failEntry_result (d : Direction) (p : Nat) (e : Failure) :
    (failEntry d p e s).result = s.result := rfl
@[simp] theorem failEntry_pending (d : Direction) (p : Nat) (e : Failure) :
    (failEntry d p e s).pending = s.pending := rfl
@[simp] theorem brReset_dialect (d : Dialect) (a : Bool) :
    (brReset d a s).dialect = d := rfl
@[simp] theorem brReset_appendReport (d : Dialect) (a : Bool) :
    (brReset d a s).appendReport = a := rfl
@[simp] theorem brReset_run (d : Dialect) (a : Bool) :
    (brReset d a s).run = true := rfl
@[simp] theorem brReset_peers (d : Dialect) (a : Bool) :
    (brReset d a s).peers = s.peers.map Peer.brReset := rfl
@[simp] theorem brReset_txq (d : Dialect) (a : Bool) :
    (brReset d a s).txq = [] := rfl
@[simp] theorem brReset_escp (d : Dialect) (a : Bool) :
    (brReset d a s).escp = false := rfl
@[simp] theorem brReset_params (d : Dialect) (a : Bool) :
    (brReset d a s).params = s.params := rfl
@[simp] theorem brReset_radioTx (d : Dialect) (a : Bool) :
    (brReset d a s).radioTx = s.radioTx := rfl
@[simp] theorem brReset_log (d : Dialect) (a : Bool) :
    (brReset d a s).log = s.log := rfl
@[simp] theorem brReset_result (d : Dialect) (a : Bool) :
    (brReset d a s).result = s.result := rfl
@[simp] theorem brReset_pending (d : Dialect) (a : Bool) :
    (brReset d a s).pending = s.pending := rfl

/-! ## Registers of one peer -/

variable (q : Peer)

@[simp] theorem peer_dlmReset_conn : q.dlmReset.conn = q.conn := rfl
@[simp] theorem peer_dlmReset_dst : q.dlmReset.dst = .idle := rfl
@[simp] theorem peer_dlmReset_buf : q.dlmReset.buf = [] := rfl
@[simp] theorem peer_dlmReset_netTx : q.dlmReset.netTx = q.netTx := rfl
@[simp] theorem peer_brReset_conn : q.brReset.conn = false := rfl
@[simp] theorem peer_brReset_dst : q.brReset.dst = .idle := rfl
@[simp] theorem peer_brReset_buf : q.brReset.buf = [] := rfl
@[simp] theorem peer_brReset_netTx : q.brReset.netTx = q.netTx := rfl
@[simp] theorem peer_dlmNext_conn (m : Option Nat) (c : Byte) :
    (q.dlmNext m c).conn = q.conn := rfl
@[simp] theorem peer_dlmNext_dst (m : Option Nat) (c : Byte) :
    (q.dlmNext m c).dst = (dlmTransition m q.dst q.buf c).1 := rfl
@[simp] theorem peer_dlmNext_buf (m : Option Nat) (c : Byte) :
    (q.dlmNext m c).buf = (dlmTransition m q.dst q.buf c).2.1 := rfl
@[simp] theorem peer_dlmNext_netTx (m : Option Nat) (c : Byte) :
    (q.dlmNext m c).netTx = q.netTx := rfl

end Sys2Proof.Machine
end

