-- ==== Sys2Proof/Laws/Stuffer.lean ====
section
/-! SUPPORT. What ESC, UNESC and one row of the serial table can do. -/

namespace Sys2Proof.Machine

theorem escBytes_nil : escBytes [] = [] := rfl

theorem escBytes_cons (c : Byte) (b : Bytes) : escBytes (c :: b) = escByte c ++ escBytes b := rfl

/-- The three forms of what ESC writes for one byte. -/
theorem escByte_cases (c : Byte) :
    (c = cMark ∧ escByte c = [cEscb, cSubm]) ∨ (c = cEscb ∧ escByte c = [cEscb, cSube]) ∨
      (c ≠ cMark ∧ c ≠ cEscb ∧ escByte c = [c]) := by
  unfold escByte
  split
  · exact .inl ⟨‹_›, rfl⟩
  · split
    · exact .inr (.inl ⟨‹_›, rfl⟩)
    · exact .inr (.inr ⟨‹_›, ‹_›, rfl⟩)

theorem mark_notMem_escByte (c : Byte) : cMark ∉ escByte c := by
  rcases escByte_cases c with ⟨_, h⟩ | ⟨_, h⟩ | ⟨hm, _, h⟩ <;> rw [h]
  · decide
  · decide
  · simpa using Ne.symm hm

theorem unescBytes_escb_subm (rest : Bytes) :
    unescBytes (cEscb :: cSubm :: rest) = (unescBytes rest).map (cMark :: ·) := by
  simp [unescBytes]

theorem unescBytes_escb_sube (rest : Bytes) :
    unescBytes (cEscb :: cSube :: rest) = (unescBytes rest).map (cEscb :: ·) := by
  simp [unescBytes]

/-- `0xDB` before anything but a substitute, or last. -/
theorem unescBytes_bad (tail : Bytes) (hm : tail.head? ≠ some cSubm) (he : tail.head? ≠ some cSube) :
    unescBytes (cEscb :: tail) = .error badEscape := by
  cases tail with
  | nil => simp [unescBytes]
  | cons d rest => simp_all [unescBytes]

/-- Every byte but `0xDB` stands for itself. -/
theorem unescBytes_cons (c : Byte) (rest : Bytes) (h : c ≠ cEscb) :
    unescBytes (c :: rest) = (unescBytes rest).map (c :: ·) := by
  cases rest with
  | nil => rw [show unescBytes [c] = if c = cEscb then .error badEscape else .ok [c] from rfl, if_neg h]; rfl
  | cons d rest => rw [unescBytes, if_neg h]

/-- UNESC fails in one way only. -/
theorem unescBytes_error (e : Bytes) (f : Failure) (h : unescBytes e = .error f) : f = badEscape := by
  induction e using unescBytes.induct with
  | case1 => simp [unescBytes] at h
  | case2 => simp [unescBytes] at h; exact h.symm
  | case3 c hc => rw [unescBytes, if_neg hc] at h; cases h
  | case4 rest ih =>
    rw [unescBytes_escb_subm] at h
    cases hr : unescBytes rest <;> rw [hr] at h <;> simp [Except.map] at h
    exact ih (h ▸ hr)
  | case5 rest _ ih =>
    rw [unescBytes_escb_sube] at h
    cases hr : unescBytes rest <;> rw [hr] at h <;> simp [Except.map] at h
    exact ih (h ▸ hr)
  | case6 d rest hm he =>
    rw [unescBytes_bad _ (by simpa using hm) (by simpa using he)] at h
    cases h; rfl
  | case7 c d rest hc ih =>
    rw [unescBytes_cons _ _ hc] at h
    cases hr : unescBytes (d :: rest) <;> rw [hr] at h <;> simp [Except.map] at h
    exact ih (h ▸ hr)

/-- Every row of R136's table. -/
theorem unescStep_cases (e : Bool) (c : Byte) :
    (e = false ∧ c = cEscb ∧ unescStep e c = .ok ([], true)) ∨
    (e = false ∧ c ≠ cEscb ∧ unescStep e c = .ok ([c], false)) ∨
    (e = true ∧ c = cSubm ∧ unescStep e c = .ok ([cMark], false)) ∨
    (e = true ∧ c = cSube ∧ unescStep e c = .ok ([cEscb], false)) ∨
    (e = true ∧ c ≠ cSubm ∧ c ≠ cSube ∧ unescStep e c = .error badEscape) := by
  cases e <;> simp [unescStep] <;> by_cases h1 : c = cEscb <;> by_cases h2 : c = cSubm <;> by_cases h3 : c = cSube <;>
    simp_all

/-- Inside an operation a byte is one row of the table. -/
theorem unescSerial_inner (e : Bool) (c : Byte) : unescSerial false false e c = unescStep e c := by
  rw [unescSerial, show (!false && e) = e from rfl]
  cases unescStep e c <;> rfl

/-- The first byte of an operation does not see what an earlier one left in `ESCP`. -/
theorem unescSerial_first (last e : Bool) (c : Byte) : unescSerial true last e c = unescSerial false last false c := by
  simp [unescSerial]

/-- The last byte of an operation leaves `ESCP = 0`, or fails. -/
theorem unescSerial_last (first e : Bool) (c : Byte) :
    unescSerial first true e c = .error badEscape ∨ ∃ out, unescSerial first true e c = .ok (out, false) := by
  rcases unescStep_cases (!first && e) c with ⟨_, _, h⟩ | ⟨_, _, h⟩ | ⟨_, _, h⟩ | ⟨_, _, h⟩ | ⟨_, _, _, h⟩ <;>
    simp [unescSerial, h]

end Sys2Proof.Machine
end

