-- ==== Sys2Proof/Laws/Delimiter.lean ====
section
/-! SUPPORT. What DLM.BYTE, DLM.PARSE and DLM.RESET can do to a state. -/

namespace Sys2Proof.Machine

/-- A write to a peer the block does not have is no write. -/
theorem updPeer_absent (s : State) (p : Nat) (f : Peer → Peer) (h : s.peers[p]? = none) : s.updPeer p f = s := by
  rw [State.updPeer, List.modify_eq_self (by simpa using h)]

/-- A write to a peer the block has, as a replacement. -/
theorem updPeer_set (s : State) (p : Nat) (f : Peer → Peer) (q : Peer) (h : s.peers[p]? = some q) :
    s.updPeer p f = { s with peers := s.peers.set p (f q) } := by
  have hp : p < s.peers.length := by
    exact (List.getElem?_eq_some_iff.mp h).1
  have : s.peers.modify p f = s.peers.set p (f q) := by
    apply List.ext_getElem?
    intro i
    rw [List.getElem?_modify, List.getElem?_set]
    by_cases hi : p = i
    · subst hi; simp only [h, hp, if_true, Option.map_eq_map, Option.map_some]
    · simp [hi]
  rw [State.updPeer, this]

/-- Two writes to one peer. -/
theorem updPeer_updPeer (s : State) (p : Nat) (f g : Peer → Peer) :
    (s.updPeer p f).updPeer p g = s.updPeer p (g ∘ f) := by
  simp [State.updPeer, List.modify_modify_eq]

@[simp] theorem updPeer_length (s : State) (p : Nat) (f : Peer → Peer) :
    (s.updPeer p f).peers.length = s.peers.length := by simp

/-- The state after DLM.BYTE is a write to the two registers of peer `p`. -/
theorem dlmByte_fst (p : Nat) (c : Byte) (s : State) :
    (dlmByte p c s).1 = s.updPeer p fun q => q.dlmNext s.params.maxframe c := by
  unfold dlmByte
  split
  · next h => rw [updPeer_absent _ _ _ h]
  · rfl

/-- The result of DLM.BYTE on a peer the block has. -/
theorem dlmByte_snd (p : Nat) (c : Byte) (s : State) (q : Peer) (h : s.peers[p]? = some q) :
    (dlmByte p c s).2 = (dlmTransition s.params.maxframe q.dst q.buf c).2.2 := by
  rw [dlmByte, h]

/-- DLM.BYTE on a peer the block does not have. -/
theorem dlmByte_absent (p : Nat) (c : Byte) (s : State) (h : s.peers[p]? = none) : dlmByte p c s = (s, .none) := by
  rw [dlmByte, h]

theorem dlmParse_nil (p : Nat) (s : State) : dlmParse p [] s = (s, []) := rfl

theorem dlmParse_cons (p : Nat) (c : Byte) (cs : Bytes) (s : State) :
    dlmParse p (c :: cs) s =
      ((dlmParse p cs (dlmByte p c s).1).1,
        if (dlmByte p c s).2 = .none then (dlmParse p cs (dlmByte p c s).1).2
        else (dlmByte p c s).2 :: (dlmParse p cs (dlmByte p c s).1).2) := rfl

/-- DLM.BYTE reads nothing but the peers and the parameters. -/
theorem dlmByte_setResult (p : Nat) (c : Byte) (s : State) (r : OpResult) :
    dlmByte p c (s.setResult r) = ((dlmByte p c s).1.setResult r, (dlmByte p c s).2) := by
  unfold dlmByte
  simp only [setResult_peers, setResult_params]
  split <;> rfl

/-- Nor does DLM.PARSE. -/
theorem dlmParse_setResult (p : Nat) (r : OpResult) : ∀ (cs : Bytes) (s : State),
    dlmParse p cs (s.setResult r) = ((dlmParse p cs s).1.setResult r, (dlmParse p cs s).2)
  | [], _ => rfl
  | c :: cs, s => by
    rw [dlmParse_cons, dlmParse_cons, dlmByte_setResult]
    dsimp only
    rw [dlmParse_setResult p r cs]

/-- DLM.BYTE changes no parameter. -/
@[simp] theorem dlmByte_params (p : Nat) (c : Byte) (s : State) : (dlmByte p c s).1.params = s.params := by
  rw [dlmByte_fst]; rfl

end Sys2Proof.Machine
end

