-- ==== Sys2Proof/Laws/Bridge.lean ====
section
/-! SUPPORT. What the orchestrator's operations can do to a state: one inversion lemma each. -/

namespace Sys2Proof.Machine

/-- BR.FRAME after UNWRAP: one log record, or one item pushed onto a queue with room. -/
theorem brCommand_cases (p : Nat) (cmd : Byte) (body : Bytes) (s : State) :
    (∃ e, brCommand p cmd body s = failEntry .netToRadio p e s) ∨
      (∃ item, s.queueFull = false ∧ cmd = cCmdData ∧ brCommand p cmd body s = s.pushTx item) := by
  unfold brCommand
  split
  · exact .inl ⟨_, rfl⟩
  · next hc =>
    split
    · exact .inl ⟨_, rfl⟩
    · split
      · exact .inl ⟨_, rfl⟩
      · split
        · exact .inl ⟨_, rfl⟩
        · next hq => exact .inr ⟨_, Bool.eq_false_iff.mpr hq, not_not.mp hc, rfl⟩

/-- BR.FRAME: one log record, or one item pushed onto a queue with room. -/
theorem brFrame_cases (p : Nat) (f : Bytes) (s : State) :
    (∃ e, brFrame p f s = failEntry .netToRadio p e s) ∨
      (∃ item, s.queueFull = false ∧ brFrame p f s = s.pushTx item) := by
  unfold brFrame
  split
  · exact .inl ⟨_, rfl⟩
  · rcases brCommand_cases p _ _ s with h | ⟨i, hq, _, h⟩
    · exact .inl h
    · exact .inr ⟨i, hq, h⟩

/-- One result of DLM.BYTE in BR.NETRX: nothing, one log record, or one item pushed onto a queue with room. -/
theorem brDelimited_cases (p : Nat) (r : DlmResult) (s : State) :
    (r = .none ∧ brDelimited p r s = s) ∨ (∃ e, brDelimited p r s = failEntry .netToRadio p e s) ∨
      (∃ item, s.queueFull = false ∧ brDelimited p r s = s.pushTx item) := by
  cases r with
  | none => exact .inl ⟨rfl, rfl⟩
  | frame f => exact .inr (brFrame_cases p f s)
  | overrun => exact .inr (.inl ⟨_, rfl⟩)

/-- One byte in BR.NETRX. -/
def netrxByte (p : Nat) (c : Byte) (s : State) : State := brDelimited p (dlmByte p c s).2 (dlmByte p c s).1

theorem brNetrxLoop_nil (p : Nat) (s : State) : brNetrxLoop p [] s = s := rfl

theorem brNetrxLoop_cons (p : Nat) (c : Byte) (cs : Bytes) (s : State) :
    brNetrxLoop p (c :: cs) s = brNetrxLoop p cs (netrxByte p c s) := rfl

/-- What every byte keeps, the loop keeps. -/
theorem brNetrxLoop_keeps {P : State → Prop} {p : Nat} (step : ∀ c s, P s → P (netrxByte p c s)) :
    ∀ (cs : Bytes) (s : State), P s → P (brNetrxLoop p cs s)
  | [], _, h => h
  | c :: cs, s, h => brNetrxLoop_keeps step cs _ (step c s h)

/-- One byte: peer `p`'s two registers, and at most one record or one item. -/
theorem netrxByte_cases (p : Nat) (c : Byte) (s : State) :
    ∃ t, t = s.updPeer p (fun q => q.dlmNext s.params.maxframe c) ∧
      (netrxByte p c s = t ∨ (∃ e, netrxByte p c s = failEntry .netToRadio p e t) ∨
        ∃ item, s.queueFull = false ∧ netrxByte p c s = t.pushTx item) := by
  refine ⟨_, rfl, ?_⟩
  unfold netrxByte
  rw [dlmByte_fst]
  rcases brDelimited_cases p (dlmByte p c s).2 (s.updPeer p fun q => q.dlmNext s.params.maxframe c) with
    ⟨_, h⟩ | h | ⟨i, hq, h⟩
  · exact .inl h
  · exact .inr (.inl h)
  · exact .inr (.inr ⟨i, hq, h⟩)

theorem map_modify_eq {α β : Type} (g : α → β) (f : α → α) (h : ∀ a, g (f a) = g a) (l : List α) (n : Nat) :
    (l.modify n f).map g = l.map g := by
  apply List.ext_getElem?
  intro i
  simp only [List.getElem?_map, List.getElem?_modify]
  by_cases hi : n = i <;> cases l[i]? <;> simp [hi, h]

/-- The pieces of state no byte of BR.NETRX touches. -/
structure NetrxFrame (s t : State) : Prop where
  dialect : t.dialect = s.dialect
  appendReport : t.appendReport = s.appendReport
  run : t.run = s.run
  escp : t.escp = s.escp
  params : t.params = s.params
  radioTx : t.radioTx = s.radioTx
  result : t.result = s.result
  pending : t.pending = s.pending
  conn : t.peers.map (·.conn) = s.peers.map (·.conn)
  netTx : t.peers.map (·.netTx) = s.peers.map (·.netTx)
  log : s.log <+: t.log

theorem NetrxFrame.refl (s : State) : NetrxFrame s s := by constructor <;> simp

theorem NetrxFrame.trans {s t u : State} (h : NetrxFrame s t) (k : NetrxFrame t u) : NetrxFrame s u where
  dialect := k.dialect.trans h.dialect
  appendReport := k.appendReport.trans h.appendReport
  run := k.run.trans h.run
  escp := k.escp.trans h.escp
  params := k.params.trans h.params
  radioTx := k.radioTx.trans h.radioTx
  result := k.result.trans h.result
  pending := k.pending.trans h.pending
  conn := k.conn.trans h.conn
  netTx := k.netTx.trans h.netTx
  log := h.log.trans k.log

theorem netrxByte_frame (p : Nat) (c : Byte) (s : State) : NetrxFrame s (netrxByte p c s) := by
  obtain ⟨t, rfl, h | ⟨e, h⟩ | ⟨i, _, h⟩⟩ := netrxByte_cases p c s <;> rw [h] <;> constructor <;>
    simp <;> apply map_modify_eq <;> intro _ <;> rfl

theorem brNetrxLoop_frame (p : Nat) (cs : Bytes) (s : State) : NetrxFrame s (brNetrxLoop p cs s) :=
  brNetrxLoop_keeps (P := NetrxFrame s) (fun c t h => h.trans (netrxByte_frame p c t)) cs s (.refl s)

/-- BR.FRAME and the log know nothing of the peers. -/
theorem brDelimited_updPeer (p p' : Nat) (r : DlmResult) (f : Peer → Peer) (s : State) :
    brDelimited p r (s.updPeer p' f) = (brDelimited p r s).updPeer p' f := by
  cases r with
  | none => rfl
  | overrun => rfl
  | frame g =>
    simp only [brDelimited, brFrame]
    split
    · rfl
    · simp only [brCommand, State.queueFull, updPeer_dialect, updPeer_params, updPeer_txq]
      repeat' split
      all_goals first
        | rfl
        | (by_cases hq : s.params.qdepth = some s.txq.length <;> simp only [hq] <;> rfl)

/-- The results of several DLM.BYTE dealt with in order. -/
def brResults (p : Nat) (rs : List DlmResult) (s : State) : State := rs.foldl (fun s r => brDelimited p r s) s

theorem brResults_updPeer (p p' : Nat) (f : Peer → Peer) : ∀ (rs : List DlmResult) (s : State),
    brResults p rs (s.updPeer p' f) = (brResults p rs s).updPeer p' f
  | [], _ => rfl
  | r :: rs, s => by
    show brResults p rs (brDelimited p r (s.updPeer p' f)) = (brResults p rs (brDelimited p r s)).updPeer p' f
    rw [brDelimited_updPeer, brResults_updPeer p p' f rs]

/-- No result changes the parameters or the peers. -/
theorem brDelimited_keeps (p : Nat) (r : DlmResult) (s : State) :
    (brDelimited p r s).params = s.params ∧ (brDelimited p r s).peers = s.peers := by
  rcases brDelimited_cases p r s with ⟨_, h⟩ | ⟨e, h⟩ | ⟨i, _, h⟩ <;> rw [h] <;> exact ⟨rfl, rfl⟩

/-- DLM.BYTE reads the peers and the parameters and writes the peers: it goes past the handling of a result. -/
theorem dlmByte_brDelimited (p p' : Nat) (r : DlmResult) (c : Byte) (s : State) :
    dlmByte p c (brDelimited p' r s) = (brDelimited p' r (dlmByte p c s).1, (dlmByte p c s).2) := by
  obtain ⟨h1, h2⟩ := brDelimited_keeps p' r s
  apply Prod.ext
  · rw [dlmByte_fst, dlmByte_fst, brDelimited_updPeer, h1]
  · unfold dlmByte
    rw [h1, h2]
    dsimp only
    split <;> rfl

theorem dlmParse_brDelimited (p p' : Nat) (r : DlmResult) : ∀ (cs : Bytes) (s : State),
    dlmParse p cs (brDelimited p' r s) = (brDelimited p' r (dlmParse p cs s).1, (dlmParse p cs s).2)
  | [], _ => rfl
  | c :: cs, s => by
    rw [dlmParse_cons, dlmParse_cons, dlmByte_brDelimited]
    dsimp only
    rw [dlmParse_brDelimited p p' r cs]

/-- BR.NETRX is DLM.PARSE with its results dealt with in order. -/
theorem brNetrxLoop_eq (p : Nat) : ∀ (cs : Bytes) (s : State),
    brNetrxLoop p cs s = brResults p (dlmParse p cs s).2 (dlmParse p cs s).1
  | [], _ => rfl
  | c :: cs, s => by
    rw [brNetrxLoop_cons, brNetrxLoop_eq p cs, netrxByte, dlmParse_brDelimited, dlmParse_cons]
    dsimp only
    split
    · next h => rw [h]; rfl
    · rfl

/-- Being connected is read from the `CONN` bits alone. -/
theorem isConnected_congr {s t : State} (h : t.peers.map (·.conn) = s.peers.map (·.conn)) (p : Nat) :
    isConnected p t = isConnected p s := by
  have := congrArg (·[p]?) h
  simp only [List.getElem?_map] at this
  unfold isConnected
  cases h1 : t.peers[p]? <;> cases h2 : s.peers[p]? <;> simp_all

/-- BR.RADIORX: nothing while stopped, one record, or one frame to every connected peer. -/
theorem brRadiorx_cases (payload : Bytes) (rssi snr : Metric) (s : State) :
    (s.run = false ∧ brRadiorx payload rssi snr s = s) ∨
      (∃ e, s.run = true ∧ radioBody s payload rssi snr = .error e ∧
        brRadiorx payload rssi snr s = failEntry .radioToNet 0 e s) ∨
      (∃ body, s.run = true ∧ radioBody s payload rssi snr = .ok body ∧
        brRadiorx payload rssi snr s = s.netWriteAll (wrapBytes body)) := by
  unfold brRadiorx whenRunning
  cases hr : s.run
  · exact .inl ⟨rfl, rfl⟩
  · cases hb : radioBody s payload rssi snr with
    | error e => exact .inr (.inl ⟨e, rfl, rfl, by simp⟩)
    | ok b => exact .inr (.inr ⟨b, rfl, rfl, by simp⟩)

/-- BR.TXPOLL: nothing, or the head handed to the radio. -/
theorem brTxpoll_cases (idle : Bool) (s : State) :
    brTxpoll idle s = s ∨ (∃ item rest, s.run = true ∧ idle = true ∧ s.txq = item :: rest ∧
      brTxpoll idle s = s.popToRadio item rest) := by
  unfold brTxpoll whenRunning
  cases hr : s.run
  · exact .inl rfl
  · cases hq : s.txq with
    | nil => exact .inl (by simp)
    | cons a b =>
      cases idle
      · exact .inl (by simp)
      · exact .inr ⟨a, b, rfl, rfl, rfl, by simp⟩

end Sys2Proof.Machine
end

