-- ==== Sys2Proof/Laws/Operands.lean ====
section
/-! SUPPORT. The operand forms: splitting at a separator, trimming, decimal text, bit fields. -/

namespace Sys2Proof.Machine

/-! ## Splitting -/

theorem splitFirst_none (c : Byte) (t : Bytes) : splitFirst c t = none ↔ c ∉ t := by
  induction t with
  | nil => simp [splitFirst]
  | cons x xs ih =>
    rw [splitFirst]
    split
    · next h => simp [h]
    · next h => rw [Option.map_eq_none_iff, ih, List.mem_cons, not_or]; exact ⟨fun k => ⟨Ne.symm h, k⟩, fun k => k.2⟩

/-- The split is at the first occurrence. -/
theorem splitFirst_append (c : Byte) (pre post : Bytes) (h : c ∉ pre) :
    splitFirst c (pre ++ c :: post) = some (pre, post) := by
  induction pre with
  | nil => rw [List.nil_append, splitFirst, if_pos rfl]
  | cons x xs ih =>
    rw [List.mem_cons, not_or] at h
    rw [List.cons_append, splitFirst, if_neg (Ne.symm h.1), ih h.2]; rfl

theorem splitFirst_some (c : Byte) (t pre post : Bytes) (h : splitFirst c t = some (pre, post)) :
    t = pre ++ c :: post ∧ c ∉ pre := by
  by_cases hc : c ∈ t
  · obtain ⟨a, b, rfl, ha⟩ := List.eq_append_cons_of_mem hc
    rw [splitFirst_append _ _ _ ha] at h
    cases h
    exact ⟨rfl, ha⟩
  · rw [(splitFirst_none c t).mpr hc] at h; cases h

theorem splitAll_none (c : Byte) (t : Bytes) (h : c ∉ t) : splitAll c t = (t, []) := by
  induction t with
  | nil => rfl
  | cons x xs ih =>
    rw [List.mem_cons, not_or] at h
    simp only [splitAll, ih h.2, if_neg (Ne.symm h.1)]

theorem splitAll_append (c : Byte) (pre post : Bytes) (h : c ∉ pre) :
    splitAll c (pre ++ c :: post) = (pre, (splitAll c post).1 :: (splitAll c post).2) := by
  induction pre with
  | nil => simp only [List.nil_append, splitAll, if_true]
  | cons x xs ih =>
    rw [List.mem_cons, not_or] at h
    simp only [List.cons_append, splitAll, ih h.2, if_neg (Ne.symm h.1)]

/-- A chain written with one separator before each further token is split back into its tokens. -/
theorem splitAll_chain (c : Byte) : ∀ (t : Bytes) (ts : List Bytes), c ∉ t → (∀ u ∈ ts, c ∉ u) →
    splitAll c (t ++ ts.flatMap fun u => c :: u) = (t, ts)
  | t, [], h, _ => by simp [splitAll_none c t h]
  | t, u :: us, h, k => by
    rw [List.flatMap_cons, List.cons_append, splitAll_append c t _ h,
      splitAll_chain c u us (k u (by simp)) fun v hv => k v (by simp [hv])]

/-! ## Trimming and padding -/

theorem trimRight_spaces (k : Nat) : trimRight (List.replicate k cSpace) = [] := by
  induction k with
  | zero => rfl
  | succ k ih => rw [List.replicate_succ, trimRight, ih]; simp

/-- What does not end in a space is what is left when spaces follow it. -/
theorem trimRight_append (t : Bytes) (k : Nat) (h : t.getLast? ≠ some cSpace) :
    trimRight (t ++ List.replicate k cSpace) = t := by
  induction t with
  | nil => rw [List.nil_append, trimRight_spaces]
  | cons c cs ih =>
    rw [List.cons_append, trimRight]
    cases cs with
    | nil =>
      rw [List.nil_append, trimRight_spaces]
      have hc : ¬c = cSpace := fun hc => h (by rw [hc]; rfl)
      exact if_neg fun hk => hc hk.2
    | cons d ds =>
      have := ih (by rwa [List.getLast?_cons_cons] at h)
      rw [this]
      exact if_neg fun hk => by cases hk.1

theorem trimRight_last (t : Bytes) : (trimRight t).getLast? ≠ some cSpace := by
  induction t with
  | nil => simp [trimRight]
  | cons c cs ih =>
    rw [trimRight]
    split
    · simp
    · next h =>
      cases ht : trimRight cs with
      | nil =>
        rw [ht] at h
        intro hc
        exact h ⟨rfl, by simpa using hc⟩
      | cons d ds => rw [List.getLast?_cons_cons, ← ht]; exact ih

/-- What trimming takes away is spaces. -/
theorem trimRight_eq (t : Bytes) : ∃ k, t = trimRight t ++ List.replicate k cSpace := by
  induction t with
  | nil => exact ⟨0, rfl⟩
  | cons c cs ih =>
    obtain ⟨k, hk⟩ := ih
    rw [trimRight]
    split
    · next h =>
      refine ⟨k + 1, ?_⟩
      rw [h.1, List.nil_append] at hk
      rw [h.2, hk, List.nil_append, List.replicate_succ]
    · exact ⟨k, by rw [List.cons_append, ← hk]⟩

theorem padCall_length (call : Bytes) (h : call.length ≤ 6) : (padCall call).length = 6 := by
  simp [padCall]; omega

/-! ## Text -/

theorem stripStar_star (t : Bytes) : stripStar (t ++ [cStar]) = (true, t) := by
  unfold stripStar
  rw [if_pos List.getLast?_concat, List.dropLast_concat]

theorem stripStar_none (t : Bytes) (h : t.getLast? ≠ some cStar) : stripStar t = (false, t) := if_neg h

/-- The texts of the sixteen SSID values. -/
theorem ssidOfText_dec (v : BitVec 4) : ssidOfText (dec v.toNat) = some v := by revert v; decide

theorem star_notMem_dec (v : BitVec 4) : cStar ∉ dec v.toNat := by revert v; decide

theorem comma_notMem_dec (v : BitVec 4) : cComma ∉ dec v.toNat := by revert v; decide

theorem colon_notMem_dec (v : BitVec 4) : cColon ∉ dec v.toNat := by revert v; decide

theorem gt_notMem_dec (v : BitVec 4) : cGt ∉ dec v.toNat := by revert v; decide

/-! ## Bit fields -/

theorem charOfWire_wireOfChar (c : Byte) (h : c ≤ 0x7F) : charOfWire (wireOfChar c) = c := by
  revert c; decide

theorem ssidWire_fields (h : Bool) (v : BitVec 4) (x : Bool) :
    ssidOfWire (ssidWire h v x) = v ∧ extOfWire (ssidWire h v x) = x ∧
      hrrOfWire (ssidWire h v x) = (if h then 0b111 else 0b011) := by
  revert h v x; decide

end Sys2Proof.Machine
end

