-- ==== Sys2Proof/Laws/Codec.lean ====
section
/-! SUPPORT. What the codecs' operations give, one lemma for each outcome, and how a result is read off `Returns`. -/

namespace Sys2Proof.Machine

/-! ## Results -/

/-- A meaning that only sets the result register returns exactly that result. -/
theorem next_setResult_iff {s : State} {a b : OpResult} :
    ((.next (s.setResult a) : Host.Outcome State Fault Refusal) = .next { s with result := b }) ↔ a = b := by
  constructor
  · intro h
    injection h with h
    exact congrArg State.result h
  · rintro rfl
    rfl

theorem outcome_ok_iff {α : Type} {mk : α → Value} {x : Result α} {v : Value} :
    outcome mk x = .ok v ↔ ∃ a, x = .ok a ∧ mk a = v := by
  cases x <;> simp [outcome]

theorem outcome_fail_iff {α : Type} {mk : α → Value} {x : Result α} {e : Failure} :
    outcome mk x = .fail e ↔ x = .error e := by
  cases x <;> simp [outcome]

/-! ## Addresses -/

/-- Every character at most `0x7F`: the six wire bytes. -/
theorem packCall_ok (call : Bytes) (h : ∀ c ∈ call, c.toNat ≤ 0x7F) :
    packCall call = .ok ((padCall call).map wireOfChar) := by
  unfold packCall
  rw [List.find?_eq_none.2]
  intro c hc
  simp only [padCall, List.mem_append, List.mem_replicate] at hc
  rcases hc with hc | ⟨_, rfl⟩
  · have := h c hc
    simp only [decide_eq_true_eq, BitVec.not_lt, BitVec.le_def]
    exact this
  · decide

/-- The first character above `0x7F` is the one reported. -/
theorem packCall_bad (pre post : Bytes) (c : Byte) (h : ∀ b ∈ pre, b.toNat ≤ 0x7F) (hc : 0x7F < c.toNat) :
    packCall (pre ++ c :: post) = .error (badCallChar c) := by
  have : (padCall (pre ++ c :: post)).find? (fun c => decide (0x7F < c)) = some c := by
    rw [List.find?_eq_some_iff_append]
    refine ⟨by rw [decide_eq_true_eq, BitVec.lt_def]; exact hc, pre,
      post ++ List.replicate (6 - (pre ++ c :: post).length) cSpace, by simp [padCall], fun x hx => ?_⟩
    have := h x hx
    simp only [Bool.not_eq_true', decide_eq_false_iff_not, BitVec.not_lt, BitVec.le_def]
    exact this
  rw [packCall, this]

theorem addrPack_ok (a : Addr) (isFinal : Bool) (hl : a.call.length ≤ 6) (h : ∀ c ∈ a.call, c.toNat ≤ 0x7F) :
    addrPack a isFinal = .ok ((padCall a.call).map wireOfChar ++ [ssidWire a.h a.ssid isFinal]) := by
  rw [addrPack, if_neg (by omega), packCall_ok _ h]
  rfl

/-- ADDR.PACK writes 7 bytes, the last one the SSID byte. -/
theorem addrPack_shape {a : Addr} {isFinal : Bool} {b : Bytes} (h : addrPack a isFinal = .ok b) :
    b.length = 7 ∧ b[6]? = some (ssidWire a.h a.ssid isFinal) := by
  unfold addrPack at h
  split at h
  · cases h
  · next hl =>
    have hp := padCall_length _ (Nat.le_of_not_lt hl)
    unfold packCall at h
    split at h
    · cases h
    · cases h
      exact ⟨by simp [hp], by rw [List.getElem?_append_right (by simp [hp])]; simp [hp]⟩

/-- ADDR.UNPACK of the 7 bytes that stand at its offset. -/
theorem addrUnpack_at (pre a post : Bytes) (ha : a.length = 7) :
    addrUnpack (pre ++ a ++ post) pre.length = .ok ⟨trimRight ((a.take 6).map charOfWire), ssidOfWire (a.getD 6 0),
      hrrOfWire (a.getD 6 0), extOfWire (a.getD 6 0)⟩ := by
  have : memRead (pre ++ a ++ post) pre.length 7 = a := by
    rw [memRead, List.append_assoc, List.drop_left, ← ha, List.take_left]
  rw [addrUnpack, if_neg (by simp; omega), this]

theorem addrUnpack_short (b : Bytes) (off : Nat) (h : b.length < off + 7) : addrUnpack b off = .error shortAddress := by
  rw [addrUnpack, if_pos (by omega)]

/-- The token without `-`. -/
theorem splitSsid_none (t : Bytes) (h : cDash ∉ t) : splitSsid t = .ok (t, 0) := by
  rw [splitSsid, (splitFirst_none _ _).2 h]

/-- The token split at its first `-`. -/
theorem splitSsid_dash (call text : Bytes) (h : cDash ∉ call) :
    splitSsid (call ++ cDash :: text) =
      match ssidOfText text with
      | none => .error badSsidText
      | some ssid => .ok (call, ssid) := by
  rw [splitSsid, splitFirst_append _ _ _ h] <;> rfl

theorem upper_length (b : Bytes) : (upper b).length = b.length := by simp [upper]

/-- ADDR.PARSE after its SSID text was good. -/
theorem addrParse_eq (fold : Bool) (t : Bytes) (h : Bool) (u call : Bytes) (v : BitVec 4) (h1 : stripStar t = (h, u))
    (h2 : splitSsid u = .ok (call, v)) :
    addrParse fold t =
      if 1 ≤ call.length ∧ call.length ≤ 6 then .ok ⟨if fold then upper call else call, v, h⟩
      else .error badCallText := by
  unfold addrParse
  rw [h1]
  dsimp only
  rw [h2]
  dsimp only
  have : (if fold = true then upper call else call).length = call.length := by cases fold <;> simp [upper_length]
  rw [this]
  by_cases g : 1 ≤ call.length ∧ call.length ≤ 6
  · rw [if_pos g, if_neg (by omega)]
  · rw [if_neg g, if_pos (by omega)]

/-! ## Link frames -/

/-- The end of LF.DECB, by the class of the control byte. -/
theorem decbControl_cons (c : Byte) (rest : Bytes) :
    decbControl (c :: rest) =
      if ctrlClass c = 0b11 then
        match rest with
        | [] => .error noPid
        | pid :: info => .ok (c, pid, info)
      else if ctrlClass c = 0b01 then .error supervisory
      else .error numbered := rfl

/-- What LF.ENCB gives is the packed addresses, then the two constants and the payload. -/
theorem lfEncb_ok {f : LinkFrame} {out : Bytes} (h : lfEncb f = .ok out) :
    ∃ d r g, addrPack f.dst false = .ok d ∧ addrPack f.src f.digis.isEmpty = .ok r ∧ packDigis f.digis = .ok g ∧
      out = d ++ r ++ g ++ encbTail f.info := by
  unfold lfEncb at h
  split at h
  · cases h
  · split at h
    · cases h
    · next hd _ _ hr =>
      cases hg : packDigis f.digis with
      | error e => rw [hg] at h; cases h
      | ok g =>
        rw [hg] at h
        cases h
        exact ⟨_, _, g, hd, hr, rfl, rfl⟩

/-- LF.DECP of a sequence put together from its tokens. -/
theorem lfDecp_tokens (fold : Bool) (src dst : Bytes) (digis : List Bytes) (info : Bytes) (hs : cGt ∉ src ∧ cColon ∉ src)
    (ht : ∀ t ∈ dst :: digis, cComma ∉ t ∧ cColon ∉ t) :
    lfDecp fold (src ++ cGt :: dst ++ digis.flatMap (fun t => cComma :: t) ++ cColon :: info) =
      match addrParse fold src with
      | .error e => .error e
      | .ok src =>
        match addrParse fold dst with
        | .error e => .error e
        | .ok dst =>
          (parseTokens fold digis).map fun digis => ⟨dst, src, digis, cCtlUi, cPidNol3, info⟩ := by
  rw [lfDecp, splitFirst_append]
  · dsimp only
    rw [List.append_assoc, List.cons_append, splitFirst_append _ _ _ hs.1]
    dsimp only
    rw [splitAll_chain _ _ _ (ht dst (by simp)).1 (fun u hu => (ht u (by simp [hu])).1)] <;> rfl
  · simp only [List.mem_append, List.mem_cons, List.mem_flatMap, not_or, not_exists, not_and]
    exact ⟨⟨hs.2, by decide, (ht dst (by simp)).2⟩, fun u hu => ⟨by decide, (ht u (by simp [hu])).2⟩⟩

end Sys2Proof.Machine
end

