-- ==== Sys2Proof/Laws/Effects.lean ====
section
/-! SUPPORT. What an instruction can do to a state, said once: the eleven kinds of effect, and the theorem that every
instruction has one of them. -/

namespace Sys2Proof.Machine

/-- One byte at the delimiter of peer `p`, or several: a write to its two registers. -/
def IsDelimiterInstr (p : Nat) : Instr → Prop
  | .dlmByte p' _ | .dlmParse p' _ | .dlmReset p' => p' = p
  | .mark site | .escb site | .subm site | .sube site | .data site _ => site = .delimiter p
  | _ => False

/-- A transport byte at the serial form of UNESC. -/
def IsUnescByte : Instr → Prop
  | .mark site | .escb site | .subm site | .sube site | .data site _ => ∃ first last, site = .unesc first last
  | _ => False

/-- BR.FRAME, or the command byte it meets. -/
def IsFrameInstr (p : Nat) : Instr → Prop
  | .brFrame p' _ | .cmdData (.frame p' _) | .cmdOther p' _ _ => p' = p
  | _ => False

/-- The kinds of effect: `Effect i s t` says that `t` is `s` after an effect instruction `i` can have. -/
inductive Effect (i : Instr) (s : State) : State → Prop
  | result (r : OpResult) (h : isPure i = true) : Effect i s (s.setResult r)
  | nothing (h : isEvent i = true) (hr : ∀ d a, i ≠ .brReset d a) : Effect i s s
  | reset (d : Dialect) (a : Bool) (h : i = .brReset d a) : Effect i s (brReset d a s)
  | connection (p : Nat) (c : Bool) (hr : s.run = true) (h : i = .brConn p ∧ c = true ∨ i = .brDisc p ∧ c = false) :
      Effect i s (s.updPeer p fun q => { q.dlmReset with conn := c })
  | chunk (p : Nat) (cs : Bytes) (hr : s.run = true) (hc : isConnected p s = true) (h : i = .brNetrx p cs) :
      Effect i s (brNetrxLoop p cs s)
  | logged (d : Direction) (p : Nat) (e : Failure)
      (h : (d = .radioToNet ∧ p = 0 ∧ s.run = true ∧ ∃ b r n, i = .brRadiorx b r n) ∨
        (d = .netToRadio ∧ IsFrameInstr p i)) :
      Effect i s (failEntry d p e s)
  | pushed (item : Bytes) (hq : s.queueFull = false) (p : Nat) (h : IsFrameInstr p i)
      (ho : ∀ c b, i.wf = true → i ≠ .cmdOther p c b) : Effect i s (s.pushTx item)
  | written (body : Bytes) (hr : s.run = true) (b : Bytes) (r n : Metric) (h : i = .brRadiorx b r n) :
      Effect i s (s.netWriteAll (wrapBytes body))
  | sent (item : Bytes) (rest : List Bytes) (hr : s.run = true) (hq : s.txq = item :: rest) (h : i = .brTxpoll true) :
      Effect i s (s.popToRadio item rest)
  | stopped (hr : s.run = true) (h : i = .brStop) : Effect i s s.stop
  | delimiter (p : Nat) (f : Peer → Peer) (r : OpResult) (hf : ∀ q, (f q).conn = q.conn ∧ (f q).netTx = q.netTx)
      (h : IsDelimiterInstr p i) : Effect i s ((s.updPeer p f).setResult r)
  | serial (e : Bool) (r : OpResult) (h : IsUnescByte i) : Effect i s (s.setEscp e r)

/-- DLM.PARSE is a write to the two registers of peer `p`. -/
theorem dlmParse_write (p : Nat) : ∀ (c : Bytes) (s : State), ∃ f : Peer → Peer,
    (∀ q, (f q).conn = q.conn ∧ (f q).netTx = q.netTx) ∧ (dlmParse p c s).1 = s.updPeer p f
  | [], s => ⟨id, fun _ => ⟨rfl, rfl⟩, by simp [dlmParse_nil, State.updPeer, List.modify_id]⟩
  | c :: cs, s => by
    obtain ⟨f, hf, h⟩ := dlmParse_write p cs (dlmByte p c s).1
    refine ⟨f ∘ (fun q => q.dlmNext s.params.maxframe c), fun q => ⟨?_, ?_⟩, ?_⟩
    · rw [Function.comp, (hf _).1]; rfl
    · rw [Function.comp, (hf _).2]; rfl
    · rw [dlmParse_cons, h, dlmByte_fst, updPeer_updPeer]

theorem effect_transportByte (i : Instr) (s : State) (site : TSite) (c : Byte)
    (hd : ∀ p, site = .delimiter p → IsDelimiterInstr p i) (hu : ∀ f l, site = .unesc f l → IsUnescByte i)
    (hp : site = .esc → isPure i = true) : Effect i s (transportByte site c s) := by
  cases site with
  | delimiter p =>
    unfold transportByte
    dsimp only
    rw [dlmByte_fst]
    exact .delimiter p _ _ (fun q => ⟨rfl, rfl⟩) (hd p rfl)
  | esc => exact .result _ (hp rfl)
  | unesc f l =>
    unfold transportByte
    dsimp only
    split
    · exact .serial _ _ (hu f l rfl)
    · exact .serial _ _ (hu f l rfl)

theorem effect_brCommand (i : Instr) (s : State) (p : Nat) (c : Byte) (b : Bytes) (h : IsFrameInstr p i)
    (ho : c = cCmdData → ∀ c b, i.wf = true → i ≠ .cmdOther p c b) : Effect i s (brCommand p c b s) := by
  rcases brCommand_cases p c b s with ⟨e, h'⟩ | ⟨item, hq, hc, h'⟩ <;> rw [h']
  · exact .logged _ _ _ (.inr ⟨rfl, h⟩)
  · exact .pushed item hq p h (ho hc)

/-- Every instruction ends in a next state, and it has one of the effects. -/
theorem exec_effect (i : Instr) (s : State) : ∃ t, exec i s = .next t ∧ Effect i s t := by
  cases i with
  | brReset d a => exact ⟨_, rfl, .reset d a rfl⟩
  | brConn p =>
    refine ⟨_, rfl, ?_⟩
    unfold brConn whenRunning
    split
    · exact .connection p true ‹_› (.inl ⟨rfl, rfl⟩)
    · exact .nothing rfl (by simp)
  | brDisc p =>
    refine ⟨_, rfl, ?_⟩
    unfold brDisc whenRunning
    split
    · exact .connection p false ‹_› (.inr ⟨rfl, rfl⟩)
    · exact .nothing rfl (by simp)
  | brNetrx p c =>
    refine ⟨_, rfl, ?_⟩
    unfold brNetrx whenRunning
    split
    · split
      · exact .chunk p c ‹_› ‹_› rfl
      · exact .nothing rfl (by simp)
    · exact .nothing rfl (by simp)
  | brRadiorx b r n =>
    refine ⟨_, rfl, ?_⟩
    rcases brRadiorx_cases b r n s with ⟨_, h⟩ | ⟨e, hr, _, h⟩ | ⟨body, hr, _, h⟩ <;> rw [h]
    · exact .nothing rfl (by simp)
    · exact .logged _ _ _ (.inl ⟨rfl, rfl, hr, b, r, n, rfl⟩)
    · exact .written body hr b r n rfl
  | brTxpoll idle =>
    refine ⟨_, rfl, ?_⟩
    rcases brTxpoll_cases idle s with h | ⟨item, rest, hr, rfl, hq, h⟩ <;> rw [h]
    · exact .nothing rfl (by simp)
    · exact .sent item rest hr hq rfl
  | brStop =>
    refine ⟨_, rfl, ?_⟩
    unfold brStop whenRunning
    split
    · exact .stopped ‹_› rfl
    · exact .nothing rfl (by simp)
  | brFrame p f =>
    refine ⟨_, rfl, ?_⟩
    rcases brFrame_cases p f s with ⟨e, h⟩ | ⟨item, hq, h⟩ <;> rw [h]
    · exact .logged _ _ _ (.inr ⟨rfl, rfl⟩)
    · exact .pushed item hq p rfl (by simp)
  | dlmByte p c =>
    refine ⟨_, rfl, ?_⟩
    rw [dlmByte_fst]
    exact .delimiter p _ _ (fun q => ⟨rfl, rfl⟩) rfl
  | dlmParse p c =>
    refine ⟨_, rfl, ?_⟩
    obtain ⟨f, hf, h⟩ := dlmParse_write p c s
    rw [h]
    exact .delimiter p f _ hf rfl
  | dlmReset p => exact ⟨_, rfl, .delimiter p _ _ (fun q => ⟨rfl, rfl⟩) rfl⟩
  | mark site =>
    exact ⟨_, rfl, effect_transportByte _ s site _ (fun p h => h) (fun f l h => ⟨f, l, h⟩) (fun h => by subst h; rfl)⟩
  | escb site =>
    exact ⟨_, rfl, effect_transportByte _ s site _ (fun p h => h) (fun f l h => ⟨f, l, h⟩) (fun h => by subst h; rfl)⟩
  | subm site =>
    exact ⟨_, rfl, effect_transportByte _ s site _ (fun p h => h) (fun f l h => ⟨f, l, h⟩) (fun h => by subst h; rfl)⟩
  | sube site =>
    exact ⟨_, rfl, effect_transportByte _ s site _ (fun p h => h) (fun f l h => ⟨f, l, h⟩) (fun h => by subst h; rfl)⟩
  | data site d =>
    exact ⟨_, rfl, effect_transportByte _ s site _ (fun p h => h) (fun f l h => ⟨f, l, h⟩) (fun h => by subst h; rfl)⟩
  | cmdData use =>
    cases use with
    | frame p b => exact ⟨_, rfl, effect_brCommand _ s p _ b rfl (fun _ => by simp)⟩
    | wrap b => exact ⟨_, rfl, .result _ rfl⟩
  | cmdOther p c b =>
    refine ⟨_, rfl, effect_brCommand _ s p c b rfl ?_⟩
    rintro rfl _ _ hw
    simp [Instr.wf] at hw
  | escpMark use => cases use <;> exact ⟨_, rfl, .result _ rfl⟩
  | escpEsc use => cases use <;> exact ⟨_, rfl, .result _ rfl⟩
  | pidNol3 use => cases use <;> exact ⟨_, rfl, .result _ rfl⟩
  | _ => exact ⟨_, rfl, .result _ rfl⟩

end Sys2Proof.Machine
end

