-- ==== Sys2Proof/Laws/PerInstr.lean ====
section
/-! SUPPORT. One statement about every instruction as syntax: its word has the width, and at the masked bits the value, of
its row of spec/opcode_table.json. -/

namespace Sys2Proof.Laws

/-- A row of spec/opcode_table.json: the format its word is read in, its width in bits, the bits it fixes (`mask`) and
their value. -/
structure Row where
  port : Port
  width : Nat
  mask : Nat
  value : Nat
  deriving DecidableEq, Repr

/-- The table. The `match` and `mask` of ADDR.CALLBYTE and ADDR.SSIDBYTE "apply to packing only", and for PID.NOL3 "on decode
any value is accepted and not examined"; ESCP.BAD is one byte where
`0xDB` is followed "by nothing". A row whose class is an exclusion (DATA, CMD.OTHER) fixes no bit. -/
def rowOf : Instr → Row
  | .brReset _ _ => ⟨.event, 8, 0xFF, 0x00⟩
  | .brConn _ => ⟨.event, 8, 0xFF, 0x01⟩
  | .brDisc _ => ⟨.event, 8, 0xFF, 0x02⟩
  | .brNetrx _ _ => ⟨.event, 8, 0xFF, 0x03⟩
  | .brRadiorx _ _ _ => ⟨.event, 8, 0xFF, 0x04⟩
  | .brTxpoll _ => ⟨.event, 8, 0xFF, 0x05⟩
  | .brStop => ⟨.event, 8, 0xFF, 0x06⟩
  | .brFrame _ _ => ⟨.call, 8, 0xFF, 0x07⟩
  | .esc _ => ⟨.call, 8, 0xFF, 0x10⟩
  | .unesc _ => ⟨.call, 8, 0xFF, 0x11⟩
  | .dlmByte _ _ => ⟨.call, 8, 0xFF, 0x20⟩
  | .dlmParse _ _ => ⟨.call, 8, 0xFF, 0x21⟩
  | .dlmReset _ => ⟨.call, 8, 0xFF, 0x22⟩
  | .wrap _ => ⟨.call, 8, 0xFF, 0x23⟩
  | .unwrap _ => ⟨.call, 8, 0xFF, 0x24⟩
  | .addrUnpack _ _ => ⟨.call, 8, 0xFF, 0x30⟩
  | .addrFmt _ _ => ⟨.call, 8, 0xFF, 0x31⟩
  | .addrDec _ _ => ⟨.call, 8, 0xFF, 0x32⟩
  | .addrParse _ => ⟨.call, 8, 0xFF, 0x33⟩
  | .addrPack _ _ => ⟨.call, 8, 0xFF, 0x34⟩
  | .addrEnc _ _ => ⟨.call, 8, 0xFF, 0x35⟩
  | .lfDecb _ => ⟨.call, 8, 0xFF, 0x40⟩
  | .lfDecp _ => ⟨.call, 8, 0xFF, 0x41⟩
  | .lfEncb _ => ⟨.call, 8, 0xFF, 0x42⟩
  | .lfEncp _ => ⟨.call, 8, 0xFF, 0x43⟩
  | .lfInj _ _ _ => ⟨.call, 8, 0xFF, 0x44⟩
  | .mark _ => ⟨.tbyte, 8, 0xFF, 0xC0⟩
  | .escb _ => ⟨.tbyte, 8, 0xFF, 0xDB⟩
  | .subm _ => ⟨.tbyte, 8, 0xFF, 0xDC⟩
  | .sube _ => ⟨.tbyte, 8, 0xFF, 0xDD⟩
  | .data _ _ => ⟨.tbyte, 8, 0x00, 0x00⟩
  | .escpMark _ => ⟨.tbyte2, 16, 0xFFFF, 0xDBDC⟩
  | .escpEsc _ => ⟨.tbyte2, 16, 0xFFFF, 0xDBDD⟩
  | .escpBad [] => ⟨.tbyte2, 8, 0xFF, 0xDB⟩
  | .escpBad (_ :: _) => ⟨.tbyte2, 16, 0xFF00, 0xDB00⟩
  | .cmdData _ => ⟨.cmd, 8, 0xFF, 0x00⟩
  | .cmdOther _ _ _ => ⟨.cmd, 8, 0x00, 0x00⟩
  | .addrCallbyte .pack _ _ => ⟨.addrCall, 8, 0x01, 0x00⟩
  | .addrCallbyte .unpack _ _ => ⟨.addrCall, 8, 0x00, 0x00⟩
  | .addrSsidbyte .pack _ _ _ _ => ⟨.addrSsid, 8, 0x60, 0x60⟩
  | .addrSsidbyte .unpack _ _ _ _ => ⟨.addrSsid, 8, 0x00, 0x00⟩
  | .ctlU _ _ => ⟨.ctrl, 8, 0x03, 0x03⟩
  | .ctlS _ _ => ⟨.ctrl, 8, 0x03, 0x01⟩
  | .ctlI _ _ => ⟨.ctrl, 8, 0x01, 0x00⟩
  | .ctlUi _ => ⟨.ctrlConst, 8, 0xFF, 0x03⟩
  | .pidNol3 (.decb _ _) => ⟨.pid, 8, 0x00, 0x00⟩
  | .pidNol3 (.encb _) | .pidNol3 .decp => ⟨.pid, 8, 0xFF, 0xF0⟩
  | .pGt _ _ => ⟨.pchar, 8, 0xFF, 0x3E⟩
  | .pComma _ _ => ⟨.pchar, 8, 0xFF, 0x2C⟩
  | .pColon _ => ⟨.pchar, 8, 0xFF, 0x3A⟩
  | .pStar _ _ => ⟨.pchar, 8, 0xFF, 0x2A⟩
  | .pDash _ _ => ⟨.pchar, 8, 0xFF, 0x2D⟩
  | .pSpace _ => ⟨.pchar, 8, 0xFF, 0x20⟩
  | .pNl _ _ _ _ => ⟨.pchar, 8, 0xFF, 0x0A⟩
  | .pDigit _ _ _ => ⟨.pchar, 8, 0xF0, 0x30⟩

/-- The code bytes as one number, the first byte highest, as the table writes its 16-bit patterns. -/
def codeValue (code : Bytes) : Nat := code.foldl (fun n b => n * 256 + b.toNat) 0

namespace TableRow

/-- A well-formed instruction's word is a word of its row. -/
def Statement (i : Instr) : Prop :=
  i.wf = true → (encode i).port = (rowOf i).port ∧ (encode i).code.length * 8 = (rowOf i).width ∧
    codeValue (encode i).code &&& (rowOf i).mask = (rowOf i).value

/-- A row that fixes its one byte. -/
theorem of_byte {i : Instr} (port : Port) (b : Byte) (hp : (encode i).port = port) (hc : (encode i).code = [b])
    (hr : rowOf i = ⟨port, 8, 0xFF, b.toNat⟩) : Statement i := by
  have key : ∀ b : Byte, codeValue [b] &&& 0xFF = b.toNat := by decide
  intro _
  rw [hr, hc]
  exact ⟨hp, rfl, key b⟩

/-- An escape pair. -/
theorem of_pair {i : Instr} (b : Byte) (hp : (encode i).port = .tbyte2) (hc : (encode i).code = [0xDB, b])
    (hr : rowOf i = ⟨.tbyte2, 16, 0xFFFF, 0xDB00 + b.toNat⟩) : Statement i := by
  have key : ∀ b : Byte, codeValue [0xDB, b] &&& 0xFFFF = 0xDB00 + b.toNat := by decide
  intro _
  rw [hr, hc]
  exact ⟨hp, rfl, key b⟩

theorem brReset (cfgDialect : Dialect) (cfgAppendReport : Bool) : Statement (.brReset cfgDialect cfgAppendReport) :=
  of_byte .event 0x00 rfl rfl rfl

theorem brConn (p : Nat) : Statement (.brConn p) := of_byte .event 0x01 rfl rfl rfl

theorem brDisc (p : Nat) : Statement (.brDisc p) := of_byte .event 0x02 rfl rfl rfl

theorem brNetrx (p : Nat) (chunk : Bytes) : Statement (.brNetrx p chunk) := of_byte .event 0x03 rfl rfl rfl

theorem brRadiorx (payload : Bytes) (rssi snr : Metric) : Statement (.brRadiorx payload rssi snr) :=
  of_byte .event 0x04 rfl rfl rfl

theorem brTxpoll (channelIdle : Bool) : Statement (.brTxpoll channelIdle) := of_byte .event 0x05 rfl rfl rfl

theorem brStop : Statement .brStop := of_byte .event 0x06 rfl rfl rfl

theorem brFrame (p : Nat) (f : Bytes) : Statement (.brFrame p f) := of_byte .call 0x07 rfl rfl rfl

theorem esc (b : Bytes) : Statement (.esc b) := of_byte .call 0x10 rfl rfl rfl

theorem unesc (e : Bytes) : Statement (.unesc e) := of_byte .call 0x11 rfl rfl rfl

theorem dlmByte (p : Nat) (c : Byte) : Statement (.dlmByte p c) := of_byte .call 0x20 rfl rfl rfl

theorem dlmParse (p : Nat) (chunk : Bytes) : Statement (.dlmParse p chunk) := of_byte .call 0x21 rfl rfl rfl

theorem dlmReset (p : Nat) : Statement (.dlmReset p) := of_byte .call 0x22 rfl rfl rfl

theorem wrap (body : Bytes) : Statement (.wrap body) := of_byte .call 0x23 rfl rfl rfl

theorem unwrap (f : Bytes) : Statement (.unwrap f) := of_byte .call 0x24 rfl rfl rfl

theorem addrUnpack (b : Bytes) (off : Nat) : Statement (.addrUnpack b off) := of_byte .call 0x30 rfl rfl rfl

theorem addrFmt (call : Bytes) (ssid : BitVec 4) : Statement (.addrFmt call ssid) := of_byte .call 0x31 rfl rfl rfl

theorem addrDec (b : Bytes) (off : Nat) : Statement (.addrDec b off) := of_byte .call 0x32 rfl rfl rfl

theorem addrParse (t : Bytes) : Statement (.addrParse t) := of_byte .call 0x33 rfl rfl rfl

theorem addrPack (a : Addr) (isFinal : Bool) : Statement (.addrPack a isFinal) := of_byte .call 0x34 rfl rfl rfl

theorem addrEnc (t : Bytes) (isFinal : Bool) : Statement (.addrEnc t isFinal) := of_byte .call 0x35 rfl rfl rfl

theorem lfDecb (b : Bytes) : Statement (.lfDecb b) := of_byte .call 0x40 rfl rfl rfl

theorem lfDecp (t : Bytes) : Statement (.lfDecp t) := of_byte .call 0x41 rfl rfl rfl

theorem lfEncb (f : LinkFrame) : Statement (.lfEncb f) := of_byte .call 0x42 rfl rfl rfl

theorem lfEncp (f : LinkFrame) : Statement (.lfEncp f) := of_byte .call 0x43 rfl rfl rfl

theorem lfInj (f : LinkFrame) (rssi snr : Metric) : Statement (.lfInj f rssi snr) := of_byte .call 0x44 rfl rfl rfl

theorem mark (site : TSite) : Statement (.mark site) := by cases site <;> exact of_byte .tbyte 0xC0 rfl rfl rfl

theorem escb (site : TSite) : Statement (.escb site) := by cases site <;> exact of_byte .tbyte 0xDB rfl rfl rfl

theorem subm (site : TSite) : Statement (.subm site) := by cases site <;> exact of_byte .tbyte 0xDC rfl rfl rfl

theorem sube (site : TSite) : Statement (.sube site) := by cases site <;> exact of_byte .tbyte 0xDD rfl rfl rfl

theorem data (site : TSite) (d : Byte) : Statement (.data site d) := by
  cases site <;> exact fun _ => ⟨rfl, rfl, Nat.and_zero _⟩

theorem escpMark (use : PairUse) : Statement (.escpMark use) := by cases use <;> exact of_pair 0xDC rfl rfl rfl

theorem escpEsc (use : PairUse) : Statement (.escpEsc use) := by cases use <;> exact of_pair 0xDD rfl rfl rfl

theorem escpBad (tail : Bytes) : Statement (.escpBad tail) := by
  cases tail with
  | nil => exact of_byte .tbyte2 0xDB rfl rfl rfl
  | cons d rest =>
    have key : ∀ d : Byte, codeValue [0xDB, d] &&& 0xFF00 = 0xDB00 := by decide
    exact fun _ => ⟨rfl, rfl, key d⟩

theorem cmdData (use : CmdUse) : Statement (.cmdData use) := by cases use <;> exact of_byte .cmd 0x00 rfl rfl rfl

theorem cmdOther (p : Nat) (cmd : Byte) (body : Bytes) : Statement (.cmdOther p cmd body) :=
  fun _ => ⟨rfl, rfl, Nat.and_zero _⟩

theorem addrCallbyte (use : AddrUse) (c : BitVec 7) (low : Bool) : Statement (.addrCallbyte use c low) := by
  cases use with
  | unpack => exact fun _ => ⟨rfl, rfl, Nat.and_zero _⟩
  | pack =>
    have key : ∀ (c : BitVec 7), codeValue [Machine.callbyteWire c false] &&& 0x01 = 0x00 := by decide
    intro h
    cases low with
    | false => exact ⟨rfl, rfl, key c⟩
    | true => cases h

theorem addrSsidbyte (use : AddrUse) (h : Bool) (rr : BitVec 2) (ssid : BitVec 4) (x : Bool) :
    Statement (.addrSsidbyte use h rr ssid x) := by
  cases use with
  | unpack => exact fun _ => ⟨rfl, rfl, Nat.and_zero _⟩
  | pack =>
    have key : ∀ (h : Bool) (ssid : BitVec 4) (x : Bool),
        codeValue [Machine.ssidbyteWire h 0b11 ssid x] &&& 0x60 = 0x60 := by decide
    intro hw
    have : rr = 0b11 := by simpa [Instr.wf] using hw
    subst this
    exact ⟨rfl, rfl, key h ssid x⟩

theorem ctlU (hi : BitVec 6) (rest : Bytes) : Statement (.ctlU hi rest) := by
  have key : ∀ hi : BitVec 6, codeValue [Machine.ctlUWire hi] &&& 0x03 = 0x03 := by decide
  exact fun _ => ⟨rfl, rfl, key hi⟩

theorem ctlS (hi : BitVec 6) (rest : Bytes) : Statement (.ctlS hi rest) := by
  have key : ∀ hi : BitVec 6, codeValue [Machine.ctlSWire hi] &&& 0x03 = 0x01 := by decide
  exact fun _ => ⟨rfl, rfl, key hi⟩

theorem ctlI (hi : BitVec 7) (rest : Bytes) : Statement (.ctlI hi rest) := by
  have key : ∀ hi : BitVec 7, codeValue [Machine.ctlIWire hi] &&& 0x01 = 0x00 := by decide
  exact fun _ => ⟨rfl, rfl, key hi⟩

theorem ctlUi (use : CtlUiUse) : Statement (.ctlUi use) := by cases use <;> exact of_byte .ctrlConst 0x03 rfl rfl rfl

theorem pidNol3 (use : PidUse) : Statement (.pidNol3 use) := by
  cases use with
  | decb pid info =>
    have key : ∀ b : Byte, codeValue [b] &&& 0x00 = 0 := by decide
    exact fun _ => ⟨rfl, rfl, key pid⟩
  | encb info => exact of_byte .pid 0xF0 rfl rfl rfl
  | decp => exact of_byte .pid 0xF0 rfl rfl rfl

theorem pGt (before after : Bytes) : Statement (.pGt before after) := of_byte .pchar 0x3E rfl rfl rfl

theorem pComma (before after : Bytes) : Statement (.pComma before after) := of_byte .pchar 0x2C rfl rfl rfl

theorem pColon (use : ColonUse) : Statement (.pColon use) := by cases use <;> exact of_byte .pchar 0x3A rfl rfl rfl

theorem pStar (before after : Bytes) : Statement (.pStar before after) := of_byte .pchar 0x2A rfl rfl rfl

theorem pDash (before after : Bytes) : Statement (.pDash before after) := of_byte .pchar 0x2D rfl rfl rfl

theorem pSpace (use : SpaceUse) : Statement (.pSpace use) := by cases use <;> exact of_byte .pchar 0x20 rfl rfl rfl

theorem pNl (before after : Bytes) (rssi snr : Metric) : Statement (.pNl before after rssi snr) :=
  of_byte .pchar 0x0A rfl rfl rfl

theorem pDigit (d : BitVec 4) (before after : Bytes) : Statement (.pDigit d before after) := by
  have key : ∀ d : BitVec 4, codeValue [Machine.digitWire d] &&& 0xF0 = 0x30 := by decide
  exact fun _ => ⟨rfl, rfl, key d⟩

end TableRow

end Sys2Proof.Laws
end

