-- ==== Sys2Proof/Tests/Slice0.lean ====
section
/-! SUPPORT. Tests: ill-formed terms the check refuses, every constructor's word written out from the spec's encoding of it,
vectors of spec/95_test_vectors.md (each named in its comment), and for every statement with hypotheses a witness that
meets them. -/

namespace Sys2Proof.Tests

open Sys2Proof Sys2Proof.Machine

/-! ## Helpers -/

/-- The state after an instruction. -/
def after (i : Instr) (s : State) : Option State :=
  match exec i s with
  | .next t => some t
  | _ => none

/-- One peer, connected, its delimiter in `d` with buffer `b`; `MAXFRAME = 5`; the report text of R233's vectors. -/
def one (d : Dst) (b : Bytes) : State :=
  { State.reset with
    peers := [⟨true, d, b, []⟩]
    params := { Config.params with maxframe := some 5, reportFmt := .vectorDefault } }

/-- The same without a limit on the frame length. -/
def wide : State := { one .idle [] with params := { Config.params with reportFmt := .vectorDefault } }

/-- `wide` in the path dialect, with reports on. -/
def path : State := { wide with dialect := .path, appendReport := true }

/-- The result of an instruction in `wide`. -/
def res (i : Instr) : Option OpResult := (after i wide).map (·.result)

/-- `APRS`. -/
def aprs : Bytes := [0x41, 0x50, 0x52, 0x53]

/-- `OE9TKH`. -/
def oe9tkh : Bytes := [0x4F, 0x45, 0x39, 0x54, 0x4B, 0x48]

/-- `H` of the vectors: destination `APRS`, source `OE9TKH-8`, final. -/
def hd : Bytes := [0x82, 0xA0, 0xA4, 0xA6, 0x40, 0x40, 0x60, 0x9E, 0x8A, 0x72, 0xA8, 0x96, 0x90, 0x71]

/-- Vector F5: the shortest body. -/
def body : Bytes := hd ++ [0x03, 0xF0]

/-- The frame of F5. -/
def frame : LinkFrame := ⟨⟨aprs, 0, false⟩, ⟨oe9tkh, 8, false⟩, [], 0x03, 0xF0, []⟩

/-- The delimited form of F5 (no byte of it needs escaping). -/
def delimited : Bytes := 0xC0 :: 0x00 :: body ++ [0xC0]

theorem frame_wf : frame.WellFormed := by decide

theorem delimited_ok : Delimited delimited := ⟨0x00 :: body, rfl, by decide, by decide⟩

/-- `wide` meets the invariant, and so does `one`. -/
theorem wide_inv : Inv wide :=
  ⟨⟨(by intro m h; cases h), (by intro m h; cases h)⟩, by decide,
    by
      intro q hq
      rw [show q = ⟨true, .idle, [], []⟩ from List.mem_singleton.mp hq]
      exact ⟨rfl, (by intro m h; cases h), (by intro h; cases h), (by intro b hb; cases hb)⟩,
    by intro m h; cases h⟩

theorem one_inv : Inv (one .idle []) :=
  ⟨⟨(by intro m h; cases h; decide), (by intro m h; cases h)⟩, by decide,
    by
      intro q hq
      rw [show q = ⟨true, .idle, [], []⟩ from List.mem_singleton.mp hq]
      exact ⟨rfl, (by intro m _; exact Nat.zero_le m), (by intro h; cases h), (by intro b hb; cases hb)⟩,
    by intro m h; cases h⟩

/-! ## WellFormed: one ill-formed term for each check -/

theorem test_wf_data_mark : (Instr.data .esc 0xC0).wf = false := by decide
theorem test_wf_data_escb : (Instr.data .esc 0xDB).wf = false := by decide
theorem test_wf_data_subm : (Instr.data (.unesc true false) 0xDC).wf = false := by decide
theorem test_wf_data_sube : (Instr.data (.delimiter 0) 0xDD).wf = false := by decide
theorem test_wf_escpBad_subm : (Instr.escpBad [0xDC]).wf = false := by decide
theorem test_wf_escpBad_sube : (Instr.escpBad [0xDD, 0x41]).wf = false := by decide
theorem test_wf_cmdOther_zero : (Instr.cmdOther 0 0x00 []).wf = false := by decide
theorem test_wf_callbyte_pack_low : (Instr.addrCallbyte .pack 0x41 true).wf = false := by decide
theorem test_wf_ssidbyte_pack_reserved : (Instr.addrSsidbyte .pack false 0b01 0 false).wf = false := by decide
theorem test_wf_digit_ten : (Instr.pDigit 10 [] []).wf = false := by decide

/-- What the decoder does with an ill-formed term: it names the check. -/
theorem test_decode_refuses_ill_formed :
    decode ⟨.pchar, [0x3B], {}⟩ = .error (.illFormed (.pDigit 11 [] [])) := by decide

/-! ## Decoding, words written out from the spec -/

/-- R120, family `0x0`: `000000nn` to `00000110`. -/
theorem test_decode_events :
    decodeTableWord 8 0b00000000 = some (.brReset .binary false) ∧ decodeTableWord 8 0b00000001 = some (.brConn 0) ∧
    decodeTableWord 8 0b00000010 = some (.brDisc 0) ∧ decodeTableWord 8 0b00000011 = some (.brNetrx 0 []) ∧
    decodeTableWord 8 0b00000100 = some (.brRadiorx [] 0 0) ∧ decodeTableWord 8 0b00000101 = some (.brTxpoll false) ∧
    decodeTableWord 8 0b00000110 = some .brStop := by decide

/-- R120, BR.FRAME and families `0x1`, `0x2`. -/
theorem test_decode_frame_stuffer_delimiter :
    decodeTableWord 8 0b00000111 = some (.brFrame 0 []) ∧ decodeTableWord 8 0b00010000 = some (.esc []) ∧
    decodeTableWord 8 0b00010001 = some (.unesc []) ∧ decodeTableWord 8 0b00100000 = some (.dlmByte 0 0) ∧
    decodeTableWord 8 0b00100001 = some (.dlmParse 0 []) ∧ decodeTableWord 8 0b00100010 = some (.dlmReset 0) ∧
    decodeTableWord 8 0b00100011 = some (.wrap []) ∧ decodeTableWord 8 0b00100100 = some (.unwrap []) := by decide

/-- R120, families `0x3`, `0x4`. -/
theorem test_decode_codecs :
    decodeTableWord 8 0b00110000 = some (.addrUnpack [] 0) ∧ decodeTableWord 8 0b00110001 = some (.addrFmt [] 0) ∧
    decodeTableWord 8 0b00110010 = some (.addrDec [] 0) ∧ decodeTableWord 8 0b00110011 = some (.addrParse []) ∧
    decodeTableWord 8 0b00110100 = some (.addrPack ⟨[], 0, false⟩ false) ∧
    decodeTableWord 8 0b00110101 = some (.addrEnc [] false) ∧ decodeTableWord 8 0b01000000 = some (.lfDecb []) ∧
    decodeTableWord 8 0b01000001 = some (.lfDecp []) ∧
    decodeTableWord 8 0b01000010 = some (.lfEncb ⟨⟨[], 0, false⟩, ⟨[], 0, false⟩, [], 0, 0, []⟩) ∧
    decodeTableWord 8 0b01000011 = some (.lfEncp ⟨⟨[], 0, false⟩, ⟨[], 0, false⟩, [], 0, 0, []⟩) ∧
    decodeTableWord 8 0b01000100 = some (.lfInj ⟨⟨[], 0, false⟩, ⟨[], 0, false⟩, [], 0, 0, []⟩ 0 0) := by decide

/-- R91, R92: transport bytes and escape pairs. -/
theorem test_decode_transport :
    decodeTableWord 8 0b11000000 = some (.mark (.delimiter 0)) ∧ decodeTableWord 8 0b11011011 = some (.escb (.delimiter 0)) ∧
    decodeTableWord 8 0b11011100 = some (.subm (.delimiter 0)) ∧ decodeTableWord 8 0b11011101 = some (.sube (.delimiter 0)) ∧
    decode ⟨.tbyte, [0b01000001], { sel := 2, flag := true }⟩ = .ok (.data (.unesc true false) 0x41) ∧
    decodeTableWord 16 0b1101101111011100 = some (.escpMark (.read [])) ∧
    decodeTableWord 16 0b1101101111011101 = some (.escpEsc (.read [])) ∧
    decodeTableWord 16 0b1101101101000001 = some (.escpBad [0x41]) ∧
    decode ⟨.tbyte2, [0b11011011], {}⟩ = .ok (.escpBad []) := by decide

/-- R94, R261, R95, R96: command byte and address bytes. -/
theorem test_decode_command_and_address :
    decode ⟨.cmd, [0b00000000], {}⟩ = .ok (.cmdData (.frame 0 [])) ∧
    decode ⟨.cmd, [0b00000101], { p := 1 }⟩ = .ok (.cmdOther 1 0x05 []) ∧
    decode ⟨.addrCall, [0b10000010], {}⟩ = .ok (.addrCallbyte .unpack 0b1000001 false) ∧
    decode ⟨.addrSsid, [0b11101110], { sel := 1 }⟩ = .ok (.addrSsidbyte .pack true 0b11 0b0111 false) := by decide

/-- R101, R104, R105: control byte and protocol-ID. -/
theorem test_decode_control :
    decode ⟨.ctrl, [0b00010011], {}⟩ = .ok (.ctlU 0b000100 []) ∧ decode ⟨.ctrl, [0b11110001], {}⟩ = .ok (.ctlS 0b111100 []) ∧
    decode ⟨.ctrl, [0b10000010], {}⟩ = .ok (.ctlI 0b1000001 []) ∧
    decode ⟨.ctrlConst, [0b00000011], {}⟩ = .ok (.ctlUi (.encb [])) ∧
    decodeTableWord 8 0b11110000 = some (.pidNol3 (.decb 0xF0 [])) ∧
    decode ⟨.pid, [0b11001111], {}⟩ = .ok (.pidNol3 (.decb 0xCF [])) := by decide

/-- R111, R112: path-notation characters. -/
theorem test_decode_path_characters :
    decodeTableWord 8 0b00111110 = some (.pGt [] []) ∧ decodeTableWord 8 0b00101100 = some (.pComma [] []) ∧
    decodeTableWord 8 0b00111010 = some (.pColon (.pathEnd [] [])) ∧ decodeTableWord 8 0b00101010 = some (.pStar [] []) ∧
    decodeTableWord 8 0b00101101 = some (.pDash [] []) ∧
    decode ⟨.pchar, [0b00100000], {}⟩ = .ok (.pSpace (.pad [])) ∧
    decodeTableWord 8 0b00001010 = some (.pNl [] [] 0 0) ∧ decodeTableWord 8 0b00111001 = some (.pDigit 9 [] []) := by decide

/-- R121, R122: the unused identifiers. -/
theorem test_decode_refuses_unused :
    decode ⟨.event, [0x07], {}⟩ = .error (.notAnEvent [0x07]) ∧
    decode ⟨.call, [0x12], {}⟩ = .error (.noSuchOperation [0x12]) ∧
    decode ⟨.call, [0x50], {}⟩ = .error (.noSuchOperation [0x50]) := by decide

/-- R121, R321: a word that is no instruction is taken and has no effect. -/
theorem test_no_instruction_no_effect :
    step { wide with pending := [⟨.event, [0x07], {}⟩] } = .next wide ∧
    step { wide with pending := [⟨.call, [0x50], {}⟩] } = .next wide := ⟨rfl, rfl⟩

/-- A table word is run by the very next step. -/
theorem test_withFetchWord_runs :
    step (wide.withFetchWord 8 0x23) = .next { wide with result := .ok (.bytes [0xC0, 0x00, 0xC0]) } := rfl

/-! ## Vectors of spec/95_test_vectors.md -/

/-- S11, S24, S26. -/
theorem test_stuffer :
    res (.esc [0x00, 0xFF, 0xC0, 0xDB, 0xDC, 0xDD]) =
      some (.ok (.bytes [0x00, 0xFF, 0xDB, 0xDC, 0xDB, 0xDD, 0xDC, 0xDD])) ∧
    res (.unesc [0xDB, 0xDB, 0xDC]) = some (.fail ⟨.framingError, 1, 0x11⟩) ∧
    res (.unesc [0xDB, 0xDD, 0xDC]) = some (.ok (.bytes [0xDB, 0xDC])) := by decide

/-- L16, L11: the marker parity. -/
theorem test_delimiter :
    res (.dlmParse 0 [0xC0, 0xC0, 0xC0, 0x00, 0x41, 0xC0]) = some (.ok (.dlms [.frame [0xC0, 0x00, 0x41, 0xC0]])) ∧
    (after (.dlmParse 0 [0xC0, 0x00, 0x41, 0xC0, 0x00, 0x42, 0xC0]) wide).map (fun t => t.peers.map fun q => (q.dst, q.buf)) =
      some [(.started, [0xC0])] := by decide

/-- L22, L25: a frame longer than the buffer. -/
theorem test_delimiter_overrun :
    (after (.dlmParse 0 [0xC0, 0x00, 0x41, 0x42, 0x43, 0x44, 0xC0]) (one .idle [])).map (·.result) =
      some (.ok (.dlms [.overrun])) ∧
    (after (.dlmParse 0 [0xC0, 0x00, 0x41, 0x42, 0x43, 0x44, 0xC0, 0x00, 0x41, 0xC0]) (one .idle [])).map
      (fun t => t.peers.map (·.dst)) = some [.started] := by decide

/-- The step trace of section 2.2, third row, and DLM.RESET after it. -/
theorem test_delimiter_byte :
    (after (.dlmByte 0 0x41) (one .inBody [0xC0, 0x00])).map (fun t => t.peers.map (·.buf)) = some [[0xC0, 0x00, 0x41]] ∧
    (after (.dlmReset 0) (one .inBody [0xC0, 0x00, 0x41])).map (fun t => t.peers.map fun q => (q.dst, q.buf)) =
      some [(.idle, [])] := by decide

/-- W3, W14, W16. -/
theorem test_wrap_unwrap :
    res (.wrap [0x41, 0xC0, 0x42]) = some (.ok (.bytes [0xC0, 0x00, 0x41, 0xDB, 0xDC, 0x42, 0xC0])) ∧
    res (.unwrap [0xC0, 0xDB, 0xDC, 0xC0]) = some (.ok (.cmdBody 0xC0 [])) ∧
    res (.unwrap [0xC0, 0xC0]) = some (.fail ⟨.framingError, 2, 0x24⟩) := by decide

/-- A3, A5, A8. -/
theorem test_unpack :
    res (.addrUnpack [0xAE, 0x92, 0x88, 0x8A, 0x62, 0x40, 0xE2] 0) =
      some (.ok (.unpacked ⟨[0x57, 0x49, 0x44, 0x45, 0x31], 1, 0b111, false⟩)) ∧
    res (.addrUnpack [0x82, 0x40, 0x84, 0x40, 0x40, 0x40, 0x7E] 0) =
      some (.ok (.unpacked ⟨[0x41, 0x20, 0x42], 15, 0b011, false⟩)) ∧
    res (.addrDec [0x82, 0xA0, 0xA4, 0xA6, 0x40, 0x40, 0x80] 0) = some (.ok (.decoded aprs 0b100 false)) := by decide

/-- `("N0CALL", 10)` gives `"N0CALL-10"`. -/
theorem test_fmt :
    res (.addrFmt [0x4E, 0x30, 0x43, 0x41, 0x4C, 0x4C] 10) =
      some (.ok (.bytes [0x4E, 0x30, 0x43, 0x41, 0x4C, 0x4C, 0x2D, 0x31, 0x30])) := by decide

/-- A26, A29, A35, A40. -/
theorem test_parse :
    res (.addrParse [0x41, 0x42, 0x2D, 0x30, 0x37]) = some (.ok (.addr ⟨[0x41, 0x42], 7, false⟩)) ∧
    res (.addrParse [0x41, 0x42, 0x2D, 0x31, 0x36]) = some (.fail ⟨.malformedAddress, 2, 0x33⟩) ∧
    res (.addrParse [0x41, 0x42, 0x2A, 0x2A]) = some (.ok (.addr ⟨[0x41, 0x42, 0x2A], 0, true⟩)) ∧
    res (.addrParse [0x2D, 0x35]) = some (.fail ⟨.malformedAddress, 1, 0x33⟩) := by decide

/-- A55, A63 and, through ADDR.ENC, A51. -/
theorem test_pack :
    res (.addrPack ⟨[0x41], 15, true⟩ true) = some (.ok (.bytes [0x82, 0x40, 0x40, 0x40, 0x40, 0x40, 0xFF])) ∧
    res (.addrPack ⟨[0xE9, 0xFF], 0, false⟩ false) = some (.fail ⟨.encodingFailure, 0xE9, 0x34⟩) ∧
    res (.addrEnc (oe9tkh ++ [0x2D, 0x38]) true) =
      some (.ok (.bytes [0x9E, 0x8A, 0x72, 0xA8, 0x96, 0x90, 0x71])) := by decide

/-- F7, F11, F18: binary decode. -/
theorem test_decb :
    res (.lfDecb (hd ++ [0x01])) = some (.fail ⟨.unsupportedFrameType, 1, 0x40⟩) ∧
    res (.lfDecb (hd ++ [0x13, 0xCF, 0x41, 0x42])) =
      some (.ok (.frame { frame with ctrl := 0x13, pid := 0xCF, info := [0x41, 0x42] })) ∧
    res (.lfDecb (hd.dropLast ++ [0x70, 0xAE, 0x92, 0x88, 0x8A, 0x62, 0x40, 0x83, 0x03, 0xF0, 0x41])) =
      some (.ok (.frame { frame with digis := [⟨[0x57, 0x49, 0x44, 0x45, 0x31], 1, false⟩], info := [0x41] })) := by
  decide

/-- F35, F42: path decode. -/
theorem test_decp :
    res (.lfDecp [0x41, 0x3E, 0x42, 0x2C, 0x43, 0x2A, 0x2C, 0x44, 0x2C, 0x45, 0x2D, 0x31, 0x35, 0x2A, 0x3A, 0x78, 0x0A]) =
      some (.ok (.frame ⟨⟨[0x42], 0, false⟩, ⟨[0x41], 0, false⟩,
        [⟨[0x43], 0, true⟩, ⟨[0x44], 0, false⟩, ⟨[0x45], 15, true⟩], 0x03, 0xF0, [0x78, 0x0A]⟩)) ∧
    res (.lfDecp [0x41, 0x42, 0x3A, 0x78]) = some (.fail ⟨.framingError, 4, 0x41⟩) := by decide

/-- F61, F62: encode. -/
theorem test_enc :
    res (.lfEncb ⟨⟨[0x42], 0, true⟩, ⟨[0x41], 0, true⟩, [⟨[0x43], 0, true⟩], 0x03, 0xF0, [0x78]⟩) =
      some (.ok (.bytes [0x84, 0x40, 0x40, 0x40, 0x40, 0x40, 0xE0, 0x82, 0x40, 0x40, 0x40, 0x40, 0x40, 0xE0,
        0x86, 0x40, 0x40, 0x40, 0x40, 0x40, 0xE1, 0x03, 0xF0, 0x78])) ∧
    res (.lfEncp ⟨⟨[0x42], 0, true⟩, ⟨[0x41], 0, true⟩, [⟨[0x43], 0, true⟩], 0x13, 0xCF, [0x78]⟩) =
      some (.ok (.bytes [0x41, 0x3E, 0x42, 0x2C, 0x43, 0x2A, 0x3A, 0x78])) := by decide

/-- J3, J10: `"!47\n\n"` in the path dialect, `"!47\n"` in the binary one. -/
theorem test_inj :
    (after (.lfInj { frame with info := [0x21, 0x34, 0x37, 0x0A, 0x0A] } (-80) 7) path).map (·.result) =
      some (.ok (.frame { frame with info := [0x21, 0x34, 0x37, 0x0A, 0x20, 0x52, 0x53, 0x53, 0x49, 0x3D, 0x2D, 0x38, 0x30,
        0x20, 0x53, 0x4E, 0x52, 0x3D, 0x37] })) ∧
    (after (.lfInj { frame with info := [0x21, 0x0A] } 0 0) { path with dialect := .binary }).map (·.result) =
      some (.ok (.frame { frame with info := [0x21, 0x0A, 0x20, 0x52, 0x53, 0x53, 0x49, 0x3D, 0x30, 0x20, 0x53, 0x4E, 0x52,
        0x3D, 0x30] })) := by decide

/-- Program P1 in small: a frame from a peer, in the path dialect, then a poll: `OE9TKH-8>APRS:`. -/
theorem test_netrx_path :
    (after (.brNetrx 0 delimited) path).map (·.txq) =
      some [oe9tkh ++ [0x2D, 0x38, 0x3E] ++ aprs ++ [0x3A]] := by decide

theorem test_radiorx_binary :
    (after (.brRadiorx body 0 0) wide).map (fun t => t.peers.map (·.netTx)) = some [[delimited]] := by decide

theorem test_events :
    (after (.brTxpoll true) { wide with txq := [[0x41], [0x42]] }).map (fun t => (t.txq, t.radioTx)) =
      some ([[0x42]], [[0x41]]) ∧
    (after .brStop wide).map (·.run) = some false ∧
    (after (.brDisc 0) (one .inBody [0xC0, 0x41])).map (fun t => t.peers.map fun q => (q.conn, q.dst, q.buf)) =
      some [(false, .idle, [])] ∧
    (after (.brConn 0) (one .started [0xC0])).map (fun t => t.peers.map fun q => (q.conn, q.dst)) =
      some [(true, .idle)] := by decide

theorem test_reset_keeps_what_was_emitted :
    (after (.brReset .path true) { wide with log := [⟨.queueOverflow, 0x07, .netToRadio, 0, 0⟩], txq := [[0x41]] }).map
      (fun t => (t.dialect, t.txq, t.log.length)) = some (.path, [], 1) := by decide

/-- BR.FRAME, unknown command: `C0 01 41 C0`. -/
theorem test_frame_command :
    (after (.brFrame 0 [0xC0, 0x01, 0x41, 0xC0]) wide).map (·.log) =
      some [⟨.unsupportedCommand, 0x07, .netToRadio, 0, 1⟩] := by decide

/-- The byte classes where a unit meets them (R91, R92, R94, R95, R97, R101, R105, R111). -/
theorem test_transport_classes :
    (after (.mark (.delimiter 0)) wide).map (fun t => t.peers.map (·.dst)) = some [.started] ∧
    (after (.escb (.unesc true false)) wide).map (·.escp) = some true ∧
    (after (.subm (.unesc false false)) { wide with escp := true }).map (·.result) = some (.ok (.bytes [0xC0])) ∧
    (after (.sube (.unesc false true)) wide).map (·.result) = some (.ok (.bytes [0xDD])) ∧
    (after (.data (.unesc false false) 0x41) { wide with escp := true }).map (·.result) =
      some (.fail ⟨.framingError, 1, 0x11⟩) := by decide

/-- R51, R136: an operation starts from `ESCP = 0`, whatever the one before left; an escape byte as its last byte fails. -/
theorem test_serial_unesc_begins_and_ends :
    (after (.data (.unesc true false) 0x41) { wide with escp := true }).map (·.result) = some (.ok (.bytes [0x41])) ∧
    (after (.escb (.unesc true true)) wide).map (·.result) = some (.fail ⟨.framingError, 1, 0x11⟩) := by decide

theorem test_pair_and_command_classes :
    res (.escpMark (.read [0x41])) = some (.ok (.bytes [0xC0, 0x41])) ∧
    res (.escpEsc (.write [0x41])) = some (.ok (.bytes [0xDB, 0xDD, 0x41])) ∧
    res (.escpBad []) = some (.fail ⟨.framingError, 1, 0x11⟩) ∧
    (after (.cmdData (.frame 0 body)) wide).map (·.txq) = some [body] ∧
    (after (.cmdOther 0 0x0F []) wide).map (·.log) = some [⟨.unsupportedCommand, 0x07, .netToRadio, 0, 0x0F⟩] := by decide

theorem test_address_and_control_classes :
    res (.addrCallbyte .unpack 0x41 true) = some (.ok (.bytes [0x41])) ∧
    res (.addrSsidbyte .unpack true 0b10 1 false) = some (.ok (.ssidFields 1 0b110 false false)) ∧
    res (.ctlU 0 [0xF0, 0x41]) = some (.ok (.control 0x03 0xF0 [0x41])) ∧
    res (.ctlS 1 []) = some (.fail ⟨.unsupportedFrameType, 1, 0x40⟩) ∧
    res (.ctlI 0 []) = some (.fail ⟨.unsupportedFrameType, 2, 0x40⟩) ∧
    res (.ctlUi (.encb [0x41])) = some (.ok (.bytes [0x03, 0xF0, 0x41])) ∧
    res (.pidNol3 (.encb [])) = some (.ok (.bytes [0xF0])) ∧
    res (.pidNol3 (.decb 0xCF [0x41])) = some (.ok (.control 0x03 0xCF [0x41])) := by decide

/-- R219, R189: the second `>`, the second `-`, a `*` inside. -/
theorem test_path_characters_elsewhere :
    res (.pGt [0x41, 0x3E, 0x42] [0x43]) = some (.ok (.split [0x41] [0x42, 0x3E, 0x43])) ∧
    res (.pDash [0x41, 0x2D, 0x31] [0x32]) = some (.fail ⟨.malformedAddress, 2, 0x33⟩) ∧
    res (.pStar [0x41] [0x42]) = some (.ok (.star false [0x41, 0x2A, 0x42])) := by decide

theorem test_path_classes :
    res (.pGt [0x41] [0x42, 0x3E]) = some (.ok (.split [0x41] [0x42, 0x3E])) ∧
    res (.pComma [0x41] [0x42]) = some (.ok (.tokens [0x41] [[0x42]])) ∧
    res (.pColon (.pathEnd [0x41] [])) = some (.ok (.split [0x41] [])) ∧
    res (.pStar [0x41] []) = some (.ok (.star true [0x41])) ∧
    res (.pDash [0x41] [0x31]) = some (.ok (.callSsid [0x41] 1)) ∧
    res (.pSpace (.pad [0x41])) = some (.ok (.bytes [0x82, 0x40, 0x40, 0x40, 0x40, 0x40])) ∧
    res (.pDigit 5 [0x31] []) = some (.ok (.ssid 15)) ∧
    (after (.pNl [0x21] [] 0 0) { path with appendReport := false }).map (·.result) =
      some (.ok (.bytes [0x21, 0x0A])) := by decide

/-! ## Witnesses: for each statement with hypotheses, a state and operands that meet them -/

theorem wit_DecodeOfEncodeIsTheInstruction :
    (Instr.data .esc 0xBF).wf = true ∧ (Instr.data .esc 0xDE).wf = true ∧ (Instr.pDigit 9 [] []).wf = true ∧
    (Instr.addrSsidbyte .pack true 0b11 15 true).wf = true ∧ (Instr.cmdOther 0 0xFF []).wf = true ∧
    (Instr.pSpace (.pad oe9tkh)).wf = true := by decide

theorem wit_DecodedWordIsReencodedBitForBit :
    decode ⟨.ctrl, [0xFF], { p := 3, data := [0x00] }⟩ = .ok (.ctlU 0b111111 [0x00]) := by decide

/-- Nothing presented; an instruction; a non-event; a word that is no instruction. -/
theorem wit_StepRunsTheDecodedInstruction :
    wide.pending = [] ∧ decode ⟨.call, [0x10], {}⟩ = .ok (.esc []) ∧
    decode ⟨.event, [0x07], {}⟩ = .error (.notAnEvent [0x07]) ∧
    decode ⟨.call, [0x12], {}⟩ = .error (.noSuchOperation [0x12]) := by decide

theorem wit_EventPortTakesTheSevenEventsOnly :
    0x06 < (0x07 : Byte).toNat ∧ 0x06 < (0xFF : Byte).toNat ∧
    ({ wide with pending := [⟨.event, [0x07], {}⟩] } : State).pending = [⟨.event, [0x07], {}⟩] := by decide

theorem wit_StepKeepsTheInvariant : Inv wide ∧ step wide = .next wide ∧
    ∃ t, step { wide with pending := [⟨.event, [0x03], { data := [0xC0] }⟩] } = .next t :=
  ⟨wide_inv, rfl, _, rfl⟩

/-- Stopped by BR.STOP; an event while stopped; BR.RESET. -/
theorem wit_NoInputStopsTheBlock :
    wide.run = true ∧ (after .brStop wide).map (·.run) = some false ∧
    ({ wide with run := false } : State).run = false ∧ isEvent (.brConn 0) = true ∧
    (after (.brReset .path true) { wide with run := false }).map (·.run) = some true := by decide

/-- BR.RESET meets both premises: it changes a stopped state, and it changes `CFG`. -/
theorem wit_ResetWritesTheWholeStateTuple :
    isEvent (.brReset .path true) = true ∧
    (after (.brReset .path true) { wide with run := false }) ≠ some { wide with run := false } ∧
    (after (.brReset .path true) wide).map (·.dialect) ≠ some wide.dialect := by decide

/-- Both cases of the conclusion: an instruction that keeps the configuration, and BR.RESET that changes it. -/
theorem wit_OnlyResetWritesTheConfiguration :
    exec .brStop wide = .next { wide with run := false } ∧
    (after (.brReset .path true) wide).map (fun t => (t.dialect, t.appendReport)) = some (.path, true) := ⟨rfl, by decide⟩

/-- Each premise of a change: some instruction makes it. -/
theorem wit_EachStateElementHasItsWriters :
    (after .brStop wide).map (·.run) ≠ some wide.run ∧
    (after (.brDisc 0) wide).map (fun t => t.peers.map (·.conn)) ≠ some (wide.peers.map (·.conn)) ∧
    (after (.mark (.delimiter 0)) wide).map (fun t => t.peers.map fun q => (q.dst, q.buf)) ≠
      some (wide.peers.map fun q => (q.dst, q.buf)) ∧
    (after (.brRadiorx body 0 0) wide).map (fun t => t.peers.map (·.netTx)) ≠ some (wide.peers.map (·.netTx)) ∧
    (after (.brFrame 0 delimited) wide).map (·.txq) ≠ some wide.txq ∧
    (after (.brTxpoll true) { wide with txq := [[0x41]] }).map (·.radioTx) ≠ some wide.radioTx ∧
    (after (.cmdOther 0 1 []) wide).map (·.log) ≠ some wide.log ∧
    (after (.escb (.unesc true false)) wide).map (·.escp) ≠ some wide.escp ∧
    (after (.esc []) wide).map (·.result) ≠ some wide.result := by decide

theorem wit_OutputsAreNeverRecalled : wide.peers[0]? = some ⟨true, .idle, [], []⟩ ∧
    (after (.brRadiorx body 0 0) wide).bind (fun t => t.peers[0]?) = some ⟨true, .idle, [], [delimited]⟩ := by decide

theorem wit_ConnectionEventsResetTheDelimiterAndGateTheBytes :
    (one .inBody [0xC0, 0x41]).peers[0]? = some ⟨true, .inBody, [0xC0, 0x41], []⟩ ∧ (one .inBody [0xC0, 0x41]).run = true ∧
    State.reset.peers[1]? = some ⟨false, .idle, [], []⟩ := by decide

/-- The first peer number the block does not have; a stopped block. -/
theorem wit_AbsentPeersAndStoppedBlockIgnoreEvents :
    wide.npeers ≤ 1 ∧ ({ wide with run := false } : State).run = false ∧ isEvent (.brNetrx 0 [0xC0]) = true := by decide

/-- The three results of one byte: none, a frame, an overrun. -/
theorem wit_NetrxHandlesEachByteBeforeTheNext :
    ({ wide with run := false } : State).run = false ∧ (∀ q, wide.peers[1]? = some q → q.conn = false) ∧
    (∀ q, State.reset.peers[0]? = some q → q.conn = false) ∧ wide.run = true ∧ wide.peers[0]? = some ⟨true, .idle, [], []⟩ ∧
    (after (.dlmByte 0 0xC0) wide).map (·.result) = some (.ok (.dlm .none)) ∧
    (after (.dlmByte 0 0xC0) (one .inBody [0xC0, 0x00])).map (·.result) = some (.ok (.dlm (.frame [0xC0, 0x00, 0xC0]))) ∧
    (after (.dlmByte 0 0x43) (one .inBody [0xC0, 0x00, 0x41, 0x42, 0x43])).map (·.result) = some (.ok (.dlm .overrun)) ∧
    (one .idle []).params.maxframe = some 5 :=
  ⟨rfl, (by intro q h; cases h), (by intro q h; cases h; rfl), by decide⟩

/-- UNWRAP fails; a foreign command; LF.DECB fails; a frame encoded in either dialect, with the queue full or not. -/
theorem wit_FrameIsQueuedOrDroppedWithOneRecord :
    Returns (.unwrap [0xC0, 0xDB, 0x41, 0xC0]) wide (.fail ⟨.framingError, 1, 0x11⟩) ∧
    Returns (.unwrap [0xC0, 0x01, 0xC0]) wide (.ok (.cmdBody 0x01 [])) ∧
    Returns (.unwrap delimited) wide (.ok (.cmdBody 0x00 body)) ∧
    Returns (.lfDecb []) wide (.fail ⟨.malformedAddress, 0, 0x30⟩) ∧
    Returns (.lfDecb body) wide (.ok (.frame frame)) ∧ wide.dialect = .binary ∧
    Returns (.lfEncb frame) wide (.ok (.bytes body)) ∧ path.dialect = .path ∧
    Returns (.lfEncp frame) path (.ok (.bytes (oe9tkh ++ [0x2D, 0x38, 0x3E] ++ aprs ++ [0x3A]))) ∧
    wide.params.qdepth ≠ some wide.txq.length ∧
    ({ wide with txq := [[]], params := { wide.params with qdepth := some 1 } } : State).params.qdepth = some 1 :=
  ⟨next_setResult_iff.mpr (by decide), next_setResult_iff.mpr (by decide), next_setResult_iff.mpr (by decide),
    next_setResult_iff.mpr (by decide), next_setResult_iff.mpr (by decide), rfl, next_setResult_iff.mpr (by decide), rfl,
    next_setResult_iff.mpr (by decide), by decide, rfl⟩

/-- Also with a buffer of exactly the frame's length. -/
theorem wit_CompletedFrameLeavesTheDelimiterIdle :
    wide.run = true ∧ wide.peers[0]? = some ⟨true, .idle, [], []⟩ ∧ Delimited delimited ∧
    WithinCap wide.params.maxframe delimited.length ∧ WithinCap (some delimited.length) delimited.length :=
  ⟨rfl, rfl, delimited_ok, (by intro m h; cases h), (by intro m h; cases h; exact Nat.le_refl _)⟩

/-- Parsing fails; encoding fails (a callsign character above `0x7F`); both succeed. -/
theorem wit_RadioPacketIsWrittenToEveryConnectedPeerOrLogged :
    ({ wide with run := false } : State).run = false ∧ wide.run = true ∧ Returns (.lfDecb [0x41]) wide (.fail ⟨.malformedAddress, 0, 0x30⟩) ∧
    Returns (.lfDecp [0xC9, 0x3E, 0x42, 0x3A]) path (.ok (.frame ⟨⟨[0x42], 0, false⟩, ⟨[0xC9], 0, false⟩, [], 3, 0xF0, []⟩)) ∧
    Returns (.lfEncb ⟨⟨[0x42], 0, false⟩, ⟨[0xC9], 0, false⟩, [], 3, 0xF0, []⟩) path
      (.fail ⟨.encodingFailure, 0xC9, 0x34⟩) ∧
    Returns (.lfDecb body) wide (.ok (.frame frame)) ∧ Returns (.lfInj frame 0 0) wide (.ok (.frame frame)) ∧
    Returns (.lfEncb frame) wide (.ok (.bytes body)) ∧ Returns (.wrap body) wide (.ok (.bytes delimited)) :=
  ⟨rfl, rfl, next_setResult_iff.mpr (by decide), next_setResult_iff.mpr (by decide), next_setResult_iff.mpr (by decide),
    next_setResult_iff.mpr (by decide), next_setResult_iff.mpr (by decide), next_setResult_iff.mpr (by decide),
    next_setResult_iff.mpr (by decide)⟩

theorem wit_PollSendsTheHeadWhenTheChannelIsIdle :
    ({ wide with run := false } : State).run = false ∧ wide.run = true ∧ wide.txq = [] ∧ ({ wide with txq := [[0x41], [0x42]] } : State).txq = [0x41] :: [[0x42]] := by decide

theorem wit_PollsDrainTheQueueInOrder : ({ wide with txq := [[0x41], [0x42]] } : State).run = true := rfl

theorem wit_StopClearsRunOnly : ∀ i ∈ [Instr.brTxpoll true, .brNetrx 0 [0xC0], .brStop],
    isEvent i = true ∧ ∀ d a, i ≠ .brReset d a := by
  intro i h
  simp only [List.mem_cons, List.not_mem_nil, or_false] at h
  rcases h with rfl | rfl | rfl <;> exact ⟨rfl, fun _ _ h => by cases h⟩

theorem wit_DirectionsDoNotInterfere :
    (∃ p c, Instr.brNetrx 0 [0xC0] = .brNetrx p c) ∧ (∃ p c, Instr.brFrame 0 [] = .brFrame p c) ∧
    ∃ b, Instr.brTxpoll true = .brTxpoll b := ⟨⟨_, _, rfl⟩, ⟨_, _, rfl⟩, ⟨_, rfl⟩⟩

theorem wit_PeersDoNotInterfere : (0 : Nat) ≠ 1 ∧ State.reset.peers[1]? = some ⟨false, .idle, [], []⟩ := by decide

theorem wit_WellFormedFramePassesThroughBothWays :
    wide.run = true ∧ frame.WellFormed ∧ wide.peers[0]? = some ⟨true, .idle, [], []⟩ ∧
    wide.params.qdepth ≠ some wide.txq.length ∧ WithinCap wide.params.maxframe (wrapBytes body).length ∧
    [[0xC0], delimited.drop 1].flatten = wrapBytes body ∧ wide.appendReport = false :=
  ⟨rfl, frame_wf, rfl, by decide, (by intro m h; cases h), by decide, rfl⟩

theorem wit_UnescReadsPairsLeftToRight :
    (0xDB : Byte) ≠ 0xDC ∧ (0xDB : Byte) ≠ 0xDD ∧ Returns (.unesc [0xDC]) wide (.ok (.bytes [0xDC])) ∧
    Returns (.unesc [0xDB]) wide (.fail ⟨.framingError, 1, 0x11⟩) :=
  ⟨by decide, by decide, next_setResult_iff.mpr (by decide), next_setResult_iff.mpr (by decide)⟩

/-- UNESC succeeds on a sequence without `0xC0`, and on one with it. -/
theorem wit_UnescInvertsEsc :
    Returns (.unesc [0xDB, 0xDC]) wide (.ok (.bytes [0xC0])) ∧ Returns (.unesc [0xC0]) wide (.ok (.bytes [0xC0])) :=
  ⟨next_setResult_iff.mpr (by decide), next_setResult_iff.mpr (by decide)⟩

theorem wit_SerialFormAgreesWithUnesc :
    (!true && ({ wide with escp := true } : State).escp) = false ∧ (!false && wide.escp) = false ∧
    (!false && ({ wide with escp := true } : State).escp) = true ∧
    (0x41 : Byte) ≠ 0xDB ∧ (0xDB : Byte) ≠ 0xDC ∧ (0xDB : Byte) ≠ 0xDD := by decide

theorem wit_EscapePairsStandForTheReservedBytes :
    Returns (.unesc []) wide (.ok (.bytes [])) ∧ Returns (.unesc [0xDB, 0x00]) wide (.fail ⟨.framingError, 1, 0x11⟩) ∧
    Returns (.esc [0xC0]) wide (.ok (.bytes [0xDB, 0xDC])) ∧ (Instr.escpBad []).wf = true ∧
    (Instr.escpBad [0xDB]).wf = true :=
  ⟨next_setResult_iff.mpr (by decide), next_setResult_iff.mpr (by decide), next_setResult_iff.mpr (by decide), by decide,
    by decide⟩

/-- One peer in each delimiter state, in `IN_BODY` with the buffer one short of full and full. -/
theorem wit_DelimiterTransitions :
    (one .idle []).peers[0]? = some ⟨true, .idle, [], []⟩ ∧ (one .started [0xC0]).peers[0]? = some ⟨true, .started, [0xC0], []⟩ ∧
    (one .inBody [0xC0, 1, 2, 3]).peers[0]? = some ⟨true, .inBody, [0xC0, 1, 2, 3], []⟩ ∧
    (one .inBody [0xC0, 1, 2, 3]).params.maxframe ≠ some [0xC0, 1, 2, 3].length ∧
    (one .inBody [0xC0, 1, 2, 3, 4]).params.maxframe = some [0xC0, 1, 2, 3, 4].length ∧
    (one .overrun []).peers[0]? = some ⟨true, .overrun, [], []⟩ := by decide

/-- A frame of exactly `MAXFRAME` bytes, and one byte longer. -/
theorem wit_FrameIsDeliveredIffItFitsTheBuffer :
    (one .idle []).peers[0]? = some ⟨true, .idle, [], []⟩ ∧ ParamsOk (one .idle []).params ∧
    Delimited [0xC0, 0, 1, 2, 0xC0] ∧ WithinCap (one .idle []).params.maxframe [0xC0, 0, 1, 2, 0xC0].length ∧
    Delimited [0xC0, 0, 1, 2, 3, 0xC0] ∧ (one .idle []).params.maxframe = some 5 ∧
    5 < [0xC0, 0, 1, 2, 3, 0xC0].length ∧ (one .idle []).run = true :=
  ⟨rfl, one_inv.params, ⟨[0, 1, 2], rfl, by decide, by decide⟩, (by intro m h; cases h; decide),
    ⟨[0, 1, 2, 3], rfl, by decide, by decide⟩, rfl, by decide, rfl⟩

theorem wit_DelimiterResetGoesToIdle : (one .overrun []).peers[0]? = some ⟨true, .overrun, [], []⟩ := rfl

theorem wit_ConsequencesOfTheTransitions :
    Inv wide ∧ (∃ t, exec (.dlmParse 0 [0xC0, 0x00, 0xC0]) wide = .next t ∧ t.result = .ok (.dlms [.frame [0xC0, 0x00, 0xC0]])) ∧
    wide.peers[0]? = some ⟨true, .idle, [], []⟩ ∧ wide.params.maxframe = none ∧ ([0x00] : Bytes) ≠ [] ∧
    (0xC0 : Byte) ∉ ([0x00] : Bytes) ∧ (0x00 : Byte) ≠ 0xC0 :=
  ⟨wide_inv, ⟨_, rfl, by decide⟩, rfl, rfl, by decide, by decide, by decide⟩

theorem wit_MarkerParityDecidesEveryLaterFrame :
    wide.peers[0]? = some ⟨true, .idle, [], []⟩ ∧ wide.params.maxframe = none ∧
    (∀ b ∈ ([[0x00], [0x00, 0x41]] : List Bytes), b ≠ [] ∧ (0xC0 : Byte) ∉ b) ∧
    ({ wide with peers := [⟨true, .started, [0xC0], []⟩] } : State).peers[0]? = some ⟨true, .started, [0xC0], []⟩ := by decide

theorem wit_WrapMakesOneFrameThatUnwrapInverts :
    wide.peers[0]? = some ⟨true, .idle, [], []⟩ ∧ WithinCap wide.params.maxframe (wrapBytes body).length ∧
    WithinCap (some 3) (wrapBytes []).length :=
  ⟨rfl, (by intro m h; cases h), (by intro m h; cases h; decide)⟩

/-- UNESC fails; markers in place; two bytes only. -/
theorem wit_UnwrapUnescapesThenStrips :
    Returns (.unesc [0xC0, 0xDB]) wide (.fail ⟨.framingError, 1, 0x11⟩) ∧
    Returns (.unesc [0xC0, 0xDB, 0xDC, 0xC0]) wide (.ok (.bytes (0xC0 :: 0xC0 :: [] ++ [0xC0]))) ∧
    Returns (.unesc [0xC0, 0xC0]) wide (.ok (.bytes [0xC0, 0xC0])) ∧
    ∀ (c : Byte) (b : Bytes), ([0xC0, 0xC0] : Bytes) ≠ 0xC0 :: c :: b ++ [0xC0] :=
  ⟨next_setResult_iff.mpr (by decide), next_setResult_iff.mpr (by decide), next_setResult_iff.mpr (by decide),
    fun c b h => by have := congrArg List.length h; simp at this⟩

theorem wit_OnlyCommandZeroIsAccepted :
    Returns (.unwrap delimited) wide (.ok (.cmdBody 0x00 body)) ∧ Returns (.esc [0xC0]) wide (.ok (.bytes [0xDB, 0xDC])) ∧
    (0x01 : Byte) ≠ 0x00 ∧ (0xFF : Byte) ≠ 0x00 :=
  ⟨next_setResult_iff.mpr (by decide), next_setResult_iff.mpr (by decide), by decide, by decide⟩

theorem wit_UnpackReadsTheFields : ([0x82, 0xA0, 0xA4, 0xA6, 0x40, 0x40] : Bytes).length < 0 + 7 ∧ 7 + 7 ≤ hd.length := by
  decide

theorem wit_FormatAndTheTwoCompositions :
    Returns (.addrUnpack [] 0) wide (.fail ⟨.malformedAddress, 0, 0x30⟩) ∧
    Returns (.addrUnpack hd 7) wide (.ok (.unpacked ⟨oe9tkh, 8, 0b011, true⟩)) ∧
    Returns (.addrFmt oe9tkh 8) wide (.ok (.bytes (oe9tkh ++ [0x2D, 0x38]))) ∧
    Returns (.addrParse []) wide (.fail ⟨.malformedAddress, 1, 0x33⟩) ∧
    Returns (.addrParse aprs) wide (.ok (.addr ⟨aprs, 0, false⟩)) ∧
    Returns (.addrPack ⟨aprs, 0, false⟩ false) wide (.ok (.bytes [0x82, 0xA0, 0xA4, 0xA6, 0x40, 0x40, 0x60])) :=
  ⟨next_setResult_iff.mpr (by decide), next_setResult_iff.mpr (by decide), next_setResult_iff.mpr (by decide),
    next_setResult_iff.mpr (by decide), next_setResult_iff.mpr (by decide), next_setResult_iff.mpr (by decide)⟩

/-- Callsigns of 0, 6 and 7 characters; the SSID texts `15` and `07`; an empty text and `16`, which are none. -/
theorem wit_ParseReadsCallsignSsidAndStar :
    (0x2D : Byte) ∉ oe9tkh ∧ oe9tkh.getLast? ≠ some 0x2A ∧ oe9tkh.length = 6 ∧ ¬(1 ≤ ([] : Bytes).length) ∧
    ¬((oe9tkh ++ [0x41]).length ≤ 6) ∧ SsidText 15 [0x31, 0x35] ∧ SsidText 7 [0x30, 0x37] ∧ SsidText 9 [0x39] ∧
    (∀ v, ¬SsidText v []) ∧ ∀ v, ¬SsidText v [0x31, 0x36] := by
  refine ⟨by decide, by decide, by decide, by decide, by decide, ⟨by decide, .inr (by decide)⟩, ⟨by decide, .inr (by decide)⟩,
    ⟨by decide, .inl (by decide)⟩, ?_, ?_⟩ <;> rintro v ⟨hv, ⟨h, _⟩ | h⟩ <;> interval_cases v <;> revert h <;> decide

theorem wit_PackWritesSevenBytes :
    6 < (oe9tkh ++ [0x41]).length ∧ ([0xE9, 0xFF] : Bytes) = [] ++ 0xE9 :: [0xFF] ∧ 0x7F < (0x80 : Byte).toNat ∧
    oe9tkh.length ≤ 6 ∧ ∀ b ∈ oe9tkh, b.toNat ≤ 0x7F := by decide

theorem wit_AddressRoundTrips :
    oe9tkh.length ≤ 6 ∧ (∀ c ∈ oe9tkh, c.toNat ≤ 0x7F) ∧ oe9tkh.getLast? ≠ some 0x20 ∧
    (⟨oe9tkh, 15, true⟩ : Addr).WellFormed ∧ (⟨[0x5A], 0, false⟩ : Addr).WellFormed := by decide

/-- A chain of three: a destination with extension bit 1 and an empty callsign, a source with reserved bits `00` and bit 0 of
a callsign byte set, a digipeater with `hrr = 0b101`; control bytes of the three classes. -/
theorem wit_BinaryDecodeFailsOnShortInputAndByClass :
    let d : Bytes := [0x40, 0x40, 0x40, 0x40, 0x40, 0x40, 0x61]
    let r : Bytes := [0x83, 0x40, 0x40, 0x40, 0x40, 0x40, 0x00]
    let g : Bytes := [0xC2, 0x40, 0x40, 0x40, 0x40, 0x40, 0xA1]
    (∀ a ∈ [d, r, g], a.length = 7) ∧
    (∀ (k : Nat) (a : Bytes), [r, g][k]? = some a → (a.getD 6 0).getLsbD 0 = decide (k = [g].length)) ∧
    20 < (d ++ r ++ [g].flatten).length ∧ (0x05 : Byte).toNat % 4 = 1 ∧ (0x02 : Byte).toNat % 2 = 0 ∧
    (0x13 : Byte).toNat % 4 = 3 ∧ Returns (.addrUnpack d 0) wide (.ok (.unpacked ⟨[], 0, 0b011, true⟩)) ∧
    Returns (.addrUnpack r 0) wide (.ok (.unpacked ⟨[0x41], 0, 0b000, false⟩)) ∧
    List.Forall₂ (fun g u => Returns (.addrUnpack g 0) wide (.ok (.unpacked u))) [g] [⟨[0x61], 0, 0b101, true⟩] := by
  refine ⟨by decide, ?_, by decide, by decide, by decide, by decide, next_setResult_iff.mpr (by decide),
    next_setResult_iff.mpr (by decide), .cons (next_setResult_iff.mpr (by decide)) .nil⟩
  rintro (_ | _ | k) a h
  · cases h; decide
  · cases h; decide
  · cases h

theorem wit_PathDecodeParsesTheTokensInOrder :
    (0x3A : Byte) ∉ ([0x41, 0x3E, 0x42] : Bytes) ∧ (0x3E : Byte) ∉ ([0x41, 0x42] : Bytes) ∧
    (0x3E ∉ aprs ∧ 0x3A ∉ aprs) ∧ (∀ t ∈ aprs :: [aprs, []], 0x2C ∉ t ∧ 0x3A ∉ t) ∧
    Returns (.addrParse aprs) wide (.ok (.addr ⟨aprs, 0, false⟩)) ∧
    Returns (.addrParse []) wide (.fail ⟨.malformedAddress, 1, 0x33⟩) ∧
    List.Forall₂ (fun t g => Returns (.addrParse t) wide (.ok (.addr g))) [aprs] [⟨aprs, 0, false⟩] ∧
    ([aprs, []] : List Bytes) = [aprs] ++ [] :: [] :=
  ⟨by decide, by decide, by decide, by decide, next_setResult_iff.mpr (by decide), next_setResult_iff.mpr (by decide),
    .cons (next_setResult_iff.mpr (by decide)) .nil, rfl⟩

/-- Each address in turn the one that fails, and none. -/
theorem wit_BinaryEncodePacksTheChainInOrder :
    Returns (.addrPack ⟨[0xC9], 0, false⟩ false) wide (.fail ⟨.encodingFailure, 0xC9, 0x34⟩) ∧
    Returns (.addrPack ⟨[0xC9], 0, false⟩ true) wide (.fail ⟨.encodingFailure, 0xC9, 0x34⟩) ∧
    Returns (.addrPack ⟨aprs, 0, false⟩ false) wide (.ok (.bytes [0x82, 0xA0, 0xA4, 0xA6, 0x40, 0x40, 0x60])) ∧
    Returns (.addrPack ⟨aprs, 0, false⟩ true) wide (.ok (.bytes [0x82, 0xA0, 0xA4, 0xA6, 0x40, 0x40, 0x61])) ∧
    1 < ([⟨aprs, 0, false⟩, ⟨[0xC9], 0, false⟩] : List Addr).length :=
  ⟨next_setResult_iff.mpr (by decide), next_setResult_iff.mpr (by decide), next_setResult_iff.mpr (by decide),
    next_setResult_iff.mpr (by decide), by decide⟩

theorem wit_OnlyTheLastAddressHasTheExtensionBit :
    Returns (.lfEncb frame) wide (.ok (.bytes body)) ∧ 0 < frame.digis.length + 2 ∧ 1 < frame.digis.length + 2 :=
  ⟨next_setResult_iff.mpr (by decide), by decide, by decide⟩

theorem wit_PathEncodeWritesTheChainAsText :
    Returns (.addrFmt oe9tkh 8) wide (.ok (.bytes (oe9tkh ++ [0x2D, 0x38]))) ∧ Returns (.addrFmt aprs 0) wide (.ok (.bytes aprs)) ∧
    List.Forall₂ (fun (g : Addr) t => Returns (.addrFmt g.call g.ssid) wide (.ok (.bytes t))) [⟨aprs, 0, true⟩] [aprs] :=
  ⟨next_setResult_iff.mpr (by decide), next_setResult_iff.mpr (by decide), .cons (next_setResult_iff.mpr (by decide)) .nil⟩

theorem wit_LinkFrameRoundTripsInBothDialects :
    frame.WellFormed ∧ LinkFrame.WellFormed ⟨⟨aprs, 0, false⟩, ⟨oe9tkh, 8, false⟩, [⟨oe9tkh, 15, true⟩, ⟨aprs, 0, false⟩],
      0x03, 0xF0, [0xC0]⟩ :=
  ⟨frame_wf, by decide, by decide, by decide, by decide, by decide, by decide, by decide⟩

/-- Reports off; a message; a newline stripped, in the path dialect or by `STRIP_NL_BINARY`; none to strip; one kept. -/
theorem wit_SignalReportIsAppendedExceptToMessages :
    wide.appendReport = false ∧ ([0x3A, 0x78] : Bytes) = 0x3A :: [0x78] ∧ path.appendReport = true ∧
    ([0x21, 0x0A] : Bytes).head? ≠ some 0x3A ∧ ([0x21, 0x0A] : Bytes) = [0x21] ++ [0x0A] ∧ path.dialect = .path ∧
    ([] : Bytes).getLast? ≠ some 0x0A ∧ ({ path with dialect := .binary } : State).dialect = .binary ∧
    path.params.stripNlBinary = false := by decide

theorem wit_RepackingNormalisesTheListedBitsOnly :
    Returns (.lfDecb body) wide (.ok (.frame frame)) ∧ 1 < frame.digis.length + 2 ∧ wide.dialect = .binary ∧
    Returns (.unwrap delimited) wide (.ok (.cmdBody 0x00 body)) ∧ wide.params.qdepth ≠ some wide.txq.length :=
  ⟨next_setResult_iff.mpr (by decide), by decide, rfl, next_setResult_iff.mpr (by decide), by decide⟩

/-- The first occurrence, and the second. -/
theorem wit_SeparatorsSplitThePath :
    aprs ++ 0x3E :: [0x42] = aprs ++ 0x3E :: [0x42] ∧ [0x41, 0x3E] ++ 0x3E :: ([] : Bytes) = [0x41] ++ 0x3E :: [0x3E] ∧
    (0x3E : Byte) ∉ ([0x41] : Bytes) ∧ [0x3A] ++ 0x3A :: ([] : Bytes) = [] ++ 0x3A :: [0x3A] ∧ (0x3E : Byte) ∉ aprs ∧ (0x3A : Byte) ∉ aprs ∧ ∀ t ∈ aprs :: [] :: ([[0x41]] ++ [[]]), (0x2C : Byte) ∉ t := by decide

theorem wit_TokenCharactersGiveStarAndSsid :
    (([] : Bytes) ++ 0x2A :: [0x2A] = [0x2A] ++ [0x2A] ∧ (([] : Bytes) ++ 0x2A :: [0x41]).getLast? ≠ some 0x2A ∧
      [0x41, 0x2D] ++ 0x2D :: ([] : Bytes) = [0x41] ++ 0x2D :: [0x2D]) ∧ (0x2D : Byte) ∉ aprs ∧ SsidText 15 [0x31, 0x35] ∧ SsidText 0 [0x30] ∧ (∀ v, ¬SsidText v []) ∧ (9 : BitVec 4).toNat ≤ 9 ∧
    SsidText 9 ([] ++ BitVec.ofNat 8 (0x30 + (9 : BitVec 4).toNat) :: []) := by
  refine ⟨by decide, by decide, ⟨by decide, .inr (by decide)⟩, ⟨by decide, .inl (by decide)⟩, ?_, by decide,
    ⟨by decide, .inl (by decide)⟩⟩
  rintro v ⟨_, ⟨h, _⟩ | h⟩ <;> cases h

theorem wit_SpaceAndNewlineHaveTheirRoles :
    aprs.length ≤ 6 ∧ oe9tkh.length ≤ 6 ∧ 6 < (oe9tkh ++ [0x41]).length ∧ (∀ c ∈ aprs, c.toNat ≤ 0x7F) ∧ ([0x41, 0x80] : Bytes) = [0x41] ++ 0x80 :: [] ∧ 0x7F < (0x80 : Byte).toNat ∧
    aprs.getLast? ≠ some 0x20 ∧ wide.appendReport = false ∧ ([0x3A] ++ 0x0A :: [] : Bytes).head? = some 0x3A ∧
    path.appendReport = true ∧ ([] ++ 0x0A :: [] : Bytes).head? ≠ some 0x3A ∧ ([] ++ 0x0A :: [] : Bytes) = [] ++ [0x0A] ∧
    path.dialect = .path ∧ ([] ++ 0x0A :: [0x41] : Bytes).getLast? ≠ some 0x0A ∧
    ({ path with dialect := .binary } : State).dialect = .binary ∧ path.params.stripNlBinary = false := by decide

end Sys2Proof.Tests
end

/-! # Scope: what one step does

One equation per case of `step`, for the proofs that run the machine a step at a time. -/

section
namespace Sys2Proof.Machine

variable {s : State} {w : PortWord} {rest : List PortWord}

/-- With nothing presented the state stays as it is (log entry 9). -/
theorem step_of_pending_nil (hs : s.pending = []) : step s = .next s := by
  simp only [step, hs]

/-- The first word presented is taken, and its instruction runs on what is left. -/
theorem step_of_decode_ok {i : Instr} (hs : s.pending = w :: rest) (hw : decode w = .ok i) :
    step s = exec i { s with pending := rest } := by
  simp only [step, hs, hw]

/-- R121, and log entry 24 for the other ports: a word that is no instruction is taken without effect. -/
theorem step_of_decode_error {e : DecodeError} (hs : s.pending = w :: rest) (hw : decode w = .error e) :
    step s = .next { s with pending := rest } := by
  simp only [step, hs, hw]

end Sys2Proof.Machine
end

section
namespace Sys2Proof.Proofs
open Sys2Proof.Machine

/-- Settles O4, by the equation of `step` for each of its three cases. -/
theorem stepRunsTheDecodedInstruction : Obligations.StepRunsTheDecodedInstruction := by
  intro s
  refine ⟨step_of_pending_nil, fun w rest hs => ⟨?ok, ?error⟩⟩
  case ok => exact fun i hw => step_of_decode_ok hs hw
  case error => exact fun e hw => step_of_decode_error hs hw

end Sys2Proof.Proofs
end

/-! # State: the invariant, and the writers of each element

What follows settles the statements about the state tuple: the step lemma of `Inv`, the state after reset, which
instruction writes which element, and that one peer's bytes stay with that peer. -/

section
namespace Sys2Proof.Machine

/-! ## What an instruction that ran has done -/

variable {i : Instr} {s t : State} {p : Nat}

/-- `exec_effect` read from an outcome that is given. -/
theorem effect_of_exec (h : exec i s = .next t) : Effect i s t := by
  obtain ⟨u, hu, heff⟩ := exec_effect i s
  cases h.symm.trans hu
  exact heff

/-- R91: the five instructions that are a transport byte met at `site`. -/
def IsTransportAt (site : TSite) (i : Instr) : Prop :=
  i = .mark site ∨ i = .escb site ∨ i = .subm site ∨ i = .sube site ∨ ∃ d, i = .data site d

theorem IsTransportAt.exec_eq {site : TSite} (h : IsTransportAt site i) :
    ∃ c, exec i s = .next (transportByte site c s) := by
  rcases h with rfl | rfl | rfl | rfl | ⟨d, rfl⟩ <;> exact ⟨_, rfl⟩

theorem IsDelimiterInstr.cases (h : IsDelimiterInstr p i) :
    (∃ c, i = .dlmByte p c) ∨ (∃ cs, i = .dlmParse p cs) ∨ i = .dlmReset p ∨ IsTransportAt (.delimiter p) i := by
  cases i <;> simp_all [IsDelimiterInstr, IsTransportAt]

theorem IsUnescByte.cases (h : IsUnescByte i) : ∃ first last, IsTransportAt (.unesc first last) i := by
  cases i <;> simp_all [IsUnescByte, IsTransportAt]

theorem IsFrameInstr.cases (h : IsFrameInstr p i) :
    (∃ f, i = .brFrame p f) ∨ (∃ b, i = .cmdData (.frame p b)) ∨ ∃ c b, i = .cmdOther p c b := by
  match i, h with
  | .brFrame _ f, rfl => exact .inl ⟨f, rfl⟩
  | .cmdData (.frame _ b), rfl => exact .inr (.inl ⟨b, rfl⟩)
  | .cmdOther _ c b, rfl => exact .inr (.inr ⟨c, b, rfl⟩)

/-- An instruction of the delimiter is a DLM.PARSE of its bytes, or DLM.RESET, but for what it returns. -/
theorem IsDelimiterInstr.exec_eq (h : IsDelimiterInstr p i) (s : State) :
    ∃ u r, exec i s = .next (u.setResult r) ∧ (u = dlmReset p s ∨ ∃ cs, u = (dlmParse p cs s).1) := by
  obtain ⟨c, rfl⟩ | ⟨cs, rfl⟩ | rfl | hsite := h.cases
  · exact ⟨_, _, rfl, .inr ⟨[c], rfl⟩⟩
  · exact ⟨_, _, rfl, .inr ⟨cs, rfl⟩⟩
  · exact ⟨_, _, rfl, .inl rfl⟩
  · obtain ⟨c, hc⟩ := hsite.exec_eq (s := s)
    exact ⟨_, _, hc, .inr ⟨[c], rfl⟩⟩

end Sys2Proof.Machine
end

section
namespace Sys2Proof.Machine

/-! ## The invariant of one peer -/

variable {max : Option Nat} {q : Peer}

theorem WithinCap.zero (cap : Option Nat) : WithinCap cap 0 := fun m _ => Nat.zero_le m

/-- One more fits where the capacity is not reached. -/
theorem WithinCap.succ {cap : Option Nat} {n : Nat} (h : WithinCap cap n) (hfull : cap ≠ some n) :
    WithinCap cap (n + 1) := by
  intro m hm
  exact Nat.lt_of_le_of_ne (h m hm) fun hn => hfull (hn ▸ hm)

/-- R21, R24, R25: what the invariant says of the two delimiter registers of one peer. -/
structure RegsOk (max : Option Nat) (dst : Dst) (buf : Bytes) : Prop where
  shape : BufShape dst buf
  fits : WithinCap max buf.length
  overrunFinite : dst = .overrun → max ≠ none

theorem RegsOk.idle : RegsOk max .idle [] := ⟨rfl, .zero max, nofun⟩

theorem RegsOk.overrun {m : Nat} (hm : max = some m) : RegsOk max .overrun [] :=
  ⟨rfl, .zero max, fun _ => by simp [hm]⟩

theorem RegsOk.started (hmax : ∀ m, max = some m → 3 ≤ m) : RegsOk max .started [cMark] :=
  ⟨rfl, fun m hm => Nat.le_trans (by decide) (hmax m hm), nofun⟩

/-- One byte other than the marker, where the buffer has room. -/
theorem RegsOk.inBody {rest : Bytes} {c : Byte} (hrest : cMark ∉ rest) (hc : c ≠ cMark)
    (hfits : WithinCap max (cMark :: rest ++ [c]).length) : RegsOk max .inBody (cMark :: rest ++ [c]) := by
  refine ⟨⟨rest ++ [c], rfl, by simp, fun hmem => ?_⟩, hfits, nofun⟩
  rcases List.mem_append.mp hmem with h | h
  · exact hrest h
  · exact hc (List.mem_singleton.mp h).symm

/-- R151 to R155: each transition gives a buffer that fits and has the shape of the next delimiter state. -/
theorem RegsOk.dlmTransition {dst : Dst} {buf : Bytes} (h : RegsOk max dst buf) (hmax : ∀ m, max = some m → 3 ≤ m)
    (c : Byte) : RegsOk max (dlmTransition max dst buf c).1 (dlmTransition max dst buf c).2.1 := by
  obtain ⟨hshape, hfits, hover⟩ := h
  cases dst with
  | idle =>
    cases (hshape : buf = [])
    dsimp only [Machine.dlmTransition]
    split_ifs
    · exact .started hmax
    · exact .idle
  | started =>
    cases (hshape : buf = [cMark])
    dsimp only [Machine.dlmTransition]
    split_ifs with hc
    · exact .idle
    · exact .inBody (rest := []) List.not_mem_nil hc fun m hm => Nat.le_of_succ_le (hmax m hm)
  | inBody =>
    obtain ⟨rest, rfl, -, hrest⟩ := hshape
    dsimp only [Machine.dlmTransition]
    split_ifs with hfull hc hc
    · exact .idle
    · exact .overrun hfull
    · exact .idle
    · exact .inBody hrest hc (by rw [List.length_append]; exact hfits.succ hfull)
  | overrun =>
    cases (hshape : buf = [])
    dsimp only [Machine.dlmTransition]
    split_ifs
    · exact .idle
    · exact ⟨rfl, hfits, hover⟩

/-- The invariant of a peer is that of its registers and that of what was written to it. -/
theorem PeerOk.of_regs (h : RegsOk max q.dst q.buf) (hw : ∀ b ∈ q.netTx, Delimited b ∧ b[1]? = some cCmdData) :
    PeerOk max q :=
  ⟨h.shape, h.fits, h.overrunFinite, hw⟩

theorem PeerOk.regs (h : PeerOk max q) : RegsOk max q.dst q.buf := ⟨h.shape, h.fits, h.overrunFinite⟩

theorem PeerOk.dlmNext (h : PeerOk max q) (hmax : ∀ m, max = some m → 3 ≤ m) (c : Byte) :
    PeerOk max (q.dlmNext max c) :=
  .of_regs (h.regs.dlmTransition hmax c) h.writes

/-- R131: ESC writes no marker. -/
theorem mark_notMem_escBytes (b : Bytes) : cMark ∉ escBytes b := by
  rw [escBytes, List.mem_flatMap]
  rintro ⟨c, _, hc⟩
  exact mark_notMem_escByte c hc

/-- R160: WRAP gives one delimited frame. -/
theorem delimited_wrapBytes (body : Bytes) : Delimited (wrapBytes body) :=
  ⟨cCmdData :: escBytes body, rfl, List.cons_ne_nil _ _,
    List.not_mem_cons_of_ne_of_not_mem (by decide) (mark_notMem_escBytes body)⟩

/-- R262: a wrapped body is a write the invariant allows. -/
theorem PeerOk.write (h : PeerOk max q) (body : Bytes) :
    PeerOk max { q with netTx := q.netTx ++ [wrapBytes body] } := by
  refine .of_regs h.regs fun b hb => ?_
  rcases List.mem_append.mp hb with hb | hb
  · exact h.writes b hb
  · rw [List.mem_singleton.mp hb]
    exact ⟨delimited_wrapBytes body, rfl⟩

/-! ## The invariant of the machine -/

variable {i : Instr} {s t : State} {p : Nat}

/-- The invariant reads only the parameters, the peers and the length of the queue. -/
theorem Inv.of_kept (h : Inv s) (hparams : t.params = s.params) (hnpeers : t.npeers = s.npeers)
    (hpeers : ∀ q ∈ t.peers, PeerOk s.params.maxframe q) (hqueue : WithinCap s.params.qdepth t.txq.length) : Inv t where
  params := hparams ▸ h.params
  somePeer := hnpeers ▸ h.somePeer
  peers := hparams ▸ hpeers
  queue := hparams ▸ hqueue

theorem Inv.congr (h : Inv s) (hparams : t.params = s.params) (hpeers : t.peers = s.peers) (htxq : t.txq = s.txq) :
    Inv t :=
  h.of_kept hparams (by simp [State.npeers, hpeers]) (hpeers ▸ h.peers) (htxq ▸ h.queue)

theorem forall_mem_modify {α : Type} {P : α → Prop} {f : α → α} {l : List α} (hl : ∀ a ∈ l, P a)
    (hf : ∀ a, P a → P (f a)) (n : Nat) : ∀ a ∈ l.modify n f, P a := by
  intro a ha
  obtain ⟨k, hk⟩ := List.mem_iff_getElem?.mp ha
  rw [List.getElem?_modify] at hk
  obtain ⟨b, hb, rfl⟩ := Option.map_eq_some_iff.mp hk
  have hbP : P b := hl b (List.mem_of_getElem? hb)
  split
  · exact hf b hbP
  · exact hbP

/-- A write to one peer's registers keeps the invariant if it keeps that of the peer. -/
theorem Inv.updPeer (h : Inv s) (p : Nat) {f : Peer → Peer}
    (hf : ∀ q, PeerOk s.params.maxframe q → PeerOk s.params.maxframe (f q)) : Inv (s.updPeer p f) :=
  h.of_kept rfl (updPeer_length s p f) (forall_mem_modify h.peers hf p) h.queue

theorem Inv.pushTx (h : Inv s) (hq : s.queueFull = false) (item : Bytes) : Inv (s.pushTx item) := by
  have hroom : s.params.qdepth ≠ some s.txq.length := by simpa [State.queueFull] using hq
  refine h.of_kept rfl rfl h.peers ?_
  rw [pushTx_txq, List.length_append]
  exact h.queue.succ hroom

theorem Inv.popToRadio {item : Bytes} {rest : List Bytes} (h : Inv s) (hq : s.txq = item :: rest) :
    Inv (s.popToRadio item rest) := by
  refine h.of_kept rfl rfl h.peers fun m hm => ?_
  have := h.queue m hm
  rw [hq, List.length_cons] at this
  exact Nat.le_of_succ_le this

theorem Inv.netWriteAll (h : Inv s) (body : Bytes) : Inv (s.netWriteAll (wrapBytes body)) := by
  refine h.of_kept rfl (by simp [State.npeers]) (List.forall_mem_map.mpr fun q hq => ?_) h.queue
  split
  · exact (h.peers q hq).write body
  · exact h.peers q hq

theorem Inv.brReset (h : Inv s) (d : Dialect) (a : Bool) : Inv (brReset d a s) :=
  h.of_kept rfl (by simp [State.npeers])
    (List.forall_mem_map.mpr fun q hq => .of_regs .idle (h.peers q hq).writes) (.zero _)

theorem Inv.netrxByte (h : Inv s) (p : Nat) (c : Byte) : Inv (netrxByte p c s) := by
  have hbyte := h.updPeer p fun q hq => hq.dlmNext h.params.maxframe c
  obtain ⟨t, rfl, ht | ⟨e, ht⟩ | ⟨item, hroom, ht⟩⟩ := netrxByte_cases p c s <;> rw [ht]
  · exact hbyte
  · exact hbyte.congr rfl rfl rfl
  · exact hbyte.pushTx hroom item

theorem Inv.brNetrxLoop (h : Inv s) (p : Nat) (cs : Bytes) : Inv (brNetrxLoop p cs s) :=
  brNetrxLoop_keeps (P := Inv) (fun c _ hi => hi.netrxByte p c) cs s h

theorem Inv.dlmParse (p : Nat) : ∀ (cs : Bytes) {s : State}, Inv s → Inv (dlmParse p cs s).1
  | [], _, h => h
  | c :: cs, s, h => by
    rw [dlmParse_cons, dlmByte_fst]
    exact Inv.dlmParse p cs (h.updPeer p fun q hq => hq.dlmNext h.params.maxframe c)

theorem Inv.dlmReset (h : Inv s) (p : Nat) : Inv (dlmReset p s) :=
  h.updPeer p fun _ hq => .of_regs .idle hq.writes

/-- The delimiter's own instructions, for which `Effect` does not say what is written. -/
theorem Inv.exec_delimiterInstr (hs : Inv s) (h : IsDelimiterInstr p i) (ht : exec i s = .next t) : Inv t := by
  obtain ⟨u, r, hu, rfl | ⟨cs, rfl⟩⟩ := h.exec_eq s <;> cases ht.symm.trans hu
  · exact (hs.dlmReset p).congr rfl rfl rfl
  · exact (hs.dlmParse p cs).congr rfl rfl rfl

/-- Every instruction keeps the invariant. -/
theorem Inv.exec (hs : Inv s) (ht : exec i s = .next t) : Inv t := by
  cases effect_of_exec ht with
  | result | nothing | logged | stopped | serial => exact hs.congr rfl rfl rfl
  | reset d a => exact hs.brReset d a
  | connection p c => exact hs.updPeer p fun _ hq => .of_regs .idle hq.writes
  | chunk p cs => exact hs.brNetrxLoop p cs
  | pushed item hroom => exact hs.pushTx hroom item
  | written body => exact hs.netWriteAll body
  | sent item rest _ hq => exact hs.popToRadio hq
  | delimiter p f r _ h => exact hs.exec_delimiterInstr h ht

/-- R55: the state after reset is a good one. -/
theorem inv_reset : Inv State.reset where
  params := ⟨nofun, nofun⟩
  somePeer := by decide
  peers q hq := by
    rw [List.eq_of_mem_replicate hq]
    exact .of_regs .idle nofun
  queue := .zero _

end Sys2Proof.Machine
end

section
namespace Sys2Proof.Proofs
open Sys2Proof.Machine

/-- Settles O6: a step takes a word, which the invariant does not read, and runs at most one instruction. -/
theorem stepKeepsTheInvariant : Obligations.StepKeepsTheInvariant := by
  intro s t hs ht
  cases hp : s.pending with
  | nil =>
    cases (step_of_pending_nil hp).symm.trans ht
    exact hs
  | cons w rest =>
    have htaken : Inv { s with pending := rest } := hs.congr rfl rfl rfl
    cases hw : decode w with
    | ok i => exact htaken.exec ((step_of_decode_ok hp hw).symm.trans ht)
    | error e =>
      cases (step_of_decode_error hp hw).symm.trans ht
      exact htaken

/-- Settles O7: the values are those of the table of R55, and BR.RESET writes them again. -/
theorem resetStateHasTheGivenValuesAndTheInvariant : Obligations.ResetStateHasTheGivenValuesAndTheInvariant := by
  refine ⟨inv_reset, rfl, rfl, fun q hq => ?_, rfl⟩
  rw [List.eq_of_mem_replicate hq]
  exact ⟨rfl, rfl, rfl⟩

end Sys2Proof.Proofs
end

section
namespace Sys2Proof.Machine

/-! ## Which effect writes which element -/

variable {i : Instr} {s t : State} {p : Nat}

theorem isEvent_of_isPure (h : isPure i = true) : isEvent i = false ∧ ∀ p c, i ≠ .brFrame p c := by
  cases i <;> simp_all [isPure, isEvent]

theorem IsTransportAt.not_event {site : TSite} (h : IsTransportAt site i) :
    isEvent i = false ∧ ∀ p c, i ≠ .brFrame p c := by
  rcases h with rfl | rfl | rfl | rfl | ⟨d, rfl⟩ <;> exact ⟨rfl, nofun⟩

theorem IsDelimiterInstr.not_event (h : IsDelimiterInstr p i) : isEvent i = false ∧ ∀ p c, i ≠ .brFrame p c := by
  obtain ⟨c, rfl⟩ | ⟨cs, rfl⟩ | rfl | hsite := h.cases
  · exact ⟨rfl, nofun⟩
  · exact ⟨rfl, nofun⟩
  · exact ⟨rfl, nofun⟩
  · exact hsite.not_event

/-- R262: a write to the peers changes nothing of a peer but what was written to it. -/
theorem netWriteAll_map_eq {α : Type} (g : Peer → α) (hg : ∀ q n, g { q with netTx := n } = g q) (s : State)
    (out : Bytes) : (s.netWriteAll out).peers.map g = s.peers.map g := by
  rw [netWriteAll_peers, List.map_map]
  refine List.map_congr_left fun q _ => ?_
  rw [Function.comp]
  split
  · exact hg q _
  · rfl

namespace Effect

theorem cfg_writers (h : Effect i s t) :
    (t.dialect = s.dialect ∧ t.appendReport = s.appendReport) ∨
      ∃ d a, i = .brReset d a ∧ t.dialect = d ∧ t.appendReport = a := by
  cases h with
  | reset d a h => exact .inr ⟨d, a, h, rfl, rfl⟩
  | chunk p cs =>
    have hframe := brNetrxLoop_frame p cs s
    exact .inl ⟨hframe.dialect, hframe.appendReport⟩
  | _ => exact .inl ⟨rfl, rfl⟩

theorem params_kept (h : Effect i s t) : t.params = s.params := by
  cases h with
  | chunk p cs => exact (brNetrxLoop_frame p cs s).params
  | _ => rfl

theorem pending_kept (h : Effect i s t) : t.pending = s.pending := by
  cases h with
  | chunk p cs => exact (brNetrxLoop_frame p cs s).pending
  | _ => rfl

theorem npeers_kept (h : Effect i s t) : t.npeers = s.npeers := by
  cases h with
  | reset | written => exact List.length_map _
  | connection p | delimiter p => exact updPeer_length s p _
  | chunk p cs => simpa [State.npeers] using congrArg List.length (brNetrxLoop_frame p cs s).conn
  | _ => rfl

theorem run_writers (h : Effect i s t) (hne : t.run ≠ s.run) : i = .brStop ∨ ∃ d a, i = .brReset d a := by
  cases h with
  | reset d a h => exact .inr ⟨d, a, h⟩
  | stopped _ h => exact .inl h
  | chunk p cs => exact absurd (brNetrxLoop_frame p cs s).run hne
  | _ => exact absurd rfl hne

theorem conn_writers (h : Effect i s t) (hne : t.peers.map (·.conn) ≠ s.peers.map (·.conn)) :
    (∃ d a, i = .brReset d a) ∨ (∃ p, i = .brConn p) ∨ ∃ p, i = .brDisc p := by
  cases h with
  | reset d a h => exact .inl ⟨d, a, h⟩
  | connection p c _ h =>
    obtain ⟨h, -⟩ | ⟨h, -⟩ := h
    · exact .inr (.inl ⟨p, h⟩)
    · exact .inr (.inr ⟨p, h⟩)
  | chunk p cs => exact absurd (brNetrxLoop_frame p cs s).conn hne
  | delimiter p f r hf => exact absurd (map_modify_eq _ f (fun q => (hf q).1) _ p) hne
  | written body => exact (hne (netWriteAll_map_eq _ (fun _ _ => rfl) s _)).elim
  | _ => exact absurd rfl hne

theorem delimiter_writers (h : Effect i s t)
    (hne : t.peers.map (fun q => (q.dst, q.buf)) ≠ s.peers.map (fun q => (q.dst, q.buf))) :
    (∃ d a, i = .brReset d a) ∨ (∃ p, i = .brConn p ∨ i = .brDisc p) ∨ (∃ p c, i = .brNetrx p c) ∨
      ∃ p, IsDelimiterInstr p i := by
  cases h with
  | reset d a h => exact .inl ⟨d, a, h⟩
  | connection p c _ h => exact .inr (.inl ⟨p, h.imp And.left And.left⟩)
  | chunk p cs _ _ h => exact .inr (.inr (.inl ⟨p, cs, h⟩))
  | delimiter p f r _ h => exact .inr (.inr (.inr ⟨p, h⟩))
  | written body => exact (hne (netWriteAll_map_eq _ (fun _ _ => rfl) s _)).elim
  | _ => exact absurd rfl hne

theorem netTx_writers (h : Effect i s t) (hne : t.peers.map (·.netTx) ≠ s.peers.map (·.netTx)) :
    ∃ b r n, i = .brRadiorx b r n := by
  cases h with
  | reset d a => exact absurd (List.map_map ..) hne
  | connection p =>
    refine absurd (map_modify_eq Peer.netTx _ ?_ _ p) hne
    exact fun _ => rfl
  | chunk p cs => exact absurd (brNetrxLoop_frame p cs s).netTx hne
  | written body _ b r n h => exact ⟨b, r, n, h⟩
  | delimiter p f r hf => exact absurd (map_modify_eq _ f (fun q => (hf q).2) _ p) hne
  | _ => exact absurd rfl hne

theorem txq_writers (h : Effect i s t) (hw : i.wf = true) (hne : t.txq ≠ s.txq) :
    (∃ d a, i = .brReset d a) ∨ (∃ p c, i = .brNetrx p c ∨ i = .brFrame p c) ∨
      (∃ p b, i = .cmdData (.frame p b)) ∨ i = .brTxpoll true := by
  cases h with
  | reset d a h => exact .inl ⟨d, a, h⟩
  | chunk p cs _ _ h => exact .inr (.inl ⟨p, cs, .inl h⟩)
  | pushed item _ p h hother =>
    obtain ⟨f, h⟩ | ⟨b, h⟩ | ⟨c, b, h⟩ := h.cases
    · exact .inr (.inl ⟨p, f, .inr h⟩)
    · exact .inr (.inr (.inl ⟨p, b, h⟩))
    · exact absurd h (hother c b hw)
  | sent item rest _ _ h => exact .inr (.inr (.inr h))
  | _ => exact absurd rfl hne

theorem radioTx_writers (h : Effect i s t) (hne : t.radioTx ≠ s.radioTx) : i = .brTxpoll true := by
  cases h with
  | sent item rest _ _ h => exact h
  | chunk p cs => exact absurd (brNetrxLoop_frame p cs s).radioTx hne
  | _ => exact absurd rfl hne

theorem log_writers (h : Effect i s t) (hne : t.log ≠ s.log) :
    (∃ p c, i = .brNetrx p c ∨ i = .brFrame p c) ∨ (∃ b r n, i = .brRadiorx b r n) ∨
      (∃ p b, i = .cmdData (.frame p b)) ∨ ∃ p c b, i = .cmdOther p c b := by
  cases h with
  | chunk p cs _ _ h => exact .inl ⟨p, cs, .inl h⟩
  | logged d p e h =>
    obtain ⟨-, -, -, h⟩ | ⟨-, h⟩ := h
    · exact .inr (.inl h)
    · obtain ⟨f, h⟩ | ⟨b, h⟩ | ⟨c, b, h⟩ := h.cases
      · exact .inl ⟨p, f, .inr h⟩
      · exact .inr (.inr (.inl ⟨p, b, h⟩))
      · exact .inr (.inr (.inr ⟨p, c, b, h⟩))
  | _ => exact absurd rfl hne

theorem escp_writers (h : Effect i s t) (hne : t.escp ≠ s.escp) : (∃ d a, i = .brReset d a) ∨ IsUnescByte i := by
  cases h with
  | reset d a h => exact .inl ⟨d, a, h⟩
  | serial e r h => exact .inr h
  | chunk p cs => exact absurd (brNetrxLoop_frame p cs s).escp hne
  | _ => exact absurd rfl hne

theorem result_writers (h : Effect i s t) (hne : t.result ≠ s.result) :
    isEvent i = false ∧ ∀ p c, i ≠ .brFrame p c := by
  cases h with
  | result r h => exact isEvent_of_isPure h
  | delimiter p f r _ h => exact h.not_event
  | serial e r h =>
    obtain ⟨first, last, hsite⟩ := h.cases
    exact hsite.not_event
  | chunk p cs => exact absurd (brNetrxLoop_frame p cs s).result hne
  | _ => exact absurd rfl hne

end Effect

end Sys2Proof.Machine
end

section
namespace Sys2Proof.Proofs
open Sys2Proof.Machine

/-- Settles O9: of the effects an instruction can have, only that of BR.RESET writes `CFG`. -/
theorem onlyResetWritesTheConfiguration : Obligations.OnlyResetWritesTheConfiguration :=
  fun _ _ _ h => (effect_of_exec h).cfg_writers

/-- Settles O10, element by element, from the effect the instruction has. -/
theorem eachStateElementHasItsWriters : Obligations.EachStateElementHasItsWriters := by
  intro i s t hw h
  have heff := effect_of_exec h
  refine ⟨heff.params_kept, heff.pending_kept, heff.npeers_kept, heff.run_writers, heff.conn_writers, ?delimiter,
    heff.netTx_writers, heff.txq_writers hw, heff.radioTx_writers, heff.log_writers, ?escp, heff.result_writers⟩
  case delimiter =>
    intro hne
    obtain hr | ⟨p, h | h⟩ | ⟨p, c, h⟩ | ⟨p, h⟩ := heff.delimiter_writers hne
    · exact .inl hr
    · exact .inr (.inl ⟨p, .inl h⟩)
    · exact .inr (.inl ⟨p, .inr (.inl h)⟩)
    · exact .inr (.inr (.inl ⟨p, c, .inl h⟩))
    · obtain ⟨c, h⟩ | ⟨cs, h⟩ | h | hsite := h.cases
      · exact .inr (.inr (.inr (.inl ⟨p, c, h⟩)))
      · exact .inr (.inr (.inl ⟨p, cs, .inr h⟩))
      · exact .inr (.inl ⟨p, .inr (.inr h)⟩)
      · exact .inr (.inr (.inr (.inr ⟨p, hsite⟩)))
  case escp => exact fun hne => (heff.escp_writers hne).imp id IsUnescByte.cases

end Sys2Proof.Proofs
end

section
namespace Sys2Proof.Machine

/-! ## BR.NETRX and the other peers -/

variable {p p' : Nat}

theorem dlmByte_updPeer_ne (hp : p ≠ p') (c : Byte) (s : State) (f : Peer → Peer) :
    dlmByte p c (s.updPeer p' f) = ((dlmByte p c s).1.updPeer p' f, (dlmByte p c s).2) := by
  apply Prod.ext
  · rw [dlmByte_fst, dlmByte_fst]
    simp only [State.updPeer]
    rw [List.modify_modify_ne _ _ _ hp.symm]
  · unfold dlmByte
    rw [updPeer_peers, List.getElem?_modify_ne _ _ hp.symm]
    cases s.peers[p]? <;> rfl

theorem netrxByte_updPeer_ne (hp : p ≠ p') (c : Byte) (s : State) (f : Peer → Peer) :
    netrxByte p c (s.updPeer p' f) = (netrxByte p c s).updPeer p' f := by
  rw [netrxByte, dlmByte_updPeer_ne hp, brDelimited_updPeer, netrxByte]

theorem brNetrxLoop_updPeer_ne (hp : p ≠ p') (f : Peer → Peer) : ∀ (cs : Bytes) (s : State),
    brNetrxLoop p cs (s.updPeer p' f) = (brNetrxLoop p cs s).updPeer p' f
  | [], _ => rfl
  | c :: cs, s => by
    rw [brNetrxLoop_cons, brNetrxLoop_cons, netrxByte_updPeer_ne hp, brNetrxLoop_updPeer_ne hp f cs]

theorem isConnected_updPeer_ne (hp : p ≠ p') (s : State) (f : Peer → Peer) :
    isConnected p (s.updPeer p' f) = isConnected p s := by
  rw [isConnected, updPeer_peers, List.getElem?_modify_ne _ _ hp.symm, isConnected]

/-- R22: BR.NETRX does not read another peer, so a write to that peer goes past it. -/
theorem brNetrx_updPeer_ne (hp : p ≠ p') (cs : Bytes) (s : State) (f : Peer → Peer) :
    brNetrx p cs (s.updPeer p' f) = (brNetrx p cs s).updPeer p' f := by
  rw [brNetrx, brNetrx, isConnected_updPeer_ne hp, brNetrxLoop_updPeer_ne hp]
  unfold whenRunning
  rw [updPeer_run]
  split
  · split <;> rfl
  · rfl

theorem netrxByte_peer_ne (hp : p ≠ p') (c : Byte) (s : State) : (netrxByte p c s).peers[p']? = s.peers[p']? := by
  rw [netrxByte, (brDelimited_keeps _ _ _).2, dlmByte_fst, updPeer_peers, List.getElem?_modify_ne _ _ hp]

/-- R22: BR.NETRX does not write another peer. -/
theorem brNetrx_peer_ne (hp : p ≠ p') (cs : Bytes) (s : State) : (brNetrx p cs s).peers[p']? = s.peers[p']? := by
  have hloop : (brNetrxLoop p cs s).peers[p']? = s.peers[p']? :=
    brNetrxLoop_keeps (P := fun t => t.peers[p']? = s.peers[p']?)
      (fun c t ht => (netrxByte_peer_ne hp c t).trans ht) cs s rfl
  unfold brNetrx whenRunning
  split
  · split
    · exact hloop
    · rfl
  · rfl

/-- Replacing a peer, as the claims write it, is a write to that peer. -/
theorem set_peer_eq_updPeer (s : State) (p : Nat) (x : Peer) :
    { s with peers := s.peers.set p x } = s.updPeer p fun _ => x := by
  rw [State.updPeer, List.set_eq_modify]

end Sys2Proof.Machine
end

section
namespace Sys2Proof.Proofs
open Sys2Proof.Machine

/-- Settles O24: BR.NETRX of `p` leaves peer `p'`, and goes past the replacement of `p'`. -/
theorem peersDoNotInterfere : Obligations.PeersDoNotInterfere := by
  intro s p p' x chunk hp
  refine ⟨brNetrx p chunk s, rfl, brNetrx_peer_ne hp chunk s, ?_⟩
  rw [set_peer_eq_updPeer, set_peer_eq_updPeer, ← brNetrx_updPeer_ne hp]
  rfl

end Sys2Proof.Proofs
end

/-! # Memory: outputs, chunks, polls and the two directions

What follows settles the statements about what the block keeps from event to event: that outputs are only appended, that
chunk boundaries do not matter, that polls drain the queue in order, and that the two directions share no state. -/

section
namespace Sys2Proof.Machine

/-! ## Outputs only grow (R67, R352) -/

variable {i : Instr} {s t : State} {p : Nat} {q q' : Peer}

namespace Effect

theorem log_prefix (h : Effect i s t) : s.log <+: t.log := by
  cases h with
  | chunk p cs => exact (brNetrxLoop_frame p cs s).log
  | logged => exact List.prefix_append ..
  | _ => exact List.prefix_rfl

theorem radioTx_prefix (h : Effect i s t) : s.radioTx <+: t.radioTx := by
  cases h with
  | chunk p cs => rw [(brNetrxLoop_frame p cs s).radioTx]
  | sent => exact List.prefix_append ..
  | _ => exact List.prefix_rfl

end Effect

/-- R262: a write to the connected peers adds one event for each of them, and none for the others. -/
theorem netWriteAll_netTx_prefix {out : Bytes} (hq : s.peers[p]? = some q)
    (hq' : (s.netWriteAll out).peers[p]? = some q') : q.netTx <+: q'.netTx := by
  rw [netWriteAll_peers, List.getElem?_map, hq] at hq'
  cases hq'
  dsimp only
  split
  · exact List.prefix_append ..
  · exact List.prefix_rfl

theorem netTx_prefix_of_map_eq (h : t.peers.map (·.netTx) = s.peers.map (·.netTx)) (hq : s.peers[p]? = some q)
    (hq' : t.peers[p]? = some q') : q.netTx <+: q'.netTx := by
  have hp := congrArg (·[p]?) h
  simp only [List.getElem?_map, hq, hq', Option.map_some, Option.some.injEq] at hp
  rw [hp]

/-- Only BR.RADIORX writes to a peer, and what it writes stands after what was written before. -/
theorem netTx_prefix_of_exec (h : exec i s = .next t) (hq : s.peers[p]? = some q) (hq' : t.peers[p]? = some q') :
    q.netTx <+: q'.netTx := by
  by_cases hkept : t.peers.map (·.netTx) = s.peers.map (·.netTx)
  · exact netTx_prefix_of_map_eq hkept hq hq'
  · obtain ⟨b, r, n, rfl⟩ := (effect_of_exec h).netTx_writers hkept
    obtain rfl : brRadiorx b r n s = t := Host.Outcome.next.inj h
    obtain ⟨-, ht⟩ | ⟨e, -, -, ht⟩ | ⟨body, -, -, ht⟩ := brRadiorx_cases b r n s <;> rw [ht] at hkept hq'
    · exact absurd rfl hkept
    · exact absurd rfl hkept
    · exact netWriteAll_netTx_prefix hq hq'

end Sys2Proof.Machine
end

section
namespace Sys2Proof.Proofs
open Sys2Proof.Machine

/-- Settles O11: each effect an instruction can have leaves the three outputs or appends to one of them. -/
theorem outputsAreNeverRecalled : Obligations.OutputsAreNeverRecalled := by
  intro i s t h
  have heff := effect_of_exec h
  exact ⟨heff.log_prefix, heff.radioTx_prefix, fun _ _ _ => netTx_prefix_of_exec h⟩

end Sys2Proof.Proofs
end

section
namespace Sys2Proof.Machine

/-! ## Runs of one kind of event -/

/-- A run of instructions that each answer a next state is the fold of their next states. -/
theorem runInstrs_map {α : Type} {f : α → Instr} {g : State → α → State} (hf : ∀ s a, exec (f a) s = .next (g s a)) :
    ∀ (as : List α) (s : State), runInstrs (as.map f) s = .next (as.foldl g s)
  | [], _ => rfl
  | a :: as, s => by
    rw [List.map_cons, runInstrs, hf]
    exact runInstrs_map hf as (g s a)

/-! ## Chunks of one peer (R64) -/

variable {s : State} {p : Nat}

theorem brNetrxLoop_append (p : Nat) : ∀ (b c : Bytes) (s : State),
    brNetrxLoop p (b ++ c) s = brNetrxLoop p c (brNetrxLoop p b s)
  | [], _, _ => rfl
  | x :: b, c, s => brNetrxLoop_append p b c (netrxByte p x s)

theorem brNetrx_of_connected (hr : s.run = true) (hc : isConnected p s = true) (b : Bytes) :
    brNetrx p b s = brNetrxLoop p b s := by
  rw [brNetrx, whenRunning, if_pos hr, if_pos hc]

/-- R254, R255: BR.NETRX has no effect while stopped or on a peer that is not connected. -/
theorem brNetrx_of_closed (h : ¬(s.run = true ∧ isConnected p s = true)) (b : Bytes) : brNetrx p b s = s := by
  rw [brNetrx, whenRunning]
  split
  · next hr => exact if_neg fun hc => h ⟨hr, hc⟩
  · rfl

theorem brNetrx_nil (p : Nat) (s : State) : brNetrx p [] s = s := by
  by_cases h : s.run = true ∧ isConnected p s = true
  · rw [brNetrx_of_connected h.1 h.2, brNetrxLoop_nil]
  · exact brNetrx_of_closed h []

/-- R64: the bytes of the first chunk leave `RUN` and `CONN[p]`, so those of the second find the same gate. -/
theorem brNetrx_append (p : Nat) (b c : Bytes) (s : State) : brNetrx p (b ++ c) s = brNetrx p c (brNetrx p b s) := by
  by_cases h : s.run = true ∧ isConnected p s = true
  · obtain ⟨hr, hc⟩ := h
    have hframe := brNetrxLoop_frame p b s
    have hr' := hframe.run.trans hr
    have hc' := (isConnected_congr hframe.conn p).trans hc
    rw [brNetrx_of_connected hr hc, brNetrx_of_connected hr hc, brNetrx_of_connected hr' hc', brNetrxLoop_append]
  · rw [brNetrx_of_closed h, brNetrx_of_closed h, brNetrx_of_closed h]

theorem foldl_brNetrx (p : Nat) : ∀ (chunks : List Bytes) (s : State),
    chunks.foldl (fun s b => brNetrx p b s) s = brNetrx p chunks.flatten s
  | [], s => (brNetrx_nil p s).symm
  | b :: chunks, s => by
    rw [List.foldl_cons, foldl_brNetrx p chunks, List.flatten_cons, brNetrx_append]

/-! ## Polls (R77, R266) -/

/-- `k` items of the queue, or all it has, handed to the radio in order. -/
def State.sendTx (s : State) (k : Nat) : State :=
  { s with txq := s.txq.drop k, radioTx := s.radioTx ++ s.txq.take k }

theorem sendTx_zero (s : State) : s.sendTx 0 = s := by
  simp only [State.sendTx, List.drop_zero, List.take_zero, List.append_nil]

theorem sendTx_sendTx (s : State) (j k : Nat) : (s.sendTx j).sendTx k = s.sendTx (j + k) := by
  simp only [State.sendTx, List.drop_drop, List.take_add, List.append_assoc]

theorem sendTx_of_empty (hq : s.txq = []) (k : Nat) : s.sendTx k = s := by
  rw [State.sendTx, hq, List.drop_nil, List.take_nil, List.append_nil, ← hq]

theorem sendTx_one {item : Bytes} {rest : List Bytes} (hq : s.txq = item :: rest) :
    s.sendTx 1 = s.popToRadio item rest := by
  rw [State.sendTx, hq]
  rfl

/-- R266: a poll sends one item if the channel is idle and none if it is busy. -/
theorem brTxpoll_eq (idle : Bool) (s : State) : brTxpoll idle s = whenRunning s (s.sendTx idle.toNat) := by
  rw [brTxpoll]
  congr 1
  split
  · next hq => rw [sendTx_of_empty hq]
  · next item rest hq =>
    cases idle with
    | false => exact (sendTx_zero s).symm
    | true => exact (sendTx_one hq).symm

theorem foldl_brTxpoll : ∀ (polls : List Bool) (s : State), s.run = true →
    polls.foldl (fun s idle => brTxpoll idle s) s = s.sendTx (polls.count true)
  | [], s, _ => (sendTx_zero s).symm
  | idle :: polls, s, hr => by
    have hcount : (idle :: polls).count true = idle.toNat + polls.count true := by
      cases idle <;> simp [Nat.add_comm]
    have hpoll : brTxpoll idle s = s.sendTx idle.toNat := by rw [brTxpoll_eq, whenRunning, if_pos hr]
    rw [List.foldl_cons, hpoll, foldl_brTxpoll polls (s.sendTx idle.toNat) hr, sendTx_sendTx, hcount]

end Sys2Proof.Machine
end

section
namespace Sys2Proof.Proofs
open Sys2Proof.Machine

/-- Settles O16: the run is the fold of BR.NETRX over the chunks, and BR.NETRX takes `++` to composition. -/
theorem chunkBoundariesDoNotMatter : Obligations.ChunkBoundariesDoNotMatter := by
  intro s p chunks
  have hrun := runInstrs_map (f := (.brNetrx p ·)) (fun _ _ => rfl) chunks s
  rw [hrun, foldl_brNetrx]
  rfl

/-- Settles O21: the run is the fold of BR.TXPOLL over the polls, and each idle one moves the head of the queue. -/
theorem pollsDrainTheQueueInOrder : Obligations.PollsDrainTheQueueInOrder := by
  intro s polls hr
  have hrun := runInstrs_map (f := .brTxpoll) (fun _ _ => rfl) polls s
  rw [hrun, foldl_brTxpoll polls s hr]
  rfl

end Sys2Proof.Proofs
end

section
namespace Sys2Proof.Machine

/-! ## The two directions (R79)

BR.NETRX, BR.FRAME and BR.TXPOLL neither read the log nor what was written to the peers, and the records they add are of
their own direction. -/

/-- R262: what a write to every connected peer does to one peer. -/
def Peer.netWrite (out : Bytes) (q : Peer) : Peer := if q.conn then { q with netTx := q.netTx ++ [out] } else q

theorem netWriteAll_eq (s : State) (out : Bytes) : s.netWriteAll out = { s with peers := s.peers.map (.netWrite out) } :=
  rfl

/-- The two registers of the delimiter, and what was written to the peer, do not meet. -/
theorem dlmNext_netWrite (q : Peer) (out : Bytes) (max : Option Nat) (c : Byte) :
    (q.netWrite out).dlmNext max c = (q.dlmNext max c).netWrite out := by
  unfold Peer.netWrite
  rw [peer_dlmNext_conn]
  split <;> rfl

theorem modify_map_comm {α : Type} {f g : α → α} (h : ∀ a, g (f a) = f (g a)) (l : List α) (n : Nat) :
    (l.map f).modify n g = (l.modify n g).map f := by
  apply List.ext_getElem?
  intro k
  simp only [List.getElem?_map, List.getElem?_modify]
  by_cases hk : n = k <;> cases l[k]? <;> simp [hk, h]

theorem dlmByte_netWriteAll (p : Nat) (c : Byte) (s : State) (out : Bytes) :
    dlmByte p c (s.netWriteAll out) = ((dlmByte p c s).1.netWriteAll out, (dlmByte p c s).2) := by
  apply Prod.ext
  · simp only [dlmByte_fst, netWriteAll_eq, State.updPeer]
    rw [modify_map_comm fun q => dlmNext_netWrite q out s.params.maxframe c]
  · unfold dlmByte
    rw [netWriteAll_eq, List.getElem?_map]
    cases s.peers[p]? with
    | none => rfl
    | some q =>
      simp only [Option.map_some, Peer.netWrite]
      split <;> rfl

/-- `g` goes past the outputs of the direction RADIO→NET: past a write to the connected peers, and past any change of the
log, to which it adds records of NET→RADIO only. -/
structure TowardRadio (g : State → State) : Prop where
  netWriteAll : ∀ s out, g (s.netWriteAll out) = (g s).netWriteAll out
  log : ∀ s, ∃ recs : List LogRecord, (∀ r ∈ recs, r.dir = .netToRadio) ∧
    ∀ l, g { s with log := l } = { g s with log := l ++ recs }

/-- `r` reads no output of the direction RADIO→NET. -/
structure BlindToNet {α : Type} (r : State → α) : Prop where
  netWriteAll : ∀ s out, r (s.netWriteAll out) = r s
  log : ∀ s l, r { s with log := l } = r s

theorem BlindToNet.prod {α β : Type} {r : State → α} {r' : State → β} (h : BlindToNet r) (h' : BlindToNet r') :
    BlindToNet fun s => (r s, r' s) where
  netWriteAll s out := Prod.ext (h.netWriteAll s out) (h'.netWriteAll s out)
  log s l := Prod.ext (h.log s l) (h'.log s l)

theorem isConnected_blindToNet (p : Nat) : BlindToNet (isConnected p) where
  netWriteAll s out := isConnected_congr (netWriteAll_map_eq (·.conn) (fun _ _ => rfl) s out) p
  log _ _ := rfl

/-- The result of DLM.BYTE is read from the two registers of peer `p`. -/
theorem dlmByte_snd_blindToNet (p : Nat) (c : Byte) : BlindToNet fun s => (dlmByte p c s).2 where
  netWriteAll s out := by rw [dlmByte_netWriteAll]
  log s l := by
    unfold dlmByte
    dsimp only
    split <;> rfl

namespace TowardRadio

variable {g g' : State → State}

/-- An operation that, on all states that agree in what it reads, is one that goes past the outputs, goes past them. -/
theorem of_reads {α : Type} {r : State → α} (hr : BlindToNet r)
    (h : ∀ s, ∃ w, TowardRadio w ∧ ∀ t, r t = r s → g t = w t) : TowardRadio g where
  netWriteAll s out := by
    obtain ⟨w, hw, hg⟩ := h s
    rw [hg _ (hr.netWriteAll s out), hg s rfl, hw.netWriteAll]
  log s := by
    obtain ⟨w, hw, hg⟩ := h s
    obtain ⟨recs, hdir, hlog⟩ := hw.log s
    refine ⟨recs, hdir, fun l => ?_⟩
    rw [hg _ (hr.log s l), hg s rfl, hlog]

theorem congr {w : State → State} (hw : TowardRadio w) (h : ∀ s, g s = w s) : TowardRadio g := funext h ▸ hw

theorem id : TowardRadio id where
  netWriteAll _ _ := rfl
  log _ := ⟨[], nofun, fun l => by rw [List.append_nil]; rfl⟩

theorem comp (h' : TowardRadio g') (h : TowardRadio g) : TowardRadio (g' ∘ g) where
  netWriteAll s out := by
    rw [Function.comp, h.netWriteAll, h'.netWriteAll]
    rfl
  log s := by
    obtain ⟨recs, hdir, hlog⟩ := h.log s
    obtain ⟨recs', hdir', hlog'⟩ := h'.log (g s)
    refine ⟨recs ++ recs', List.forall_mem_append.mpr ⟨hdir, hdir'⟩, fun l => ?_⟩
    rw [Function.comp, hlog, hlog', List.append_assoc]
    rfl

/-- A test on what the operation may read, in front of it. -/
theorem gate {c : State → Bool} (hc : BlindToNet c) (h : TowardRadio g) :
    TowardRadio fun s => if c s then g s else s :=
  .of_reads hc fun s =>
    if hs : c s then ⟨g, h, fun _ ht => if_pos (ht.trans hs)⟩
    else ⟨_, .id, fun _ ht => if_neg (ht ▸ hs)⟩

/-! ### The writes of the direction NET→RADIO -/

theorem failEntry (p : Nat) (e : Failure) : TowardRadio (failEntry .netToRadio p e) where
  netWriteAll _ _ := rfl
  log _ := ⟨[⟨e.kind, e.unit, .netToRadio, p, e.info⟩], by simp, fun _ => rfl⟩

theorem pushTx (item : Bytes) : TowardRadio (·.pushTx item) where
  netWriteAll _ _ := rfl
  log _ := ⟨[], nofun, fun l => by rw [List.append_nil]; rfl⟩

theorem sendTx (k : Nat) : TowardRadio (·.sendTx k) where
  netWriteAll _ _ := rfl
  log _ := ⟨[], nofun, fun l => by rw [List.append_nil]; rfl⟩

theorem dlmNext (p : Nat) (max : Option Nat) (c : Byte) : TowardRadio (·.updPeer p fun q => q.dlmNext max c) where
  netWriteAll s out := by
    simp only [netWriteAll_eq, State.updPeer]
    rw [modify_map_comm fun q => dlmNext_netWrite q out max c]
  log _ := ⟨[], nofun, fun l => by rw [List.append_nil]; rfl⟩

/-! ### The operations of the direction NET→RADIO -/

/-- R258: after LF.DECB, BR.FRAME reads the dialect and whether the queue is full. -/
theorem brCommand (p : Nat) (cmd : Byte) (body : Bytes) : TowardRadio (brCommand p cmd body) := by
  by_cases hcmd : cmd ≠ cCmdData
  · exact (failEntry p (badCommand cmd)).congr fun s => if_pos hcmd
  cases hbody : lfDecb body with
  | error e => exact (failEntry p e).congr fun s => by rw [Machine.brCommand, if_neg hcmd, hbody]
  | ok f =>
    have hreads : BlindToNet fun s => (toRadio s.dialect f, s.queueFull) := ⟨fun _ _ => rfl, fun _ _ => rfl⟩
    refine .of_reads hreads fun s => ?_
    simp only [Machine.brCommand, if_neg hcmd, hbody, Prod.mk.injEq]
    cases toRadio s.dialect f with
    | error e => exact ⟨_, .failEntry p e, fun t ⟨hitem, _⟩ => by rw [hitem]⟩
    | ok item =>
      cases s.queueFull with
      | true => exact ⟨_, .failEntry p queueOverflow, fun t ⟨hitem, hfull⟩ => by rw [hitem, hfull]; rfl⟩
      | false => exact ⟨_, .pushTx item, fun t ⟨hitem, hfull⟩ => by rw [hitem, hfull]; rfl⟩

theorem brFrame (p : Nat) (f : Bytes) : TowardRadio (brFrame p f) := by
  cases hf : unwrapBytes f with
  | error e => exact (failEntry p e).congr fun s => by rw [Machine.brFrame, hf]
  | ok r => exact (brCommand p r.1 r.2).congr fun s => by rw [Machine.brFrame, hf]

theorem brDelimited (p : Nat) (r : DlmResult) : TowardRadio (brDelimited p r) := by
  cases r with
  | none => exact .id
  | frame f => exact .brFrame p f
  | overrun =>
    have hreads : BlindToNet fun s : State => s.params.maxframe := ⟨fun _ _ => rfl, fun _ _ => rfl⟩
    exact .of_reads hreads fun s =>
      ⟨_, .failEntry p (bufferOverflow s.params.maxframe), fun t ht => by rw [← ht]; rfl⟩

theorem netrxByte (p : Nat) (c : Byte) : TowardRadio (netrxByte p c) := by
  have hmax : BlindToNet fun s : State => s.params.maxframe := ⟨fun _ _ => rfl, fun _ _ => rfl⟩
  refine .of_reads ((dlmByte_snd_blindToNet p c).prod hmax) fun s =>
    ⟨_, (brDelimited p (dlmByte p c s).2).comp (.dlmNext p s.params.maxframe c), fun t ht => ?_⟩
  obtain ⟨hres, hmax⟩ := Prod.mk.inj ht
  rw [Machine.netrxByte, dlmByte_fst, hres, hmax]
  rfl

theorem brNetrxLoop (p : Nat) : ∀ cs : Bytes, TowardRadio (brNetrxLoop p cs)
  | [] => .id
  | c :: cs => (brNetrxLoop p cs).comp (.netrxByte p c)

theorem whenRunning (h : TowardRadio g) : TowardRadio fun s => whenRunning s (g s) :=
  h.gate (c := State.run) ⟨fun _ _ => rfl, fun _ _ => rfl⟩

theorem brNetrx (p : Nat) (cs : Bytes) : TowardRadio (brNetrx p cs) :=
  ((brNetrxLoop p cs).gate (isConnected_blindToNet p)).whenRunning

theorem brTxpoll (idle : Bool) : TowardRadio (brTxpoll idle) :=
  (sendTx idle.toNat).whenRunning.congr (brTxpoll_eq idle)

end TowardRadio

/-! ### A radio packet before and after -/

section
variable {s : State} {payload : Bytes} {rssi snr : Metric}

theorem brRadiorx_of_stopped (hr : s.run = false) : brRadiorx payload rssi snr s = s := by
  rw [brRadiorx, whenRunning, hr]
  rfl

theorem brRadiorx_of_error {e : Failure} (hr : s.run = true) (hb : radioBody s payload rssi snr = .error e) :
    brRadiorx payload rssi snr s = failEntry .radioToNet 0 e s := by
  rw [brRadiorx, whenRunning, hr, hb]
  rfl

theorem brRadiorx_of_ok {body : Bytes} (hr : s.run = true) (hb : radioBody s payload rssi snr = .ok body) :
    brRadiorx payload rssi snr s = s.netWriteAll (wrapBytes body) := by
  rw [brRadiorx, whenRunning, hr, hb]
  rfl

/-- R262, R263: what BR.RADIORX makes of a packet is read from `CFG` and the parameters. -/
theorem radioBody_congr {t : State} (hd : t.dialect = s.dialect) (ha : t.appendReport = s.appendReport)
    (hp : t.params = s.params) : radioBody t payload rssi snr = radioBody s payload rssi snr := by
  simp only [radioBody, fromRadio, lfInj, hd, ha, hp]

/-- R32, R27, R355: an instruction other than BR.RESET and BR.STOP leaves all that BR.RADIORX reads. -/
theorem Effect.radiorx_inputs_kept {i : Instr} {t : State} (h : Effect i s t) (hreset : ∀ d a, i ≠ .brReset d a)
    (hstop : i ≠ .brStop) : t.run = s.run ∧ radioBody t payload rssi snr = radioBody s payload rssi snr := by
  constructor
  · by_contra hne
    obtain hi | ⟨d, a, hi⟩ := h.run_writers hne
    · exact hstop hi
    · exact hreset d a hi
  · obtain ⟨hd, ha⟩ | ⟨d, a, hi, -⟩ := h.cfg_writers
    · exact radioBody_congr hd ha h.params_kept
    · exact absurd hi (hreset d a)

/-- Records of one direction keep their order when one of the other direction comes before them instead of after. -/
theorem filter_dir_swap {recs : List LogRecord} {r : LogRecord} (hrecs : ∀ x ∈ recs, x.dir = .netToRadio)
    (hr : r.dir = .radioToNet) (l : List LogRecord) (d : Direction) :
    (l ++ recs ++ [r]).filter (fun x => decide (x.dir = d)) =
      (l ++ [r] ++ recs).filter (fun x => decide (x.dir = d)) := by
  cases d with
  | netToRadio => simp [hr]
  | radioToNet =>
    have hnone : recs.filter (fun x => decide (x.dir = .radioToNet)) = [] :=
      List.filter_eq_nil_iff.mpr fun x hx => by simp [hrecs x hx]
    simp [hnone, List.filter_cons]

/-- R79: a radio packet and an operation of the other direction give the same in either order, but for the order of log
records of different directions. -/
theorem TowardRadio.brRadiorx_comm {g : State → State} (hg : TowardRadio g) (hr : (g s).run = s.run)
    (hb : radioBody (g s) payload rssi snr = radioBody s payload rssi snr) :
    g (brRadiorx payload rssi snr s) =
        { brRadiorx payload rssi snr (g s) with log := (g (brRadiorx payload rssi snr s)).log } ∧
      ∀ d, logOf d (brRadiorx payload rssi snr (g s)) = logOf d (g (brRadiorx payload rssi snr s)) := by
  obtain ⟨hs, h⟩ | ⟨e, hs, hbody, h⟩ | ⟨body, hs, hbody, h⟩ := brRadiorx_cases payload rssi snr s <;> rw [h]
  · rw [brRadiorx_of_stopped (hr.trans hs)]
    exact ⟨rfl, fun _ => rfl⟩
  · obtain ⟨recs, hdir, hlog⟩ := hg.log s
    have hbefore : g (Machine.failEntry .radioToNet 0 e s) =
        { g s with log := s.log ++ [⟨e.kind, e.unit, .radioToNet, 0, e.info⟩] ++ recs } := hlog _
    have hown : (g s).log = s.log ++ recs := congrArg State.log (hlog s.log)
    rw [brRadiorx_of_error (hr.trans hs) (hb.trans hbody), hbefore]
    refine ⟨rfl, fun d => ?_⟩
    rw [logOf, failEntry_log, hown]
    exact filter_dir_swap hdir rfl s.log d
  · rw [brRadiorx_of_ok (hr.trans hs) (hb.trans hbody), hg.netWriteAll]
    exact ⟨rfl, fun _ => rfl⟩

end

end Sys2Proof.Machine
end

section
namespace Sys2Proof.Proofs
open Sys2Proof.Machine

/-- An instruction that goes past the outputs of RADIO→NET and leaves what a radio packet reads gives the same before and
after the packet. -/
theorem runs_agree_of_towardRadio {i : Instr} {g : State → State} (hexec : ∀ s, exec i s = .next (g s))
    (hg : TowardRadio g) (hreset : ∀ d a, i ≠ .brReset d a) (hstop : i ≠ .brStop) (s : State) (payload : Bytes)
    (rssi snr : Metric) :
    ∃ t u, runInstrs [i, .brRadiorx payload rssi snr] s = .next t ∧
      runInstrs [.brRadiorx payload rssi snr, i] s = .next u ∧
      u = { t with log := u.log } ∧ ∀ d, logOf d t = logOf d u := by
  obtain ⟨hrun, hbody⟩ := (effect_of_exec (hexec s)).radiorx_inputs_kept hreset hstop
  refine ⟨brRadiorx payload rssi snr (g s), g (brRadiorx payload rssi snr s), ?_, ?_, hg.brRadiorx_comm hrun hbody⟩
  · rw [runInstrs, hexec]
    rfl
  · show runInstrs [i] (brRadiorx payload rssi snr s) = _
    rw [runInstrs, hexec]
    rfl

/-- Settles O23: each of the three goes past the outputs of RADIO→NET and leaves what a radio packet reads. -/
theorem directionsDoNotInterfere : Obligations.DirectionsDoNotInterfere := by
  intro s i payload rssi snr hi
  obtain ⟨p, c, rfl⟩ | ⟨p, f, rfl⟩ | ⟨b, rfl⟩ := hi
  · exact runs_agree_of_towardRadio (i := .brNetrx p c) (fun _ => rfl) (.brNetrx p c) nofun nofun s payload rssi snr
  · exact runs_agree_of_towardRadio (i := .brFrame p f) (fun _ => rfl) (.brFrame p f) nofun nofun s payload rssi snr
  · exact runs_agree_of_towardRadio (i := .brTxpoll b) (fun _ => rfl) (.brTxpoll b) nofun nofun s payload rssi snr

end Sys2Proof.Proofs
end

/-! # Encoding: the words of the instructions

What follows settles the statements about the encodings of 30_encoding.md: the decoder and the encoder invert each other,
and what each byte class stands for at every place where a unit of the block meets it. -/

section
namespace Sys2Proof
open Sys2Proof.Machine

/-! ## The check behind the decoder -/

/-- The decoder answers what the port's format gives, if that is well formed. -/
theorem decode_eq_ok_iff {w : PortWord} {i : Instr} : decode w = .ok i ↔ decodeRaw w = .ok i ∧ i.wf = true := by
  constructor
  · intro h
    unfold decode at h
    split at h
    · cases h
    · split at h <;> cases h
      exact ⟨‹_›, ‹_›⟩
  · rintro ⟨hraw, hw⟩
    rw [decode, hraw]
    exact if_pos hw

theorem decode_of_raw_error {w : PortWord} {e : DecodeError} (h : decodeRaw w = .error e) : decode w = .error e := by
  rw [decode, h]

/-! ## The bit fields of a byte and the byte put together from them -/

/-- R95: `ccccccc0`, bit 0 as given. -/
theorem callbyteWire_fields : ∀ (c : BitVec 7) (low : Bool),
    (callbyteWire c low).extractLsb' 1 7 = c ∧ (callbyteWire c low).getLsbD 0 = low := by decide

theorem callbyteWire_of_fields : ∀ b : Byte, callbyteWire (b.extractLsb' 1 7) (b.getLsbD 0) = b := by decide

/-- R96: `hrrssssx`. -/
theorem ssidbyteWire_fields : ∀ (h : Bool) (rr : BitVec 2) (ssid : BitVec 4) (x : Bool),
    (ssidbyteWire h rr ssid x).getLsbD 7 = h ∧ (ssidbyteWire h rr ssid x).extractLsb' 5 2 = rr ∧
      (ssidbyteWire h rr ssid x).extractLsb' 1 4 = ssid ∧ (ssidbyteWire h rr ssid x).getLsbD 0 = x := by decide

theorem ssidbyteWire_of_fields : ∀ b : Byte,
    ssidbyteWire (b.getLsbD 7) (b.extractLsb' 5 2) (b.extractLsb' 1 4) (b.getLsbD 0) = b := by decide

/-- R101: the low two bits `11`. -/
theorem ctlUWire_fields : ∀ hi : BitVec 6, ctrlClass (ctlUWire hi) = 0b11 ∧ (ctlUWire hi).extractLsb' 2 6 = hi := by
  decide

theorem ctlUWire_of_fields : ∀ c : Byte, ctrlClass c = 0b11 → ctlUWire (c.extractLsb' 2 6) = c := by decide

/-- R101: the low two bits `01`. -/
theorem ctlSWire_fields : ∀ hi : BitVec 6, ctrlClass (ctlSWire hi) = 0b01 ∧ (ctlSWire hi).extractLsb' 2 6 = hi := by
  decide

theorem ctlSWire_of_fields : ∀ c : Byte, ctrlClass c = 0b01 → ctlSWire (c.extractLsb' 2 6) = c := by decide

/-- R101: the low bit `0`. -/
theorem ctlIWire_fields : ∀ hi : BitVec 7,
    ctrlClass (ctlIWire hi) ≠ 0b11 ∧ ctrlClass (ctlIWire hi) ≠ 0b01 ∧ (ctlIWire hi).extractLsb' 1 7 = hi := by decide

theorem ctlIWire_of_fields : ∀ c : Byte,
    ctrlClass c ≠ 0b11 → ctrlClass c ≠ 0b01 → ctlIWire (c.extractLsb' 1 7) = c := by decide

/-- R111: `0011dddd`, one of the ten digit characters. -/
theorem digitWire_of_fields : ∀ c : Byte,
    (c.extractLsb' 4 4 : BitVec 4) = 0b0011 → digitWire (c.extractLsb' 0 4) = c := by decide

/-! ## Decoding a word that was encoded -/

theorem decodeTbyte_data {d : Byte} (h : isDataByte d = true) (a : Args) :
    decodeTbyte d a = (decodeSite a).map fun site => .data site d := by
  simp only [isDataByte, Bool.and_eq_true, bne_iff_ne] at h
  obtain ⟨⟨⟨hm, he⟩, hsm⟩, hse⟩ := h
  simp only [decodeTbyte, if_neg hm, if_neg he, if_neg hsm, if_neg hse]

theorem decodeTbyte2_bad {d : Byte} (hm : d ≠ cSubm) (he : d ≠ cSube) (a : Args) :
    decodeTbyte2 [cEscb, d] a = .ok (.escpBad (d :: a.data)) := by
  simp only [decodeTbyte2, if_true, if_neg hm, if_neg he]

theorem decodeAddrUse_sel (use : AddrUse) : decodeAddrUse { sel := addrUseSel use } = .ok use := by cases use <;> rfl

theorem decodeAddrCall_wire (use : AddrUse) (c : BitVec 7) (low : Bool) :
    decodeAddrCall (callbyteWire c low) { sel := addrUseSel use } = .ok (.addrCallbyte use c low) := by
  obtain ⟨hc, hlow⟩ := callbyteWire_fields c low
  rw [decodeAddrCall, decodeAddrUse_sel, hc, hlow]
  rfl

theorem decodeAddrSsid_wire (use : AddrUse) (h : Bool) (rr : BitVec 2) (ssid : BitVec 4) (x : Bool) :
    decodeAddrSsid (ssidbyteWire h rr ssid x) { sel := addrUseSel use } = .ok (.addrSsidbyte use h rr ssid x) := by
  obtain ⟨hh, hrr, hssid, hx⟩ := ssidbyteWire_fields h rr ssid x
  rw [decodeAddrSsid, decodeAddrUse_sel, hh, hrr, hssid, hx]
  rfl

theorem decodeCtrl_ctlU (hi : BitVec 6) (a : Args) : decodeCtrl (ctlUWire hi) a = .ok (.ctlU hi a.data) := by
  obtain ⟨hclass, hhi⟩ := ctlUWire_fields hi
  rw [decodeCtrl, if_pos hclass, hhi]

theorem decodeCtrl_ctlS (hi : BitVec 6) (a : Args) : decodeCtrl (ctlSWire hi) a = .ok (.ctlS hi a.data) := by
  obtain ⟨hclass, hhi⟩ := ctlSWire_fields hi
  rw [decodeCtrl, if_neg (by rw [hclass]; decide), if_pos hclass, hhi]

theorem decodeCtrl_ctlI (hi : BitVec 7) (a : Args) : decodeCtrl (ctlIWire hi) a = .ok (.ctlI hi a.data) := by
  obtain ⟨hu, hs, hhi⟩ := ctlIWire_fields hi
  rw [decodeCtrl, if_neg hu, if_neg hs, hhi]

/-- A digit character is none of the other seven. -/
theorem decodePchar_digit (d : BitVec 4) (hd : d.toNat ≤ 9) (a : Args) :
    decodePchar (digitWire d) a = .ok (.pDigit d a.data a.rest) := by
  have hne : ∀ d : BitVec 4, d.toNat ≤ 9 →
      digitWire d ∉ [cGt, cComma, cColon, cStar, cDash, cSpace, cNl] := by decide
  have hfields : ∀ d : BitVec 4,
      (digitWire d).extractLsb' 4 4 = (0b0011 : BitVec 4) ∧ (digitWire d).extractLsb' 0 4 = d := by decide
  have h := hne d hd
  simp only [List.mem_cons, List.not_mem_nil, or_false, not_or] at h
  obtain ⟨hgt, hcomma, hcolon, hstar, hdash, hspace, hnl⟩ := h
  obtain ⟨hclass, hvalue⟩ := hfields d
  simp only [decodePchar, if_neg hgt, if_neg hcomma, if_neg hcolon, if_neg hstar, if_neg hdash, if_neg hspace,
    if_neg hnl, if_pos hclass, hvalue]

/-- R90 to R121: each row's word read in the format of its port; a row that fixes its byte needs no field. -/
theorem decodeRaw_encode (i : Instr) (hw : i.wf = true) : decodeRaw (encode i) = .ok i := by
  cases i with
  | brReset d a => cases d <;> rfl
  | mark site | escb site | subm site | sube site => cases site <;> rfl
  | data site d => cases site <;> exact (decodeTbyte_data hw _).trans rfl
  | escpMark use | escpEsc use | cmdData use | ctlUi use | pidNol3 use | pColon use | pSpace use => cases use <;> rfl
  | escpBad tail =>
    cases tail with
    | nil => rfl
    | cons d rest =>
      obtain ⟨hm, he⟩ : d ≠ cSubm ∧ d ≠ cSube := by simpa [Instr.wf] using hw
      exact decodeTbyte2_bad hm he _
  | cmdOther p cmd body =>
    have hc : cmd ≠ cCmdData := by simpa [Instr.wf] using hw
    exact if_neg hc
  | addrCallbyte use c low => exact decodeAddrCall_wire use c low
  | addrSsidbyte use h rr ssid x => exact decodeAddrSsid_wire use h rr ssid x
  | ctlU hi rest => exact decodeCtrl_ctlU hi _
  | ctlS hi rest => exact decodeCtrl_ctlS hi _
  | ctlI hi rest => exact decodeCtrl_ctlI hi _
  | pDigit d before after => exact decodePchar_digit d (of_decide_eq_true hw) _
  | _ => rfl

/-! ## Encoding an instruction that was decoded -/

/-- The port and the code bytes of an instruction's word. -/
def HasWord (port : Port) (code : Bytes) (i : Instr) : Prop := (encode i).port = port ∧ (encode i).code = code

variable {c : Byte} {a : Args} {i : Instr}

/-- One test of a decoder for the byte `k`. -/
theorem hasWord_of_ite {port : Port} {k : Byte} {x y : Except DecodeError Instr}
    (h : (if c = k then x else y) = .ok i) (hx : x = .ok i → HasWord port [k] i)
    (hy : y = .ok i → HasWord port [c] i) : HasWord port [c] i := by
  split at h
  · next hc => exact hc ▸ hx h
  · exact hy h

/-- One test that answers the instruction `j` at once. -/
theorem hasWord_of_row {port : Port} {k : Byte} {j : Instr} {y : Except DecodeError Instr}
    (h : (if c = k then .ok j else y) = .ok i) (hj : HasWord port [k] j) (hy : y = .ok i → HasWord port [c] i) :
    HasWord port [c] i :=
  hasWord_of_ite h (fun h => by cases h; exact hj) hy

theorem HasWord.of_eq {port : Port} {b : Byte} (h : HasWord port [b] i) (hb : b = c) : HasWord port [c] i := hb ▸ h

/-- What is decoded in two parts, the role first. -/
theorem exists_of_map_eq_ok {α β ε : Type} {f : α → β} {x : Except ε α} {y : β} (h : x.map f = .ok y) :
    ∃ u, x = .ok u ∧ f u = y := by
  cases x with
  | error e => cases h
  | ok u => exact ⟨u, rfl, by cases h; rfl⟩

theorem hasWord_of_decodeEvent (h : decodeEvent c a = .ok i) : HasWord .event [c] i := by
  unfold decodeEvent at h
  repeat refine hasWord_of_row h ⟨rfl, rfl⟩ fun h => ?_
  cases h

theorem hasWord_of_decodeCall (h : decodeCall c a = .ok i) : HasWord .call [c] i := by
  unfold decodeCall at h
  repeat refine hasWord_of_row h ⟨rfl, rfl⟩ fun h => ?_
  cases h

theorem encodeTbyte_word (site : TSite) : (encodeTbyte c site).port = .tbyte ∧ (encodeTbyte c site).code = [c] := by
  cases site <;> exact ⟨rfl, rfl⟩

theorem hasWord_of_decodeTbyte (h : decodeTbyte c a = .ok i) : HasWord .tbyte [c] i := by
  obtain ⟨site, -, rfl⟩ := exists_of_map_eq_ok h
  split_ifs <;> subst_vars <;> exact encodeTbyte_word site

theorem encodePair_word (use : PairUse) : (encodePair c use).port = .tbyte2 ∧ (encodePair c use).code = [cEscb, c] := by
  cases use <;> exact ⟨rfl, rfl⟩

theorem hasWord_of_decodeTbyte2 {code : Bytes} (h : decodeTbyte2 code a = .ok i) : HasWord .tbyte2 code i := by
  unfold decodeTbyte2 at h
  split at h
  case h_1 => exact hasWord_of_row h ⟨rfl, rfl⟩ nofun
  case h_2 c d =>
    split_ifs at h with hc hm he <;> subst_vars
    · obtain ⟨use, -, rfl⟩ := exists_of_map_eq_ok h
      exact encodePair_word use
    · obtain ⟨use, -, rfl⟩ := exists_of_map_eq_ok h
      exact encodePair_word use
    · cases h
      exact ⟨rfl, rfl⟩
  case h_3 => cases h

theorem hasWord_of_decodeCmd (h : decodeCmd c a = .ok i) : HasWord .cmd [c] i := by
  refine hasWord_of_ite h (fun h => ?zero) fun h => ?other
  case zero => split at h <;> cases h <;> exact ⟨rfl, rfl⟩
  case other =>
    cases h
    exact ⟨rfl, rfl⟩

theorem hasWord_of_decodeAddrCall (h : decodeAddrCall c a = .ok i) : HasWord .addrCall [c] i := by
  obtain ⟨use, -, rfl⟩ := exists_of_map_eq_ok h
  exact .of_eq ⟨rfl, rfl⟩ (callbyteWire_of_fields c)

theorem hasWord_of_decodeAddrSsid (h : decodeAddrSsid c a = .ok i) : HasWord .addrSsid [c] i := by
  obtain ⟨use, -, rfl⟩ := exists_of_map_eq_ok h
  exact .of_eq ⟨rfl, rfl⟩ (ssidbyteWire_of_fields c)

theorem hasWord_of_decodeCtrl (h : decodeCtrl c a = .ok i) : HasWord .ctrl [c] i := by
  unfold decodeCtrl at h
  split_ifs at h with hu hs <;> cases h
  · exact .of_eq ⟨rfl, rfl⟩ (ctlUWire_of_fields c hu)
  · exact .of_eq ⟨rfl, rfl⟩ (ctlSWire_of_fields c hs)
  · exact .of_eq ⟨rfl, rfl⟩ (ctlIWire_of_fields c hu hs)

theorem hasWord_of_decodeCtrlConst (h : decodeCtrlConst c a = .ok i) : HasWord .ctrlConst [c] i := by
  refine hasWord_of_ite h (fun h => ?_) nofun
  split at h <;> cases h <;> exact ⟨rfl, rfl⟩

theorem hasWord_of_decodePid (h : decodePid c a = .ok i) : HasWord .pid [c] i := by
  unfold decodePid at h
  split at h
  case isTrue =>
    cases h
    exact ⟨rfl, rfl⟩
  case isFalse =>
    refine hasWord_of_ite h (fun h => ?_) nofun
    split at h <;> cases h <;> exact ⟨rfl, rfl⟩

/-- A digit is answered for its class and its value. -/
theorem hasWord_of_decodePchar (h : decodePchar c a = .ok i) : HasWord .pchar [c] i := by
  unfold decodePchar at h
  refine hasWord_of_row h ⟨rfl, rfl⟩ fun h => hasWord_of_row h ⟨rfl, rfl⟩ fun h => hasWord_of_ite h ?colon fun h =>
    hasWord_of_row h ⟨rfl, rfl⟩ fun h => hasWord_of_row h ⟨rfl, rfl⟩ fun h => hasWord_of_ite h ?space fun h =>
    hasWord_of_row h ⟨rfl, rfl⟩ fun h => ?digit
  case colon =>
    intro h
    split at h <;> cases h <;> exact ⟨rfl, rfl⟩
  case space =>
    intro h
    split at h <;> cases h <;> exact ⟨rfl, rfl⟩
  case digit =>
    split_ifs at h with hclass
    cases h
    exact .of_eq ⟨rfl, rfl⟩ (digitWire_of_fields c hclass)

/-- Port by port, the decoder answers an instruction for its own word only. -/
theorem hasWord_of_decodeRaw {w : PortWord} (h : decodeRaw w = .ok i) : HasWord w.port w.code i := by
  unfold decodeRaw at h
  split at h
  case h_1 hp hc => rw [hp, hc]; exact hasWord_of_decodeEvent h
  case h_2 hp hc => rw [hp, hc]; exact hasWord_of_decodeCall h
  case h_3 hp hc => rw [hp, hc]; exact hasWord_of_decodeTbyte h
  case h_4 hp => rw [hp]; exact hasWord_of_decodeTbyte2 h
  case h_5 hp hc => rw [hp, hc]; exact hasWord_of_decodeCmd h
  case h_6 hp hc => rw [hp, hc]; exact hasWord_of_decodeAddrCall h
  case h_7 hp hc => rw [hp, hc]; exact hasWord_of_decodeAddrSsid h
  case h_8 hp hc => rw [hp, hc]; exact hasWord_of_decodeCtrl h
  case h_9 hp hc => rw [hp, hc]; exact hasWord_of_decodeCtrlConst h
  case h_10 hp hc => rw [hp, hc]; exact hasWord_of_decodePid h
  case h_11 hp hc => rw [hp, hc]; exact hasWord_of_decodePchar h
  case h_12 => cases h
  case h_13 => cases h

end Sys2Proof
end

section
namespace Sys2Proof.Proofs
open Sys2Proof.Machine

/-- Settles O1: the format of each row gives the instruction back, and the check behind the decoder lets it pass. -/
theorem decodeOfEncodeIsTheInstruction : Obligations.DecodeOfEncodeIsTheInstruction :=
  fun i hw => decode_eq_ok_iff.mpr ⟨decodeRaw_encode i hw, hw⟩

/-- Settles O2: the check answers well-formed instructions only, and each port an instruction for its own word only. -/
theorem decodedWordIsReencodedBitForBit : Obligations.DecodedWordIsReencodedBitForBit := by
  intro w i h
  obtain ⟨hraw, hw⟩ := decode_eq_ok_iff.mp h
  exact ⟨hw, hasWord_of_decodeRaw hraw⟩

/-- Settles O3: the words are closed, so the decoder is run on each. -/
theorem wordsOfTheTableDecodeAsTheSpecSays : Obligations.WordsOfTheTableDecodeAsTheSpecSays := by
  unfold Obligations.WordsOfTheTableDecodeAsTheSpecSays
  decide

end Sys2Proof.Proofs
end

section
namespace Sys2Proof
open Sys2Proof.Machine

/-! ## The event port -/

/-- R121: the codes of the events are `0x00` to `0x06`. -/
theorem decodeEvent_of_gt {ev : Byte} (h : 0x06 < ev.toNat) (a : Args) :
    decodeEvent ev a = .error (.notAnEvent [ev]) := by
  have hne : ∀ op : Byte, op.toNat ≤ 0x06 → ev ≠ op := by
    rintro op hop rfl
    omega
  unfold decodeEvent
  iterate 7 rw [if_neg (hne _ (by decide))]

end Sys2Proof
end

section
namespace Sys2Proof.Machine

/-! ## What an instruction returns -/

variable {i : Instr} {s : State} {r r' : OpResult}

/-- An instruction that only sets the result register returns that result and no other. -/
theorem returns_iff_of_exec (h : exec i s = .next (s.setResult r')) : Returns i s r ↔ r' = r := by
  rw [Returns, h, next_setResult_iff]

theorem outcome_bytes_eq_ok_iff {x : Result Bytes} {b : Bytes} : outcome .bytes x = .ok (.bytes b) ↔ x = .ok b := by
  simp [outcome_ok_iff]

theorem returns_esc_iff {b : Bytes} : Returns (.esc b) s r ↔ .ok (.bytes (escBytes b)) = r := returns_iff_of_exec rfl

theorem returns_unesc_iff {e : Bytes} : Returns (.unesc e) s r ↔ outcome .bytes (unescBytes e) = r :=
  returns_iff_of_exec rfl

theorem returns_esc_bytes_iff {b out : Bytes} : Returns (.esc b) s (.ok (.bytes out)) ↔ escBytes b = out := by
  simp [returns_esc_iff]

theorem returns_unesc_bytes_iff {e u : Bytes} : Returns (.unesc e) s (.ok (.bytes u)) ↔ unescBytes e = .ok u :=
  returns_unesc_iff.trans outcome_bytes_eq_ok_iff

theorem returns_unesc_fail_iff {e : Bytes} {f : Failure} : Returns (.unesc e) s (.fail f) ↔ unescBytes e = .error f :=
  returns_unesc_iff.trans outcome_fail_iff

theorem returns_unwrap_cmdBody_iff {f body : Bytes} {cmd : Byte} :
    Returns (.unwrap f) s (.ok (.cmdBody cmd body)) ↔ unwrapBytes f = .ok (cmd, body) := by
  refine (returns_iff_of_exec rfl).trans (outcome_ok_iff.trans ?_)
  simp

/-! ## Transport bytes and escape pairs -/

/-- R91: whatever class the byte has, the unit at its site meets it in one way. -/
theorem exec_transportInstr (site : TSite) (c : Byte) (s : State) :
    exec (transportInstr site c) s = .next (transportByte site c s) := by
  unfold transportInstr
  split_ifs <;> subst_vars <;> rfl

/-- R92, R134: a pair read gives the byte it stands for before what UNESC gives for the rest. -/
theorem returns_escpMark_read_iff {rest : Bytes} :
    Returns (.escpMark (.read rest)) s r ↔ outcome .bytes ((unescBytes rest).map (cMark :: ·)) = r := by
  rw [← unescBytes_escb_subm]
  exact returns_iff_of_exec rfl

theorem returns_escpEsc_read_iff {rest : Bytes} :
    Returns (.escpEsc (.read rest)) s r ↔ outcome .bytes ((unescBytes rest).map (cEscb :: ·)) = r := by
  rw [← unescBytes_escb_sube]
  exact returns_iff_of_exec rfl

/-- R92, R131: a pair written stands before the escaped rest. -/
theorem returns_escpMark_write_iff {rest : Bytes} :
    Returns (.escpMark (.write rest)) s r ↔ .ok (.bytes (cEscb :: cSubm :: escBytes rest)) = r :=
  returns_iff_of_exec rfl

theorem returns_escpEsc_write_iff {rest : Bytes} :
    Returns (.escpEsc (.write rest)) s r ↔ .ok (.bytes (cEscb :: cSube :: escBytes rest)) = r :=
  returns_iff_of_exec rfl

theorem returns_escpBad_iff {tail : Bytes} :
    Returns (.escpBad tail) s r ↔ outcome .bytes (unescBytes (cEscb :: tail)) = r :=
  returns_iff_of_exec rfl

/-! ## The command byte -/

/-- R258: BR.FRAME after UNWRAP. -/
theorem brFrame_of_unwrap {f body : Bytes} {cmd : Byte} (h : unwrapBytes f = .ok (cmd, body)) (p : Nat) (s : State) :
    brFrame p f s = brCommand p cmd body s := by
  rw [brFrame, h]

/-- R261: any command byte but `0x00` is one record. -/
theorem brCommand_of_ne {cmd : Byte} (h : cmd ≠ cCmdData) (p : Nat) (body : Bytes) (s : State) :
    brCommand p cmd body s = failEntry .netToRadio p (badCommand cmd) s :=
  if_pos h

theorem returns_cmdData_wrap_iff {body : Bytes} :
    Returns (.cmdData (.wrap body)) s r ↔ .ok (.bytes (cCmdData :: escBytes body ++ [cMark])) = r :=
  returns_iff_of_exec rfl

/-! ## The bytes of a packed address -/

theorem wireOfChar_eq : ∀ c : Byte, wireOfChar c = BitVec.ofNat 8 (2 * c.toNat) := by decide

/-- R95: bit 0 is no part of the character. -/
theorem charOfWire_callbyteWire : ∀ (c : BitVec 7) (low : Bool),
    charOfWire (callbyteWire c low) = BitVec.ofNat 8 c.toNat := by decide

/-- R96, R97: the fields LF.DECB reads, the reserved bits inside `hrr`. -/
theorem ssidbyteWire_unpacked : ∀ (h : Bool) (rr : BitVec 2) (ssid : BitVec 4) (x : Bool),
    ssidOfWire (ssidbyteWire h rr ssid x) = ssid ∧
      hrrOfWire (ssidbyteWire h rr ssid x) = BitVec.ofNat 3 ((if h then 4 else 0) + rr.toNat) ∧
      extOfWire (ssidbyteWire h rr ssid x) = x := by decide

/-- R97: all three bits set. -/
theorem isRepeated_eq : ∀ (h : Bool) (rr : BitVec 2),
    isRepeated (BitVec.ofNat 3 ((if h then 4 else 0) + rr.toNat)) = decide (h = true ∧ rr = 0b11) := by decide

theorem ssidWire_eq : ∀ (h : Bool) (ssid : BitVec 4) (x : Bool), ssidWire h ssid x =
    BitVec.ofNat 8 ((if h then 0x80 else 0) + 0x60 + 2 * ssid.toNat + (if x then 1 else 0)) := by decide

section
variable {c : BitVec 7} {low h x : Bool} {rr : BitVec 2} {ssid : BitVec 4}

theorem returns_addrCallbyte_unpack_iff :
    Returns (.addrCallbyte .unpack c low) s r ↔ .ok (.bytes [charOfWire (callbyteWire c low)]) = r :=
  returns_iff_of_exec rfl

theorem returns_addrCallbyte_pack_iff :
    Returns (.addrCallbyte .pack c low) s r ↔ .ok (.bytes [wireOfChar (c.setWidth 8)]) = r :=
  returns_iff_of_exec rfl

theorem returns_addrSsidbyte_unpack :
    Returns (.addrSsidbyte .unpack h rr ssid x) s (.ok (.ssidFields ssid
      (BitVec.ofNat 3 ((if h then 4 else 0) + rr.toNat)) x (decide (h = true ∧ rr = 0b11)))) := by
  obtain ⟨hssid, hhrr, hx⟩ := ssidbyteWire_unpacked h rr ssid x
  rw [← isRepeated_eq, ← hhrr, Returns, exec, execAddrSsidbyte]
  dsimp only
  rw [hssid, hx]
  rfl

theorem returns_addrSsidbyte_pack_iff :
    Returns (.addrSsidbyte .pack h rr ssid x) s r ↔ .ok (.bytes [ssidWire h ssid x]) = r :=
  returns_iff_of_exec rfl

end

/-! ## The control byte -/

variable {c : Byte} {rest : Bytes}

/-- R211: class `11` takes one more byte. -/
theorem decbControl_of_U (h : ctrlClass c = 0b11) (pid : Byte) (info : Bytes) :
    decbControl (c :: pid :: info) = .ok (c, pid, info) :=
  if_pos h

theorem decbControl_of_U_alone (h : ctrlClass c = 0b11) : decbControl [c] = .error noPid := if_pos h

theorem decbControl_of_S (h : ctrlClass c = 0b01) : decbControl (c :: rest) = .error supervisory := by
  rw [decbControl_cons, if_neg (by rw [h]; decide), if_pos h]

theorem decbControl_of_I (hu : ctrlClass c ≠ 0b11) (hs : ctrlClass c ≠ 0b01) :
    decbControl (c :: rest) = .error numbered := by
  rw [decbControl_cons, if_neg hu, if_neg hs]

theorem returns_ctlU_iff {hi : BitVec 6} :
    Returns (.ctlU hi rest) s r ↔
      outcome (fun x => .control x.1 x.2.1 x.2.2) (decbControl (ctlUWire hi :: rest)) = r :=
  returns_iff_of_exec rfl

theorem returns_ctlS_iff {hi : BitVec 6} :
    Returns (.ctlS hi rest) s r ↔
      outcome (fun x => .control x.1 x.2.1 x.2.2) (decbControl (ctlSWire hi :: rest)) = r :=
  returns_iff_of_exec rfl

theorem returns_ctlI_iff {hi : BitVec 7} :
    Returns (.ctlI hi rest) s r ↔
      outcome (fun x => .control x.1 x.2.1 x.2.2) (decbControl (ctlIWire hi :: rest)) = r :=
  returns_iff_of_exec rfl

end Sys2Proof.Machine
end

section
namespace Sys2Proof.Machine

/-! ## SSID texts -/

theorem digitValue_digit : ∀ n ≤ 9, digitValue (BitVec.ofNat 8 (0x30 + n)) = some n := by decide

theorem digitValue_some {c : Byte} {n : Nat} (h : digitValue c = some n) : n ≤ 9 ∧ c = BitVec.ofNat 8 (0x30 + n) := by
  have key : ∀ c : Byte, 0x30 ≤ c ∧ c ≤ 0x39 → c.toNat - 0x30 ≤ 9 ∧ c = BitVec.ofNat 8 (0x30 + (c.toNat - 0x30)) := by
    decide
  unfold digitValue at h
  split at h <;> cases h
  exact key c ‹_›

/-- R188: a good text gives its value. -/
theorem ssidOfText_of_ssidText {v : Nat} {text : Bytes} (h : SsidText v text) :
    ssidOfText text = some (BitVec.ofNat 4 v) := by
  obtain ⟨hv, ⟨rfl, hone⟩ | rfl⟩ := h
  · rw [ssidOfText, digitValue_digit v hone]
    rfl
  · rw [ssidOfText, digitValue_digit (v / 10) (by omega), digitValue_digit (v % 10) (by omega)]
    have hdigits : v / 10 * 10 + v % 10 = v := by omega
    simp only [hdigits, if_pos hv]

/-- R188: a text that gives a value is a good one. -/
theorem exists_ssidText_of_ssidOfText {text : Bytes} {w : BitVec 4} (h : ssidOfText text = some w) :
    ∃ v, SsidText v text := by
  unfold ssidOfText at h
  split at h
  case h_1 a =>
    obtain ⟨n, hn, -⟩ := Option.map_eq_some_iff.mp h
    obtain ⟨hle, rfl⟩ := digitValue_some hn
    exact ⟨n, by omega, .inl ⟨rfl, hle⟩⟩
  case h_2 a b =>
    split at h
    case h_1 x y hx hy =>
      split at h <;> cases h
      obtain ⟨hxle, rfl⟩ := digitValue_some hx
      obtain ⟨hyle, rfl⟩ := digitValue_some hy
      refine ⟨x * 10 + y, ‹_›, .inr ?_⟩
      rw [show (x * 10 + y) / 10 = x by omega, show (x * 10 + y) % 10 = y by omega]
    case h_2 => cases h
  case h_3 => cases h

theorem ssidOfText_of_not_ssidText {text : Bytes} (h : ∀ v, ¬ SsidText v text) : ssidOfText text = none := by
  cases hw : ssidOfText text with
  | none => rfl
  | some w =>
    obtain ⟨v, hv⟩ := exists_ssidText_of_ssidOfText hw
    exact absurd hv (h v)

/-! ## Separators, padding and the report -/

theorem splitValue_append {c : Byte} {pre : Bytes} (h : c ∉ pre) (post : Bytes) :
    splitValue c (pre ++ c :: post) = .split pre post := by
  rw [splitValue, splitFirst_append c pre post h]

/-- R192: the characters doubled, then the padding doubled. -/
theorem map_wireOfChar_padCall (call : Bytes) :
    (padCall call).map wireOfChar =
      call.map (fun c => BitVec.ofNat 8 (2 * c.toNat)) ++ List.replicate (6 - call.length) 0x40 := by
  rw [padCall, List.map_append, List.map_replicate, funext wireOfChar_eq]
  rfl

theorem appendReport_eq (fmt : ReportFmt) (info : Bytes) (rssi snr : Metric) :
    appendReport fmt info rssi snr = info ++ cSpace :: reportText fmt rssi snr := by
  simp [appendReport]

theorem stripNl_concat (pre : Bytes) : stripNl (pre ++ [cNl]) = pre := by
  rw [stripNl, if_pos List.getLast?_concat, List.dropLast_concat]

theorem stripNl_of_ne {info : Bytes} (h : info.getLast? ≠ some cNl) : stripNl info = info := if_neg h

section
variable {params : Params} {dialect : Dialect} {append : Bool} {info : Bytes} (rssi snr : Metric)

/-- R230, R231: no report while it is switched off, and none on a message. -/
theorem injInfo_unchanged (h : append = false ∨ info.head? = some cColon) :
    injInfo params dialect append info rssi snr = info := by
  obtain rfl | h := h
  · rfl
  · cases append
    · rfl
    · exact if_pos h

theorem injInfo_report (ha : append = true) (hc : info.head? ≠ some cColon) :
    injInfo params dialect append info rssi snr =
      (if dialect = .path ∨ params.stripNlBinary then stripNl info else info) ++
        cSpace :: reportText params.reportFmt rssi snr := by
  subst ha
  exact (if_neg hc).trans (appendReport_eq ..)

/-- R232: the newline at the end goes in the path dialect, and in the binary one where `STRIP_NL_BINARY` is set. -/
theorem injInfo_strips {pre : Bytes} (ha : append = true) (hc : (pre ++ [cNl]).head? ≠ some cColon)
    (hstrip : dialect = .path ∨ params.stripNlBinary = true) :
    injInfo params dialect append (pre ++ [cNl]) rssi snr = pre ++ cSpace :: reportText params.reportFmt rssi snr := by
  rw [injInfo_report rssi snr ha hc, if_pos hstrip, stripNl_concat]

/-- R232: no other payload loses a byte. -/
theorem injInfo_keeps (ha : append = true) (hc : info.head? ≠ some cColon)
    (hkeep : info.getLast? ≠ some cNl ∨ dialect = .binary ∧ params.stripNlBinary = false) :
    injInfo params dialect append info rssi snr = info ++ cSpace :: reportText params.reportFmt rssi snr := by
  rw [injInfo_report rssi snr ha hc]
  obtain hlast | ⟨rfl, hbinary⟩ := hkeep
  · rw [stripNl_of_ne hlast, ite_self]
  · rw [hbinary, if_neg (by decide)]

end

/-! ## What each character of a path returns -/

variable {s : State} {r : OpResult} {before after info : Bytes} {rssi snr : Metric}

theorem returns_pGt_iff : Returns (.pGt before after) s r ↔ .ok (splitValue cGt (before ++ cGt :: after)) = r :=
  returns_iff_of_exec rfl

theorem returns_pComma_iff :
    Returns (.pComma before after) s r ↔
      .ok (.tokens (splitAll cComma (before ++ cComma :: after)).1 (splitAll cComma (before ++ cComma :: after)).2) = r :=
  returns_iff_of_exec rfl

theorem returns_pColon_pathEnd_iff :
    Returns (.pColon (.pathEnd before after)) s r ↔ .ok (splitValue cColon (before ++ cColon :: after)) = r :=
  returns_iff_of_exec rfl

theorem returns_pColon_message_iff :
    Returns (.pColon (.message info rssi snr)) s r ↔
      .ok (.bytes (injInfo s.params s.dialect s.appendReport (cColon :: info) rssi snr)) = r :=
  returns_iff_of_exec rfl

theorem returns_pStar_iff :
    Returns (.pStar before after) s r ↔
      .ok (.star (stripStar (before ++ cStar :: after)).1 (stripStar (before ++ cStar :: after)).2) = r :=
  returns_iff_of_exec rfl

theorem returns_pDash_iff :
    Returns (.pDash before after) s r ↔ outcome (fun x => .callSsid x.1 x.2) (splitSsid (before ++ cDash :: after)) = r :=
  returns_iff_of_exec rfl

theorem returns_pSpace_pad_iff {call : Bytes} :
    Returns (.pSpace (.pad call)) s r ↔
      outcome .bytes (if call.length > 6 then .error badCallLength else packCall call) = r :=
  returns_iff_of_exec rfl

theorem returns_pSpace_trim_iff :
    Returns (.pSpace (.trim before)) s r ↔ .ok (.bytes (trimRight (before ++ [cSpace]))) = r :=
  returns_iff_of_exec rfl

theorem returns_pSpace_separator_iff :
    Returns (.pSpace (.separator info rssi snr)) s r ↔ .ok (.bytes (appendReport s.params.reportFmt info rssi snr)) = r :=
  returns_iff_of_exec rfl

theorem returns_pNl_iff :
    Returns (.pNl before after rssi snr) s r ↔
      .ok (.bytes (injInfo s.params s.dialect s.appendReport (before ++ cNl :: after) rssi snr)) = r :=
  returns_iff_of_exec rfl

theorem digitWire_eq : ∀ d : BitVec 4, digitWire d = BitVec.ofNat 8 (0x30 + d.toNat) := by decide

theorem returns_pDigit_of_some {d v : BitVec 4} (h : ssidOfText (before ++ digitWire d :: after) = some v) :
    Returns (.pDigit d before after) s (.ok (.ssid v)) := by
  rw [Returns, exec, execPDigit, h]
  rfl

theorem returns_pDigit_of_none {d : BitVec 4} (h : ssidOfText (before ++ digitWire d :: after) = none) :
    Returns (.pDigit d before after) s (.fail badSsidText) := by
  rw [Returns, exec, execPDigit, h]
  rfl

end Sys2Proof.Machine
end

section
namespace Sys2Proof.Proofs
open Sys2Proof.Machine

/-- Settles O5: the first seven codes by their tests, any other by the end of the tests. -/
theorem eventPortTakesTheSevenEventsOnly : Obligations.EventPortTakesTheSevenEventsOnly := by
  refine fun a => ⟨rfl, rfl, rfl, rfl, rfl, rfl, rfl, fun ev s rest hev hs => ?_⟩
  exact step_of_decode_error hs (decode_of_raw_error (decodeEvent_of_gt hev a))

/-- Settles O30: both sites run the byte through the operation they share with DLM.BYTE and with ESC. -/
theorem transportBytesAtDelimiterAndStuffer : Obligations.TransportBytesAtDelimiterAndStuffer :=
  fun s c => ⟨fun p => ⟨_, exec_transportInstr (.delimiter p) c s, rfl⟩, exec_transportInstr .esc c s⟩

/-- Settles O31, from what UNESC and ESC do with each pair and the rest after it. -/
theorem escapePairsStandForTheReservedBytes : Obligations.EscapePairsStandForTheReservedBytes := by
  refine fun s rest => ⟨fun u hu => ?ok, fun e he => ?fail, fun out hout => ?write, fun tail hw => ?bad⟩
  case ok =>
    rw [returns_unesc_bytes_iff] at hu
    rw [returns_escpMark_read_iff, returns_escpEsc_read_iff, hu]
    exact ⟨rfl, rfl⟩
  case fail =>
    rw [returns_unesc_fail_iff] at he
    rw [returns_escpMark_read_iff, returns_escpEsc_read_iff, he]
    exact ⟨rfl, rfl⟩
  case write =>
    rw [returns_esc_bytes_iff] at hout
    rw [returns_escpMark_write_iff, returns_escpEsc_write_iff, hout]
    exact ⟨rfl, rfl⟩
  case bad =>
    obtain ⟨hm, he⟩ : tail.head? ≠ some cSubm ∧ tail.head? ≠ some cSube := by simpa [Instr.wf] using hw
    rw [returns_escpBad_iff, unescBytes_bad tail hm he]
    rfl

/-- Settles O41: the accepted byte is where BR.FRAME goes on after UNWRAP, and where WRAP begins. -/
theorem onlyCommandZeroIsAccepted : Obligations.OnlyCommandZeroIsAccepted := by
  refine fun s p body => ⟨fun frame hf => ?frame, fun e he => ?wrap, fun cmd hcmd => ?other⟩
  case frame =>
    rw [returns_unwrap_cmdBody_iff] at hf
    exact ⟨_, rfl, congrArg Host.Outcome.next (brFrame_of_unwrap hf p s)⟩
  case wrap =>
    rw [returns_esc_bytes_iff] at he
    rw [returns_cmdData_wrap_iff, he]
  case other => exact congrArg Host.Outcome.next (brCommand_of_ne hcmd p body s)

/-- Settles O47: the fields of the two bytes, for every value of them. -/
theorem addressBytesHoldTheirFields : Obligations.AddressBytesHoldTheirFields := by
  refine ⟨fun s c low => ⟨?charRead, ?charWritten⟩, fun s h rr ssid x => ⟨?ssidRead, ?ssidWritten⟩⟩
  case charRead => rw [returns_addrCallbyte_unpack_iff, charOfWire_callbyteWire]
  case charWritten =>
    have hwidth : (c.setWidth 8).toNat = c.toNat := BitVec.toNat_setWidth_of_le (by decide)
    rw [returns_addrCallbyte_pack_iff, wireOfChar_eq, hwidth]
  case ssidRead => exact returns_addrSsidbyte_unpack
  case ssidWritten => rw [returns_addrSsidbyte_pack_iff, ssidWire_eq]

/-- Settles O48: the class of each of the three kinds of byte decides what LF.DECB does. -/
theorem controlByteSelectsTheFrameClass : Obligations.ControlByteSelectsTheFrameClass := by
  have hwire : ∀ hi : BitVec 6, ctlUWire hi = BitVec.ofNat 8 (4 * hi.toNat + 3) := by decide
  refine fun s => ⟨fun hi pid info => ?accepted, fun hi rest => ?supervisory, fun hi rest => ?numbered,
    fun info => ?constants, rfl, rfl⟩
  case accepted =>
    obtain ⟨hclass, -⟩ := ctlUWire_fields hi
    rw [returns_ctlU_iff, returns_ctlU_iff, decbControl_of_U hclass, decbControl_of_U_alone hclass, hwire]
    exact ⟨rfl, rfl⟩
  case supervisory =>
    rw [returns_ctlS_iff, decbControl_of_S (ctlSWire_fields hi).1]
    rfl
  case numbered =>
    obtain ⟨hu, hs, -⟩ := ctlIWire_fields hi
    rw [returns_ctlI_iff, decbControl_of_I hu hs]
    rfl
  case constants => exact ⟨rfl, rfl, fun pid => rfl⟩

/-- Settles O57: the split of the whole sequence does not depend on the occurrence that is met. -/
theorem separatorsSplitThePath : Obligations.SeparatorsSplitThePath := by
  refine fun s => ⟨fun before after pre post heq hpre => ?gt, fun before after pre post heq hpre => ?colon,
    fun info rssi snr => ?message, fun b a bs as hcomma => ?comma⟩
  case gt => rw [returns_pGt_iff, heq, splitValue_append hpre]
  case colon => rw [returns_pColon_pathEnd_iff, heq, splitValue_append hpre]
  case message => rw [returns_pColon_message_iff, injInfo_unchanged rssi snr (.inr rfl)]
  case comma =>
    have hchain : b ++ bs.flatMap (fun t => cComma :: t) ++ cComma :: (a ++ as.flatMap fun t => cComma :: t) =
        b ++ (bs ++ a :: as).flatMap fun t => cComma :: t := by simp
    have hb : cComma ∉ b := hcomma b List.mem_cons_self
    have hothers : ∀ t ∈ bs ++ a :: as, cComma ∉ t := by
      intro t ht
      refine hcomma t ?_
      simp only [List.mem_append, List.mem_cons] at ht ⊢
      tauto
    rw [returns_pComma_iff, hchain, splitAll_chain cComma b _ hb hothers]

/-- Settles O58: the star by its place, the dash and the digits by the SSID text. -/
theorem tokenCharactersGiveStarAndSsid : Obligations.TokenCharactersGiveStarAndSsid := by
  refine fun s before after => ⟨fun token heq => ?star, fun hlast => ?kept, fun call text heq hcall =>
    ⟨fun v hv => ?dashGood, fun hbad => ?dashBad⟩, fun d _ => ?digit⟩
  case star => rw [returns_pStar_iff, heq, stripStar_star]
  case kept => rw [returns_pStar_iff, stripStar_none _ hlast]
  case dashGood =>
    rw [returns_pDash_iff, heq, splitSsid_dash call text hcall, ssidOfText_of_ssidText hv]
    rfl
  case dashBad =>
    rw [returns_pDash_iff, heq, splitSsid_dash call text hcall, ssidOfText_of_not_ssidText hbad]
    rfl
  case digit =>
    rw [← digitWire_eq]
    exact ⟨fun v hv => returns_pDigit_of_some (ssidOfText_of_ssidText hv),
      fun hbad => returns_pDigit_of_none (ssidOfText_of_not_ssidText hbad)⟩

/-- Settles O59: the space by what ADDR.PACK, ADDR.UNPACK and LF.INJ do with it, the newline by LF.INJ. -/
theorem spaceAndNewlineHaveTheirRoles : Obligations.SpaceAndNewlineHaveTheirRoles := by
  refine fun s => ⟨fun call hlong => ?long, fun call hlen hchars => ?pad, fun call pre c post hlen heq hpre hc => ?bad,
    fun text k htext => ?trim, fun info rssi snr => ?separator, fun before after rssi snr => ⟨fun hnone => ?unchanged,
    fun ha hc => ⟨fun pre heq hstrip => ?strips, fun hkeep => ?keeps⟩⟩⟩
  case long =>
    rw [returns_pSpace_pad_iff, if_pos hlong]
    rfl
  case pad =>
    rw [returns_pSpace_pad_iff, if_neg (Nat.not_lt.mpr hlen), packCall_ok call hchars, map_wireOfChar_padCall]
    rfl
  case bad =>
    rw [returns_pSpace_pad_iff, if_neg (Nat.not_lt.mpr hlen), heq, packCall_bad pre post c hpre hc]
    rfl
  case trim =>
    rw [returns_pSpace_trim_iff, List.append_assoc, ← List.replicate_succ', trimRight_append text (k + 1) htext]
  case separator => rw [returns_pSpace_separator_iff, appendReport_eq]
  case unchanged => exact returns_pNl_iff.mpr (by rw [injInfo_unchanged rssi snr hnone])
  case strips =>
    rw [heq] at hc
    rw [returns_pNl_iff, heq, injInfo_strips rssi snr ha hc hstrip]
  case keeps => exact returns_pNl_iff.mpr (by rw [injInfo_keeps rssi snr ha hc hkeep])

end Sys2Proof.Proofs
end

section
namespace Sys2Proof.Machine

/-! ## ESC: its length, and UNESC of it -/

/-- A reserved byte costs one byte more. -/
theorem length_escByte (c : Byte) : (escByte c).length = 1 + [c].count cMark + [c].count cEscb := by
  rcases escByte_cases c with ⟨rfl, h⟩ | ⟨rfl, h⟩ | ⟨hm, he, h⟩ <;> rw [h]
  · rfl
  · rfl
  · rw [List.count_singleton, List.count_singleton, if_neg (by simpa using hm), if_neg (by simpa using he)]
    rfl

theorem length_escBytes (b : Bytes) : (escBytes b).length = b.length + b.count cMark + b.count cEscb := by
  induction b with
  | nil => rfl
  | cons c b ih =>
    have hcount (k : Byte) : (c :: b).count k = [c].count k + b.count k := List.count_append (l₁ := [c])
    rw [escBytes_cons, List.length_append, length_escByte, ih, List.length_cons, hcount, hcount]
    omega

/-- UNESC reads what ESC wrote for one byte as that byte, and goes on after it. -/
theorem unescBytes_escByte_append (c : Byte) (rest : Bytes) :
    unescBytes (escByte c ++ rest) = (unescBytes rest).map (c :: ·) := by
  rcases escByte_cases c with ⟨rfl, h⟩ | ⟨rfl, h⟩ | ⟨_, he, h⟩ <;> rw [h]
  · exact unescBytes_escb_subm rest
  · exact unescBytes_escb_sube rest
  · exact unescBytes_cons c rest he

/-- R135. -/
theorem unescBytes_escBytes (b : Bytes) : unescBytes (escBytes b) = .ok b := by
  induction b with
  | nil => rfl
  | cons c b ih => rw [escBytes_cons, unescBytes_escByte_append, ih]; rfl

/-- R134: without `0xC0`, what UNESC reads first is what ESC writes for the byte it gives. -/
theorem unescBytes_ok_cases {e u : Bytes} (h : unescBytes e = .ok u) (hmark : cMark ∉ e) :
    (e = [] ∧ u = []) ∨ ∃ c v rest, e = escByte c ++ rest ∧ u = c :: v ∧ unescBytes rest = .ok v := by
  have hread (c : Byte) (rest : Bytes) (he : e = escByte c ++ rest) :
      ∃ c v rest, e = escByte c ++ rest ∧ u = c :: v ∧ unescBytes rest = .ok v := by
    rw [he, unescBytes_escByte_append] at h
    obtain ⟨v, hv, rfl⟩ := exists_of_map_eq_ok h
    exact ⟨c, v, rest, he, rfl, hv⟩
  cases e with
  | nil => cases h; exact .inl ⟨rfl, rfl⟩
  | cons c tail =>
    right
    rcases escByte_cases c with ⟨rfl, -⟩ | ⟨rfl, -⟩ | ⟨-, -, hc⟩
    · exact absurd List.mem_cons_self hmark
    · by_cases hm : tail.head? = some cSubm
      · obtain ⟨rest, rfl⟩ := List.head?_eq_some_iff.mp hm
        exact hread cMark rest rfl
      · by_cases he : tail.head? = some cSube
        · obtain ⟨rest, rfl⟩ := List.head?_eq_some_iff.mp he
          exact hread cEscb rest rfl
        · rw [unescBytes_bad tail hm he] at h
          cases h
    · exact hread c tail (by rw [hc]; rfl)

/-- R135: only a bare `0xC0` is read by UNESC as a byte that ESC writes in another way. -/
theorem escBytes_of_unescBytes {e u : Bytes} (h : unescBytes e = .ok u) (hmark : cMark ∉ e) : escBytes u = e := by
  induction u generalizing e with
  | nil =>
    obtain ⟨rfl, -⟩ | ⟨_, _, _, -, hu, -⟩ := unescBytes_ok_cases h hmark
    · rfl
    · cases hu
  | cons c v ih =>
    obtain ⟨-, hu⟩ | ⟨_, _, rest, rfl, hu, hrest⟩ := unescBytes_ok_cases h hmark
    · cases hu
    · cases hu
      rw [escBytes_cons, ih hrest fun hin => hmark (List.mem_append_right _ hin)]

/-! ## The serial form of UNESC -/

/-- R136: what the serial form holds back while `ESCP = 1`, an escape byte read and not yet resolved. -/
def heldEscb (escp : Bool) : Bytes := if escp then [cEscb] else []

/-- R136: one row of the table is what UNESC does with one byte after the escape byte held back. -/
theorem unescBytes_heldEscb_cons (escp : Bool) (c : Byte) (cs : Bytes) :
    unescBytes (heldEscb escp ++ c :: cs) =
      (unescStep escp c).bind fun row => (unescBytes (heldEscb row.2 ++ cs)).map (row.1 ++ ·) := by
  rcases unescStep_cases escp c with ⟨rfl, rfl, h⟩ | ⟨rfl, hc, h⟩ | ⟨rfl, rfl, h⟩ | ⟨rfl, rfl, h⟩ | ⟨rfl, hm, he, h⟩ <;>
    rw [h]
  · exact (id_map (unescBytes (cEscb :: cs))).symm
  · exact unescBytes_cons c cs hc
  · exact unescBytes_escb_subm cs
  · exact unescBytes_escb_sube cs
  · exact unescBytes_bad (c :: cs) (by simpa using hm) (by simpa using he)

section
variable {first last e : Bool} {c : Byte} {s : State} {out cs : Bytes} {f : Failure}

/-- R136: a row that fails. -/
theorem exec_unescByte_of_error (h : unescStep (!first && s.escp) c = .error f) :
    exec (transportInstr (.unesc first last) c) s = .next (s.setEscp false (.fail f)) := by
  rw [exec_transportInstr, transportByte, unescSerial, h]

/-- R136: a row that gives an output, unless the input ends with `ESCP = 1`. -/
theorem exec_unescByte_of_ok (h : unescStep (!first && s.escp) c = .ok (out, e)) (hend : (last && e) = false) :
    exec (transportInstr (.unesc first last) c) s = .next (s.setEscp e (.ok (.bytes out))) := by
  rw [exec_transportInstr, transportByte, unescSerial, h]
  dsimp only
  rw [hend]
  rfl

/-- R136: "at the end of the input, `ESCP = 1` raises `FramingError(1)`". -/
theorem exec_unescByte_of_end (h : unescStep (!first && s.escp) c = .ok (out, true)) :
    exec (transportInstr (.unesc first true) c) s = .next (s.setEscp false (.fail badEscape)) := by
  rw [exec_transportInstr, transportByte, unescSerial, h]
  rfl

theorem serialUnesc_cons_of_fail
    (h : exec (transportInstr (.unesc first cs.isEmpty) c) s = .next (s.setEscp e (.fail f))) :
    serialUnesc first (c :: cs) s = .error f := by
  rw [serialUnesc, h]
  rfl

theorem serialUnesc_cons_of_ok
    (h : exec (transportInstr (.unesc first cs.isEmpty) c) s = .next (s.setEscp e (.ok (.bytes out)))) :
    serialUnesc first (c :: cs) s = (serialUnesc false cs (s.setEscp e (.ok (.bytes out)))).map (out ++ ·) := by
  rw [serialUnesc, h]
  rfl

end

/-- R136: the serial form gives what UNESC gives for the escape byte held back and the bytes to come. No byte to come
means that none is held back: the byte before was the last one, and would have failed. -/
theorem serialUnesc_eq (first : Bool) (cs : Bytes) (s : State) (hheld : cs = [] → (!first && s.escp) = false) :
    serialUnesc first cs s = unescBytes (heldEscb (!first && s.escp) ++ cs) := by
  induction cs generalizing first s with
  | nil => rw [hheld rfl]; rfl
  | cons c cs ih =>
    rw [unescBytes_heldEscb_cons]
    cases hrow : unescStep (!first && s.escp) c with
    | error f => exact serialUnesc_cons_of_fail (exec_unescByte_of_error hrow)
    | ok row =>
      obtain ⟨out, e⟩ := row
      by_cases hend : cs = [] ∧ e = true
      · obtain ⟨rfl, rfl⟩ := hend
        exact serialUnesc_cons_of_fail (exec_unescByte_of_end hrow)
      · rw [serialUnesc_cons_of_ok (exec_unescByte_of_ok hrow (by simpa using hend)), ih]
        · rfl
        · simpa using hend

end Sys2Proof.Machine
end

section
namespace Sys2Proof.Proofs
open Sys2Proof.Machine

/-- Settles O26: ESC is its form for one byte, joined. -/
theorem escReplacesTheTwoReservedBytes : Obligations.EscReplacesTheTwoReservedBytes :=
  fun _ b => ⟨escBytes b, returns_esc_bytes_iff.mpr rfl, rfl, length_escBytes b, mark_notMem_escBytes b⟩

/-- Settles O27: by the first byte, and after `0xDB` by the second. -/
theorem unescReadsPairsLeftToRight : Obligations.UnescReadsPairsLeftToRight := by
  refine fun s => ⟨rfl, rfl, fun d rest hm he => ?bad, fun rest => ⟨fun u hu => ?ok, fun hfail => ?fail, ?total⟩⟩
  case bad => exact returns_unesc_fail_iff.mpr (unescBytes_bad (d :: rest) (by simpa using hm) (by simpa using he))
  case ok =>
    rw [returns_unesc_bytes_iff] at hu
    simp only [returns_unesc_bytes_iff]
    refine ⟨?_, ?_, fun c hc => ?_⟩
    · rw [unescBytes_escb_subm, hu]; rfl
    · rw [unescBytes_escb_sube, hu]; rfl
    · rw [unescBytes_cons c rest hc, hu]; rfl
  case fail =>
    rw [returns_unesc_fail_iff] at hfail
    simp only [returns_unesc_fail_iff]
    refine ⟨?_, ?_, fun c hc => ?_⟩
    · rw [unescBytes_escb_subm, hfail]; rfl
    · rw [unescBytes_escb_sube, hfail]; rfl
    · rw [unescBytes_cons c rest hc, hfail]; rfl
  case total =>
    cases hrest : unescBytes rest with
    | ok u => exact .inl ⟨u, returns_unesc_bytes_iff.mpr hrest⟩
    | error f =>
      obtain rfl := unescBytes_error rest f hrest
      exact .inr (returns_unesc_fail_iff.mpr hrest)

/-- Settles O28: ESC writes no `0xC0`, and a bare one is all that UNESC reads in another way than ESC writes it. -/
theorem unescInvertsEsc : Obligations.UnescInvertsEsc := by
  refine ⟨fun s b => ⟨escBytes b, returns_esc_bytes_iff.mpr rfl, returns_unesc_bytes_iff.mpr (unescBytes_escBytes b)⟩,
    fun s e u hu => ?converse⟩
  rw [returns_unesc_bytes_iff] at hu
  rw [returns_esc_bytes_iff]
  constructor
  · rintro rfl
    exact mark_notMem_escBytes u
  · exact escBytes_of_unescBytes hu

/-- Settles O29: the rows one by one, and the whole input by the escape byte held back between two bytes. -/
theorem serialFormAgreesWithUnesc : Obligations.SerialFormAgreesWithUnesc := by
  refine ⟨fun s c first last => ⟨fun hp hc hl => ?held, fun hp hc hl => ?atEnd, fun hp hc => ?data, fun hp hc => ?mark,
    fun hp hc => ?escb, fun hp hm he => ?bad⟩, fun s e => ?agrees⟩
  case held => exact exec_unescByte_of_ok (by rw [hp, hc]; rfl) (by rw [hl]; rfl)
  case atEnd => exact ⟨false, hl ▸ exec_unescByte_of_end (by rw [hp, hc]; rfl)⟩
  case data => exact exec_unescByte_of_ok (by rw [hp]; exact if_neg hc) (Bool.and_false _)
  case mark => exact exec_unescByte_of_ok (by rw [hp, hc]; rfl) (Bool.and_false _)
  case escb => exact exec_unescByte_of_ok (by rw [hp, hc]; rfl) (Bool.and_false _)
  case bad => exact ⟨false, exec_unescByte_of_error (by rw [hp]; exact (if_neg hm).trans (if_neg he))⟩
  case agrees => exact returns_unesc_iff.mpr (congrArg _ (serialUnesc_eq true e s fun _ => rfl).symm)

end Sys2Proof.Proofs
end

section
namespace Sys2Proof.Machine

/-! ## The transitions (R152 to R155) -/

variable {max : Option Nat} {buf : Bytes} {c : Byte}

theorem dlmTransition_idle_mark : dlmTransition max .idle buf cMark = (.started, [cMark], .none) := rfl

theorem dlmTransition_idle_of_ne (hc : c ≠ cMark) : dlmTransition max .idle buf c = (.idle, buf, .none) := if_neg hc

theorem dlmTransition_started_mark : dlmTransition max .started buf cMark = (.idle, [], .none) := rfl

theorem dlmTransition_started_of_ne (hc : c ≠ cMark) :
    dlmTransition max .started buf c = (.inBody, buf ++ [c], .none) :=
  if_neg hc

theorem dlmTransition_inBody_mark (hroom : max ≠ some buf.length) :
    dlmTransition max .inBody buf cMark = (.idle, [], .frame (buf ++ [cMark])) :=
  if_neg hroom

theorem dlmTransition_inBody_of_ne (hroom : max ≠ some buf.length) (hc : c ≠ cMark) :
    dlmTransition max .inBody buf c = (.inBody, buf ++ [c], .none) :=
  (if_neg hroom).trans (if_neg hc)

theorem dlmTransition_full_mark (hfull : max = some buf.length) :
    dlmTransition max .inBody buf cMark = (.idle, [], .overrun) :=
  if_pos hfull

theorem dlmTransition_full_of_ne (hfull : max = some buf.length) (hc : c ≠ cMark) :
    dlmTransition max .inBody buf c = (.overrun, [], .overrun) := by
  rw [dlmTransition, if_pos hfull, if_neg hc]

theorem dlmTransition_overrun_mark : dlmTransition max .overrun buf cMark = (.idle, buf, .none) := rfl

theorem dlmTransition_overrun_of_ne (hc : c ≠ cMark) :
    dlmTransition max .overrun buf c = (.overrun, buf, .none) := by
  rw [dlmTransition, if_neg hc]

/-! ## A run of transitions -/

/-- R157: the result of one byte before those of the bytes after it, unless it is `none`. -/
def keepResult (r : DlmResult) (out : Dst × Bytes × List DlmResult) : Dst × Bytes × List DlmResult :=
  (out.1, out.2.1, if r = .none then out.2.2 else r :: out.2.2)

/-- What the delimiter of a peer does with a chunk: the two registers after it, and the results. -/
def dlmRun (max : Option Nat) : Bytes → Dst → Bytes → Dst × Bytes × List DlmResult
  | [], dst, buf => (dst, buf, [])
  | c :: cs, dst, buf =>
    keepResult (dlmTransition max dst buf c).2.2
      (dlmRun max cs (dlmTransition max dst buf c).1 (dlmTransition max dst buf c).2.1)

variable {dst dst' : Dst} {buf' cs : Bytes} {r : DlmResult}

theorem dlmRun_cons (h : dlmTransition max dst buf c = (dst', buf', r)) :
    dlmRun max (c :: cs) dst buf = keepResult r (dlmRun max cs dst' buf') := by
  rw [dlmRun, h]

theorem dlmRun_cons_of_none (h : dlmTransition max dst buf c = (dst', buf', .none)) :
    dlmRun max (c :: cs) dst buf = dlmRun max cs dst' buf' :=
  dlmRun_cons h

/-- R152, R155: `IDLE` and `OVERRUN` wait for a marker. -/
theorem dlmRun_discards (h : ∀ c, c ≠ cMark → dlmTransition max dst buf c = (dst, buf, .none)) :
    ∀ {body : Bytes}, cMark ∉ body → dlmRun max (body ++ cs) dst buf = dlmRun max cs dst buf
  | [], _ => rfl
  | c :: body, hbody => by
    obtain ⟨hc, hbody⟩ := List.ne_and_not_mem_of_not_mem_cons hbody
    rw [List.cons_append, dlmRun_cons_of_none (h c hc.symm), dlmRun_discards h hbody]

/-- R152, R153: two bytes that start a frame. -/
theorem dlmRun_starts (hc : c ≠ cMark) :
    dlmRun max (cMark :: c :: cs) .idle buf = dlmRun max cs .inBody [cMark, c] := by
  rw [dlmRun_cons_of_none dlmTransition_idle_mark, dlmRun_cons_of_none (dlmTransition_started_of_ne hc)]
  rfl

/-- R153: two markers start no frame. -/
theorem dlmRun_two_marks : dlmRun max (cMark :: cMark :: cs) .idle buf = dlmRun max cs .idle [] := by
  rw [dlmRun_cons_of_none dlmTransition_idle_mark, dlmRun_cons_of_none dlmTransition_started_mark]

/-- R159 (c): of a run of markers only the parity of its length is seen. -/
theorem dlmRun_marks : ∀ m : Nat, dlmRun max (List.replicate m cMark ++ cs) .idle [] =
    if m % 2 = 1 then dlmRun max cs .started [cMark] else dlmRun max cs .idle []
  | 0 => rfl
  | 1 => dlmRun_cons_of_none dlmTransition_idle_mark
  | m + 2 => by
    rw [List.replicate_succ, List.replicate_succ, List.cons_append, List.cons_append, dlmRun_two_marks, dlmRun_marks m,
      Nat.add_mod_right]

/-! ## Whole frames (R155) -/

theorem WithinCap.ne_some_of_lt {cap : Option Nat} {n k : Nat} (h : WithinCap cap n) (hk : k < n) : cap ≠ some k :=
  fun hcap => Nat.not_le_of_lt hk (h k hcap)

/-- R154: the rest of a frame that fits. -/
theorem dlmRun_inBody_of_fits {body : Bytes} (hbody : cMark ∉ body)
    (hfits : WithinCap max (buf ++ body ++ [cMark]).length) :
    dlmRun max (body ++ cMark :: cs) .inBody buf =
      keepResult (.frame (buf ++ body ++ [cMark])) (dlmRun max cs .idle []) := by
  induction body generalizing buf with
  | nil =>
    rw [List.append_nil] at hfits ⊢
    exact dlmRun_cons (dlmTransition_inBody_mark (hfits.ne_some_of_lt (by simp)))
  | cons c body ih =>
    obtain ⟨hc, hbody⟩ := List.ne_and_not_mem_of_not_mem_cons hbody
    have hroom : max ≠ some buf.length := hfits.ne_some_of_lt (by simp)
    rw [List.append_cons buf] at hfits ⊢
    rw [List.cons_append, dlmRun_cons_of_none (dlmTransition_inBody_of_ne hroom hc.symm), ih hbody hfits]

/-- R155: the rest of a frame that does not fit: `overrun` at the byte that finds the buffer full, and nothing after it. -/
theorem dlmRun_inBody_of_long {m : Nat} (hmax : max = some m) {body : Bytes} (hbody : cMark ∉ body)
    (hbuf : buf.length ≤ m) (hlong : m < (buf ++ body ++ [cMark]).length) :
    dlmRun max (body ++ cMark :: cs) .inBody buf = keepResult .overrun (dlmRun max cs .idle []) := by
  subst hmax
  induction body generalizing buf with
  | nil =>
    rw [List.append_nil, List.length_append] at hlong
    exact dlmRun_cons (dlmTransition_full_mark (congrArg some (Nat.le_antisymm (Nat.le_of_lt_succ hlong) hbuf)))
  | cons c body ih =>
    obtain ⟨hc, hbody⟩ := List.ne_and_not_mem_of_not_mem_cons hbody
    rw [List.cons_append]
    rcases Nat.eq_or_lt_of_le hbuf with hfull | hroom
    · rw [dlmRun_cons (dlmTransition_full_of_ne (congrArg some hfull.symm) hc.symm),
        dlmRun_discards (fun _ => dlmTransition_overrun_of_ne) hbody, dlmRun_cons_of_none dlmTransition_overrun_mark]
    · rw [List.append_cons buf] at hlong
      rw [dlmRun_cons_of_none (dlmTransition_inBody_of_ne (by simpa using Nat.ne_of_gt hroom) hc.symm)]
      exact ih hbody (by simpa using hroom) hlong

/-- A delimited frame by its first bytes: the marker, one other byte, the rest of the body, the marker. -/
theorem delimited_iff {f : Bytes} :
    Delimited f ↔ ∃ c body, c ≠ cMark ∧ cMark ∉ body ∧ f = cMark :: c :: (body ++ [cMark]) := by
  constructor
  · rintro ⟨mid, rfl, hne, hmid⟩
    cases mid with
    | nil => exact absurd rfl hne
    | cons c body =>
      obtain ⟨hc, hbody⟩ := List.ne_and_not_mem_of_not_mem_cons hmid
      exact ⟨c, body, hc.symm, hbody, rfl⟩
  · rintro ⟨c, body, hc, hbody, rfl⟩
    exact ⟨c :: body, rfl, List.cons_ne_nil c body, List.not_mem_cons_of_ne_of_not_mem hc.symm hbody⟩

/-- R159 (d). -/
theorem Delimited.three_le_length {f : Bytes} (h : Delimited f) : 3 ≤ f.length := by
  obtain ⟨c, body, -, -, rfl⟩ := delimited_iff.mp h
  simp

/-- R155: a frame that fits. -/
theorem dlmRun_frame_of_fits {f : Bytes} (hf : Delimited f) (hfits : WithinCap max f.length) :
    dlmRun max (f ++ cs) .idle buf = keepResult (.frame f) (dlmRun max cs .idle []) := by
  obtain ⟨c, body, hc, hbody, rfl⟩ := delimited_iff.mp hf
  rw [List.cons_append, List.cons_append, dlmRun_starts hc, List.append_assoc]
  exact dlmRun_inBody_of_fits hbody hfits

/-- R155: a longer one. -/
theorem dlmRun_frame_of_long {m : Nat} (hmax : max = some m) (hm : 2 ≤ m) {f : Bytes} (hf : Delimited f)
    (hlong : m < f.length) : dlmRun max (f ++ cs) .idle buf = keepResult .overrun (dlmRun max cs .idle []) := by
  obtain ⟨c, body, hc, hbody, rfl⟩ := delimited_iff.mp hf
  rw [List.cons_append, List.cons_append, dlmRun_starts hc, List.append_assoc]
  exact dlmRun_inBody_of_long hmax hbody hm hlong

/-! ## DLM.BYTE and DLM.PARSE of a peer of the block -/

variable {s : State} {p : Nat} {q : Peer} {rs : List DlmResult}

theorem dlmByte_of_transition (hq : s.peers[p]? = some q)
    (h : dlmTransition s.params.maxframe q.dst q.buf c = (dst, buf, r)) :
    dlmByte p c s = ({ s with peers := s.peers.set p { q with dst := dst, buf := buf } }, r) := by
  apply Prod.ext
  · rw [dlmByte_fst, updPeer_set s p _ q hq, Peer.dlmNext, h]
  · rw [dlmByte_snd p c s q hq, h]

theorem dlmParse_eq_dlmRun (p : Nat) : ∀ (cs : Bytes) {s : State} {q : Peer}, s.peers[p]? = some q →
    dlmParse p cs s =
      ({ s with peers := s.peers.set p { q with
          dst := (dlmRun s.params.maxframe cs q.dst q.buf).1, buf := (dlmRun s.params.maxframe cs q.dst q.buf).2.1 } },
        (dlmRun s.params.maxframe cs q.dst q.buf).2.2)
  | [], s, q, hq => by
    obtain ⟨hp, rfl⟩ := List.getElem?_eq_some_iff.mp hq
    exact congrArg (fun l => ({ s with peers := l }, [])) (List.set_getElem_self hp).symm
  | c :: cs, s, q, hq => by
    obtain ⟨hp, -⟩ := List.getElem?_eq_some_iff.mp hq
    rw [dlmParse_cons, dlmByte_of_transition hq rfl, dlmParse_eq_dlmRun p cs (List.getElem?_set_self hp)]
    dsimp only
    rw [List.set_set]
    rfl

theorem dlmParse_of_dlmRun (hq : s.peers[p]? = some q)
    (h : dlmRun s.params.maxframe cs q.dst q.buf = (dst, buf, rs)) :
    dlmParse p cs s = ({ s with peers := s.peers.set p { q with dst := dst, buf := buf } }, rs) := by
  rw [dlmParse_eq_dlmRun p cs hq, h]

/-- A chunk that leaves the two registers as they were changes nothing. -/
theorem dlmParse_of_dlmRun_same (hq : s.peers[p]? = some q)
    (h : dlmRun s.params.maxframe cs q.dst q.buf = (q.dst, q.buf, rs)) : dlmParse p cs s = (s, rs) := by
  obtain ⟨hp, rfl⟩ := List.getElem?_eq_some_iff.mp hq
  rw [dlmParse_of_dlmRun hq h]
  exact congrArg (fun l => ({ s with peers := l }, rs)) (List.set_getElem_self hp)

theorem exec_dlmByte (p : Nat) (c : Byte) (s : State) :
    exec (.dlmByte p c) s = .next ((dlmByte p c s).1.setResult (.ok (.dlm (dlmByte p c s).2))) :=
  rfl

theorem exec_dlmParse (p : Nat) (cs : Bytes) (s : State) :
    exec (.dlmParse p cs) s = .next ((dlmParse p cs s).1.setResult (.ok (.dlms (dlmParse p cs s).2))) :=
  rfl

theorem exec_dlmByte_of_transition (hq : s.peers[p]? = some q)
    (h : dlmTransition s.params.maxframe q.dst q.buf c = (dst, buf, r)) :
    exec (.dlmByte p c) s = .next { s with
      peers := s.peers.set p { q with dst := dst, buf := buf }, result := .ok (.dlm r) } := by
  rw [exec_dlmByte, dlmByte_of_transition hq h]
  rfl

theorem exec_dlmParse_of_dlmRun (hq : s.peers[p]? = some q)
    (h : dlmRun s.params.maxframe cs q.dst q.buf = (dst, buf, rs)) :
    exec (.dlmParse p cs) s = .next { s with
      peers := s.peers.set p { q with dst := dst, buf := buf }, result := .ok (.dlms rs) } := by
  rw [exec_dlmParse, dlmParse_of_dlmRun hq h]
  rfl

theorem returns_dlmParse_of_eq (h : dlmParse p cs s = (s, rs)) : Returns (.dlmParse p cs) s (.ok (.dlms rs)) := by
  rw [Returns, exec_dlmParse, h]
  rfl

/-- DLM.PARSE does not read the result register. -/
theorem exec_dlmParse_setResult (p : Nat) (cs : Bytes) (s : State) (r : OpResult) :
    exec (.dlmParse p cs) (s.setResult r) = exec (.dlmParse p cs) s := by
  rw [exec_dlmParse, dlmParse_setResult]
  rfl

/-- R155: one frame that fits, met in `IDLE`. -/
theorem dlmParse_frame_of_fits (hq : s.peers[p]? = some q) (hdst : q.dst = .idle) (hbuf : q.buf = []) {f : Bytes}
    (hf : Delimited f) (hfits : WithinCap s.params.maxframe f.length) : dlmParse p f s = (s, [.frame f]) := by
  have hrun := dlmRun_frame_of_fits (buf := []) (cs := []) hf hfits
  rw [List.append_nil] at hrun
  refine dlmParse_of_dlmRun_same hq ?_
  rw [hdst, hbuf, hrun]
  rfl

/-- R155: a longer one. -/
theorem dlmParse_frame_of_long (hq : s.peers[p]? = some q) (hdst : q.dst = .idle) (hbuf : q.buf = []) {m : Nat}
    (hmax : s.params.maxframe = some m) (hm : 2 ≤ m) {f : Bytes} (hf : Delimited f) (hlong : m < f.length) :
    dlmParse p f s = (s, [.overrun]) := by
  have hrun := dlmRun_frame_of_long (buf := []) (cs := []) hmax hm hf hlong
  rw [List.append_nil] at hrun
  refine dlmParse_of_dlmRun_same hq ?_
  rw [hdst, hbuf, hrun]
  rfl

theorem keep_append (r : DlmResult) (rs rs' : List DlmResult) :
    (if r = .none then rs ++ rs' else r :: (rs ++ rs')) = (if r = .none then rs else r :: rs) ++ rs' := by
  split <;> rfl

/-- R158. -/
theorem dlmParse_append (p : Nat) (b : Bytes) : ∀ (a : Bytes) (s : State),
    dlmParse p (a ++ b) s =
      ((dlmParse p b (dlmParse p a s).1).1, (dlmParse p a s).2 ++ (dlmParse p b (dlmParse p a s).1).2)
  | [], _ => rfl
  | c :: a, s => by
    rw [List.cons_append, dlmParse_cons, dlmParse_append p b a, dlmParse_cons]
    exact congrArg _ (keep_append ..)

/-- R156. -/
theorem dlmReset_dlmReset (p : Nat) (s : State) : dlmReset p (dlmReset p s) = dlmReset p s :=
  updPeer_updPeer s p Peer.dlmReset Peer.dlmReset

/-! ## What a delivered frame is (R159) -/

/-- R154: a frame is delivered at the marker after a body, and only there. -/
theorem dlmTransition_eq_frame {f : Bytes} (h : (dlmTransition max dst buf c).2.2 = .frame f) :
    dst = .inBody ∧ f = buf ++ [cMark] := by
  unfold dlmTransition at h
  cases dst with
  | idle | started => dsimp only at h; split_ifs at h
  | overrun => cases h
  | inBody =>
    dsimp only at h
    split_ifs at h
    cases h
    exact ⟨rfl, rfl⟩

/-- R159 (a). -/
theorem delimited_of_dlmTransition {f : Bytes} (h : RegsOk max dst buf)
    (hf : (dlmTransition max dst buf c).2.2 = .frame f) : Delimited f := by
  obtain ⟨rfl, rfl⟩ := dlmTransition_eq_frame hf
  obtain ⟨body, rfl, hne, hbody⟩ := h.shape
  exact ⟨body, rfl, hne, hbody⟩

theorem delimited_of_dlmByte (hs : Inv s) {f : Bytes} (hf : (dlmByte p c s).2 = .frame f) : Delimited f := by
  cases hq : s.peers[p]? with
  | none => rw [dlmByte_absent p c s hq] at hf; cases hf
  | some q =>
    rw [dlmByte_snd p c s q hq] at hf
    exact delimited_of_dlmTransition (hs.peers q (List.mem_of_getElem? hq)).regs hf

theorem delimited_of_mem_dlmParse {f : Bytes} (hs : Inv s) (hf : .frame f ∈ (dlmParse p cs s).2) : Delimited f := by
  induction cs generalizing s with
  | nil => cases hf
  | cons c cs ih =>
    have hnext : Inv (dlmByte p c s).1 := hs.dlmParse p [c]
    rw [dlmParse_cons] at hf
    dsimp only at hf
    split at hf
    · exact ih hnext hf
    · rcases List.mem_cons.mp hf with hf | hf
      · exact delimited_of_dlmByte hs hf.symm
      · exact ih hnext hf

/-! ## WRAP and UNWRAP (R160, R162) -/

/-- UNESC reads what ESC wrote and goes on after it. -/
theorem unescBytes_escBytes_append (b rest : Bytes) :
    unescBytes (escBytes b ++ rest) = (unescBytes rest).map (b ++ ·) := by
  induction b with
  | nil => exact (id_map (unescBytes rest)).symm
  | cons c b ih =>
    rw [escBytes_cons, List.append_assoc, unescBytes_escByte_append, ih]
    cases unescBytes rest <;> rfl

theorem unescBytes_wrapBytes (body : Bytes) :
    unescBytes (wrapBytes body) = .ok (cMark :: cCmdData :: body ++ [cMark]) := by
  have hbody : unescBytes (escBytes body ++ [cMark]) = .ok (body ++ [cMark]) := unescBytes_escBytes_append body [cMark]
  rw [wrapBytes, wrapTail, unescBytes_cons cMark _ (by decide), List.cons_append,
    unescBytes_cons cCmdData _ (by decide), hbody]
  rfl

theorem unwrapBytes_of_error {f : Bytes} {e : Failure} (h : unescBytes f = .error e) : unwrapBytes f = .error e := by
  rw [unwrapBytes, h]

theorem unwrapBytes_of_marks {f body : Bytes} {cmd : Byte}
    (h : unescBytes f = .ok (cMark :: cmd :: body ++ [cMark])) : unwrapBytes f = .ok (cmd, body) := by
  have hlast : (cMark :: cmd :: body ++ [cMark]).getLast? = some cMark := List.getLast?_concat
  rw [unwrapBytes, h]
  dsimp only
  rw [hlast]
  simp

/-- The test of R162 finds the two markers and one byte at least between them. -/
theorem exists_marks {u : Bytes} (hlen : 3 ≤ u.length) (hhead : u.head? = some cMark)
    (hlast : u.getLast? = some cMark) : ∃ cmd body, u = cMark :: cmd :: body ++ [cMark] := by
  obtain ⟨init, rfl⟩ := List.getLast?_eq_some_iff.mp hlast
  match init with
  | [] | [_] => simp at hlen
  | c :: cmd :: body =>
    cases hhead
    exact ⟨cmd, body, rfl⟩

theorem unwrapBytes_of_not_marks {f u : Bytes} (h : unescBytes f = .ok u)
    (hu : ∀ cmd body, u ≠ cMark :: cmd :: body ++ [cMark]) : unwrapBytes f = .error badMarkers := by
  rw [unwrapBytes, h]
  refine if_pos ?_
  by_contra hok
  simp only [not_or, not_lt, not_not] at hok
  obtain ⟨hlen, hhead, hlast⟩ := hok
  obtain ⟨cmd, body, rfl⟩ := exists_marks hlen hhead hlast
  exact hu cmd body rfl

theorem returns_unwrap_fail_iff {f : Bytes} {e : Failure} :
    Returns (.unwrap f) s (.fail e) ↔ unwrapBytes f = .error e :=
  (returns_iff_of_exec rfl).trans outcome_fail_iff

end Sys2Proof.Machine
end

section
namespace Sys2Proof.Proofs
open Sys2Proof.Machine

/-- Settles O32: one transition for each delimiter state, on the marker and on any other byte. -/
theorem delimiterTransitions : Obligations.DelimiterTransitions := by
  intro s p q c hq
  have goes {d b r} (h : dlmTransition s.params.maxframe q.dst q.buf c = (d, b, r)) := exec_dlmByte_of_transition hq h
  refine ⟨?_, ?_, ?_, ?_, ?_, ?_, ?_, ?_, ?_, ?_⟩
  · exact fun hd hc => goes (by rw [hd, hc, dlmTransition_idle_mark])
  · exact fun hd hc => goes (by rw [hd, dlmTransition_idle_of_ne hc])
  · exact fun hd hc => goes (by rw [hd, hc, dlmTransition_started_mark])
  · exact fun hd hc => goes (by rw [hd, dlmTransition_started_of_ne hc])
  · exact fun hd hroom hc => goes (by rw [hd, hc, dlmTransition_inBody_mark hroom])
  · exact fun hd hroom hc => goes (by rw [hd, dlmTransition_inBody_of_ne hroom hc])
  · exact fun hd hfull hc => goes (by rw [hd, hc, dlmTransition_full_mark hfull])
  · exact fun hd hfull hc => goes (by rw [hd, dlmTransition_full_of_ne hfull hc])
  · exact fun hd hc => goes (by rw [hd, hc, dlmTransition_overrun_mark])
  · exact fun hd hc => goes (by rw [hd, dlmTransition_overrun_of_ne hc])

/-- Settles O33: byte by byte, the buffer is full before the end marker if and only if the frame is too long. -/
theorem frameIsDeliveredIffItFitsTheBuffer : Obligations.FrameIsDeliveredIffItFitsTheBuffer := by
  intro s p q frame hq hdst hbuf hparams hframe
  refine ⟨fun hfits => returns_dlmParse_of_eq (dlmParse_frame_of_fits hq hdst hbuf hframe hfits), fun m hm hlong => ?_⟩
  have hparse := dlmParse_frame_of_long hq hdst hbuf hm (Nat.le_of_succ_le (hparams.maxframe m hm)) hframe hlong
  refine ⟨returns_dlmParse_of_eq hparse, fun hrun hconn => congrArg Host.Outcome.next ?_⟩
  have hconn' : isConnected p s = true := by rw [isConnected, hq]; exact hconn
  calc brNetrx p frame s = brResults p [.overrun] s := by
        rw [brNetrx_of_connected hrun hconn', brNetrxLoop_eq, hparse]
    _ = failEntry .netToRadio p (bufferOverflow (some m)) s := by rw [← hm]; rfl

/-- Settles O34: the second DLM.RESET writes what the first one wrote. -/
theorem delimiterResetGoesToIdle : Obligations.DelimiterResetGoesToIdle := by
  intro s p q hq
  refine ⟨(dlmReset p s).setResult (.ok .unit), rfl, ?_, ?_⟩
  · rw [dlmReset, updPeer_set s p _ q hq]
    rfl
  · exact congrArg (fun t => Host.Outcome.next (t.setResult (.ok .unit))) (dlmReset_dlmReset p s)

/-- Settles O35: DLM.PARSE goes on from the state DLM.BYTE left, whatever DLM.BYTE returned. -/
theorem parseIsTheFoldOfByte : Obligations.ParseIsTheFoldOfByte :=
  fun _ p => ⟨rfl, fun _ cs => ⟨_, _, _, _, rfl, rfl, exec_dlmParse_setResult p cs _ _, rfl, rfl⟩⟩

/-- Settles O36: the results of a first chunk stand before those of a second one. -/
theorem delimiterIsChunkIndependent : Obligations.DelimiterIsChunkIndependent := by
  refine fun s p a b => ⟨_, _, _, _, rfl, rfl, exec_dlmParse_setResult p b _ _, rfl, ?_⟩
  rw [exec_dlmParse, dlmParse_append]
  rfl

/-- Settles O37: (a) from the invariant, (b) a frame and then bytes met in `IDLE`, (c) by the parity of the run. -/
theorem consequencesOfTheTransitions : Obligations.ConsequencesOfTheTransitions := by
  refine ⟨fun s t p chunk rs f hs ht hrs hf => ?delivered, fun s p q b1 b2 hq hdst hbuf hmax hb1 _ hm1 hm2 => ?shared,
    fun s p q m c hq hdst hbuf hc => ?parity⟩
  case delivered =>
    cases ht
    cases hrs
    have hdelim := delimited_of_mem_dlmParse hs hf
    exact ⟨hdelim, hdelim.three_le_length⟩
  case shared =>
    have hframe : Delimited (cMark :: b1 ++ [cMark]) := ⟨b1, rfl, hb1, hm1⟩
    refine exec_dlmParse_of_dlmRun hq ?_
    have hsplit : 0xC0 :: b1 ++ 0xC0 :: b2 ++ [0xC0] = (cMark :: b1 ++ [cMark]) ++ (b2 ++ [cMark]) := by simp
    rw [hsplit, hdst, hbuf, dlmRun_frame_of_fits hframe (by rw [hmax]; exact nofun),
      dlmRun_discards (fun _ => dlmTransition_idle_of_ne) hm2]
    rfl
  case parity =>
    split_ifs with hodd <;> refine exec_dlmParse_of_dlmRun hq ?_ <;> rw [hdst, hbuf, dlmRun_marks]
    · rw [if_pos hodd, dlmRun_cons_of_none (dlmTransition_started_of_ne hc)]
      rfl
    · rw [if_neg hodd, dlmRun_cons_of_none (dlmTransition_idle_of_ne hc)]
      rfl

/-- Settles O39: the escaped body holds no marker, so the two of WRAP are all, and UNESC gives the body back. -/
theorem wrapMakesOneFrameThatUnwrapInverts : Obligations.WrapMakesOneFrameThatUnwrapInverts := by
  refine fun s body => ⟨escBytes body, wrapBytes body, rfl, rfl, rfl, ?count, ?unwrap, fun p q hq hdst hbuf hfits => ?frame⟩
  case count =>
    have hbody : (escBytes body).count cMark = 0 := List.count_eq_zero.mpr (mark_notMem_escBytes body)
    rw [wrapBytes, wrapTail, List.count_cons_self, List.count_append, List.count_cons_of_ne (by decide), hbody]
    rfl
  case unwrap => exact returns_unwrap_cmdBody_iff.mpr (unwrapBytes_of_marks (unescBytes_wrapBytes body))
  case frame => exact returns_dlmParse_of_eq (dlmParse_frame_of_fits hq hdst hbuf (delimited_wrapBytes body) hfits)

/-- Settles O40: by what UNESC gives for the frame. -/
theorem unwrapUnescapesThenStrips : Obligations.UnwrapUnescapesThenStrips := by
  refine fun s f => ⟨fun e he => ?_, fun u hu => ⟨fun cmd body hmarks => ?_, fun hmarks => ?_⟩⟩
  · exact returns_unwrap_fail_iff.mpr (unwrapBytes_of_error (returns_unesc_fail_iff.mp he))
  · exact returns_unwrap_cmdBody_iff.mpr (unwrapBytes_of_marks (hmarks ▸ returns_unesc_bytes_iff.mp hu))
  · exact returns_unwrap_fail_iff.mpr (unwrapBytes_of_not_marks (returns_unesc_bytes_iff.mp hu) hmarks)

end Sys2Proof.Proofs
end

section
namespace Sys2Proof.Machine

/-! ## The fields of a packed address -/

theorem charOfWire_eq : ∀ c : Byte, charOfWire c = BitVec.ofNat 8 (c.toNat / 2) := by decide

theorem toNat_ssidOfWire : ∀ c : Byte, (ssidOfWire c).toNat = c.toNat / 2 % 16 := by decide

theorem toNat_hrrOfWire : ∀ c : Byte, (hrrOfWire c).toNat = c.toNat / 32 := by decide

theorem extOfWire_eq_true_iff : ∀ c : Byte, extOfWire c = true ↔ c.toNat % 2 = 1 := by decide

theorem toNat_ssidWire : ∀ (h : Bool) (ssid : BitVec 4) (x : Bool), (ssidWire h ssid x).toNat =
    (if h then 0x80 else 0) + 0x60 + 2 * ssid.toNat + (if x then 1 else 0) := by decide

/-- R181: with seven bytes at the offset ADDR.UNPACK reads those seven, and no other byte of the input. -/
theorem addrUnpack_of_le {b : Bytes} {off : Nat} (h : off + 7 ≤ b.length) :
    addrUnpack b off = .ok ⟨trimRight (((b.drop off).take 6).map charOfWire), ssidOfWire (b.getD (off + 6) 0),
      hrrOfWire (b.getD (off + 6) 0), extOfWire (b.getD (off + 6) 0)⟩ := by
  have hchars : (memRead b off 7).take 6 = (b.drop off).take 6 := List.take_take
  have hlast : (memRead b off 7).getD 6 0 = b.getD (off + 6) 0 := by simp [memRead, List.getD]
  rw [addrUnpack, if_neg (Nat.not_lt.mpr h)]
  dsimp only
  rw [hchars, hlast]

/-! ## The text of an address -/

theorem dec_of_le_nine {n : Nat} (h : n ≤ 9) : dec n = [BitVec.ofNat 8 (0x30 + n)] := by
  rw [dec, decDigits, if_pos (Nat.lt_succ_of_le h), Nat.mod_eq_of_lt (Nat.lt_succ_of_le h), BitVec.ofNat_add]
  rfl

theorem dec_of_ten_to_fifteen {n : Nat} (hlo : 10 ≤ n) (hhi : n ≤ 15) :
    dec n = [0x31, BitVec.ofNat 8 (0x30 + (n - 10))] := by
  interval_cases n <;> rfl

theorem addrFmt_zero (call : Bytes) : addrFmt call 0 = call := List.append_nil call

theorem addrFmt_of_ne_zero (call : Bytes) {ssid : BitVec 4} (h : ssid ≠ 0) :
    addrFmt call ssid = call ++ cDash :: dec ssid.toNat := by
  rw [addrFmt, if_pos h]

/-- R183: the SSID as a number. -/
theorem addrFmt_ofNat (call : Bytes) {n : Nat} (hpos : 1 ≤ n) (hle : n ≤ 15) :
    addrFmt call (BitVec.ofNat 4 n) = call ++ cDash :: dec n := by
  have hval : (BitVec.ofNat 4 n).toNat = n := by rw [BitVec.toNat_ofNat]; omega
  rw [addrFmt_of_ne_zero, hval]
  intro hzero
  rw [hzero] at hval
  exact absurd hval (by simp; omega)

theorem star_notMem_addrFmt {call : Bytes} (h : cStar ∉ call) (ssid : BitVec 4) : cStar ∉ addrFmt call ssid := by
  by_cases hz : ssid = 0
  · rwa [hz, addrFmt_zero]
  · rw [addrFmt_of_ne_zero call hz]
    exact List.not_mem_append h (List.not_mem_cons_of_ne_of_not_mem (by decide) (star_notMem_dec ssid))

/-- R188: the text ADDR.FMT writes is split back into what it was written from. -/
theorem splitSsid_addrFmt {call : Bytes} (h : cDash ∉ call) (ssid : BitVec 4) :
    splitSsid (addrFmt call ssid) = .ok (call, ssid) := by
  by_cases hz : ssid = 0
  · rw [hz, addrFmt_zero, splitSsid_none call h]
  · rw [addrFmt_of_ne_zero call hz, splitSsid_dash call _ h, ssidOfText_dec]

/-! ## A token -/

/-- R188: the mark of a repeated digipeater after a token. -/
theorem stripStar_append_star_if {h : Bool} {t : Bytes} (hlast : h = false → t.getLast? ≠ some cStar) :
    stripStar (t ++ if h then [cStar] else []) = (h, t) := by
  cases h
  · exact (congrArg stripStar (List.append_nil t)).trans (stripStar_none t (hlast rfl))
  · exact stripStar_star t

/-- R189: the last character of a token is that of its SSID text, or the `-` before an empty one. -/
theorem getLast?_append_dash_cons_ne_star {call text : Bytes} (h : text.getLast? ≠ some cStar) :
    (call ++ cDash :: text).getLast? ≠ some cStar := by
  cases text with
  | nil => rw [List.getLast?_concat]; decide
  | cons c text => rwa [List.getLast?_append_cons, List.getLast?_cons_cons]

/-- R188: a bad SSID text is reported whatever the callsign. -/
theorem addrParse_of_split_error {fold h : Bool} {t u : Bytes} {e : Failure} (hstar : stripStar t = (h, u))
    (hsplit : splitSsid u = .error e) : addrParse fold t = .error e := by
  rw [addrParse, hstar]
  dsimp only
  rw [hsplit]

/-! ## A well-formed callsign -/

/-- R197: a well-formed callsign holds no separator and no lower-case letter. -/
theorem wellFormed_call {a : Addr} (h : a.WellFormed) : cDash ∉ a.call ∧ cStar ∉ a.call ∧ upper a.call = a.call := by
  have hchar : ∀ c : Byte, (0x41 ≤ c ∧ c ≤ 0x5A) ∨ (0x30 ≤ c ∧ c ≤ 0x39) →
      c ≠ cDash ∧ c ≠ cStar ∧ (if 0x61 ≤ c ∧ c ≤ 0x7A then c - 0x20 else c) = c := by decide
  obtain ⟨-, -, hcall⟩ := h
  refine ⟨fun hm => ?dash, fun hm => ?star, ?upper⟩
  case dash => exact (hchar _ (hcall _ hm)).1 rfl
  case star => exact (hchar _ (hcall _ hm)).2.1 rfl
  case upper => exact (List.map_congr_left fun c hc => (hchar c (hcall c hc)).2.2).trans (List.map_id _)

/-- R197, the second law: ADDR.PARSE of what ADDR.FMT writes. -/
theorem addrParse_addrFmt (fold : Bool) {a : Addr} (h : a.WellFormed) :
    addrParse fold (addrFmt a.call a.ssid ++ if a.h then [cStar] else []) = .ok a := by
  obtain ⟨hdash, hstar, hupper⟩ := wellFormed_call h
  obtain ⟨hpos, hle, -⟩ := h
  have hlast : (addrFmt a.call a.ssid).getLast? ≠ some cStar :=
    fun hs => star_notMem_addrFmt hstar a.ssid (List.mem_of_getLast? hs)
  rw [addrParse_eq fold _ a.h _ _ _ (stripStar_append_star_if fun _ => hlast) (splitSsid_addrFmt hdash a.ssid),
    if_pos ⟨hpos, hle⟩, hupper, ite_self]

/-! ## ADDR.PACK -/

theorem addrPack_of_long {a : Addr} {fin : Bool} (h : 6 < a.call.length) : addrPack a fin = .error badCallLength :=
  if_pos h

theorem addrPack_of_bad_char {a : Addr} {fin : Bool} {pre post : Bytes} {c : Byte} (hlen : a.call.length ≤ 6)
    (heq : a.call = pre ++ c :: post) (hpre : ∀ b ∈ pre, b.toNat ≤ 0x7F) (hc : 0x7F < c.toNat) :
    addrPack a fin = .error (badCallChar c) := by
  rw [addrPack, if_neg (Nat.not_lt.mpr hlen), heq, packCall_bad pre post c hpre hc]
  rfl

/-! ## The bytes ADDR.PACK writes -/

section
variable {call : Bytes} (hlen : call.length ≤ 6) (last : Byte)
include hlen

theorem length_map_wireOfChar_padCall : ((padCall call).map wireOfChar).length = 6 :=
  (List.length_map _).trans (padCall_length call hlen)

theorem length_packed : ((padCall call).map wireOfChar ++ [last]).length = 7 := by
  rw [List.length_append, length_map_wireOfChar_padCall hlen, List.length_singleton]

theorem getD_packed_six : ((padCall call).map wireOfChar ++ [last]).getD 6 0 = last := by
  rw [List.getD_append_right _ _ _ _ (length_map_wireOfChar_padCall hlen).le, length_map_wireOfChar_padCall hlen]
  rfl

end

theorem getD_packed_char {call : Bytes} {i : Nat} (hi : i < call.length) (last : Byte) :
    ((padCall call).map wireOfChar ++ [last]).getD i 0 = BitVec.ofNat 8 (2 * (call[i]).toNat) := by
  rw [map_wireOfChar_padCall]
  simp [List.getD, List.getElem?_append, hi]

theorem getD_packed_padding {call : Bytes} {i : Nat} (hi : call.length ≤ i) (hsix : i < 6) (last : Byte) :
    ((padCall call).map wireOfChar ++ [last]).getD i 0 = 0x40 := by
  rw [map_wireOfChar_padCall, List.append_assoc, List.getD_append_right _ _ _ _ (by simpa using hi), List.length_map,
    List.getD_append _ _ _ _ (by simp; omega), List.getD_replicate _ (by omega)]

/-! ## A packed address, read again -/

theorem map_charOfWire_wireOfChar_padCall {call : Bytes} (h : ∀ c ∈ call, c.toNat ≤ 0x7F) :
    ((padCall call).map wireOfChar).map charOfWire = padCall call := by
  rw [List.map_map]
  refine (List.map_congr_left fun c hc => charOfWire_wireOfChar c ?_).trans (List.map_id _)
  rcases List.mem_append.mp hc with hc | hc
  · exact BitVec.le_def.mpr (h c hc)
  · rw [List.eq_of_mem_replicate hc]
    decide

/-- R197, the first law: ADDR.UNPACK of what ADDR.PACK writes. -/
theorem addrUnpack_packed {call : Bytes} (hlen : call.length ≤ 6) (hchars : ∀ c ∈ call, c.toNat ≤ 0x7F)
    (hlast : call.getLast? ≠ some cSpace) (h : Bool) (ssid : BitVec 4) (fin : Bool) :
    addrUnpack ((padCall call).map wireOfChar ++ [ssidWire h ssid fin]) 0 =
      .ok ⟨call, ssid, if h then 0b111 else 0b011, fin⟩ := by
  obtain ⟨hssid, hext, hhrr⟩ := ssidWire_fields h ssid fin
  rw [addrUnpack_of_le (length_packed hlen _).ge, Nat.zero_add, getD_packed_six hlen, hssid, hext, hhrr, List.drop_zero,
    List.take_left' (length_map_wireOfChar_padCall hlen), map_charOfWire_wireOfChar_padCall hchars, padCall,
    trimRight_append call _ hlast]

/-! ## ADDR.DEC and ADDR.ENC as compositions -/

theorem addrDec_of_ok {b : Bytes} {off : Nat} {u : Unpacked} (h : addrUnpack b off = .ok u) :
    addrDec b off = .ok (addrFmt u.call u.ssid, u.hrr, u.x) := by
  rw [addrDec, h]
  rfl

theorem addrDec_of_error {b : Bytes} {off : Nat} {e : Failure} (h : addrUnpack b off = .error e) :
    addrDec b off = .error e := by
  rw [addrDec, h]
  rfl

theorem addrEnc_of_ok {fold fin : Bool} {t : Bytes} {a : Addr} (h : addrParse fold t = .ok a) :
    addrEnc fold t fin = addrPack a fin := by
  rw [addrEnc, h]

theorem addrEnc_of_error {fold fin : Bool} {t : Bytes} {e : Failure} (h : addrParse fold t = .error e) :
    addrEnc fold t fin = .error e := by
  rw [addrEnc, h]

/-! ## What the address operations return -/

section
variable {s : State} {r : OpResult} {b out t text call : Bytes} {off : Nat} {ssid : BitVec 4} {a : Addr} {fin x : Bool}
variable {hrr : BitVec 3} {u : Unpacked} {e : Failure}

theorem returns_addrUnpack_ok_iff : Returns (.addrUnpack b off) s (.ok (.unpacked u)) ↔ addrUnpack b off = .ok u :=
  (returns_iff_of_exec rfl).trans (by simp [outcome_ok_iff])

theorem returns_addrUnpack_fail_iff : Returns (.addrUnpack b off) s (.fail e) ↔ addrUnpack b off = .error e :=
  (returns_iff_of_exec rfl).trans outcome_fail_iff

theorem returns_addrFmt_iff : Returns (.addrFmt call ssid) s (.ok (.bytes text)) ↔ addrFmt call ssid = text :=
  (returns_iff_of_exec rfl).trans (by simp)

theorem returns_addrDec_ok_iff :
    Returns (.addrDec b off) s (.ok (.decoded text hrr x)) ↔ addrDec b off = .ok (text, hrr, x) := by
  refine (returns_iff_of_exec rfl).trans (outcome_ok_iff.trans ⟨?_, fun h => ⟨_, h, rfl⟩⟩)
  rintro ⟨_, h, heq⟩
  cases heq
  exact h

theorem returns_addrDec_fail_iff : Returns (.addrDec b off) s (.fail e) ↔ addrDec b off = .error e :=
  (returns_iff_of_exec rfl).trans outcome_fail_iff

theorem returns_addrParse_ok_iff : Returns (.addrParse t) s (.ok (.addr a)) ↔ addrParse s.params.caseFold t = .ok a :=
  (returns_iff_of_exec rfl).trans (by simp [outcome_ok_iff])

theorem returns_addrParse_fail_iff : Returns (.addrParse t) s (.fail e) ↔ addrParse s.params.caseFold t = .error e :=
  (returns_iff_of_exec rfl).trans outcome_fail_iff

theorem returns_addrPack_iff : Returns (.addrPack a fin) s r ↔ outcome .bytes (addrPack a fin) = r :=
  returns_iff_of_exec rfl

theorem returns_addrPack_ok_iff : Returns (.addrPack a fin) s (.ok (.bytes out)) ↔ addrPack a fin = .ok out :=
  returns_addrPack_iff.trans outcome_bytes_eq_ok_iff

theorem returns_addrPack_fail_iff : Returns (.addrPack a fin) s (.fail e) ↔ addrPack a fin = .error e :=
  returns_addrPack_iff.trans outcome_fail_iff

theorem returns_addrEnc_iff :
    Returns (.addrEnc t fin) s r ↔ outcome .bytes (addrEnc s.params.caseFold t fin) = r :=
  returns_iff_of_exec rfl

/-- R188: ADDR.PARSE of a token whose SSID text is good, or which has none. -/
theorem returns_addrParse_of_split {h : Bool} {w : Bytes} {v : BitVec 4} (hstar : stripStar t = (h, w))
    (hsplit : splitSsid w = .ok (call, v)) :
    (1 ≤ call.length ∧ call.length ≤ 6 →
      Returns (.addrParse t) s (.ok (.addr ⟨if s.params.caseFold then upper call else call, v, h⟩))) ∧
    (¬ (1 ≤ call.length ∧ call.length ≤ 6) → Returns (.addrParse t) s (.fail badCallText)) := by
  rw [returns_addrParse_ok_iff, returns_addrParse_fail_iff, addrParse_eq _ t h w call v hstar hsplit]
  exact ⟨fun h => if_pos h, fun h => if_neg h⟩

end

end Sys2Proof.Machine
end

section
namespace Sys2Proof.Proofs
open Sys2Proof.Machine

/-- Settles O42: each field by its bits, and the callsign by what trimming leaves and takes. -/
theorem unpackReadsTheFields : Obligations.UnpackReadsTheFields := by
  refine fun s b off => ⟨fun hshort => ?short, fun hlong => ?fields⟩
  case short => exact returns_addrUnpack_fail_iff.mpr (addrUnpack_short b off hshort)
  case fields =>
    refine ⟨_, returns_addrUnpack_ok_iff.mpr (addrUnpack_of_le hlong), toNat_ssidOfWire _, toNat_hrrOfWire _,
      extOfWire_eq_true_iff _, trimRight_last _, ?trimmed⟩
    case trimmed =>
      obtain ⟨k, hk⟩ := trimRight_eq (((b.drop off).take 6).map charOfWire)
      exact ⟨k, hk.symm.trans (by rw [funext charOfWire_eq])⟩

/-- Settles O43: the text by the value of the SSID, the two compositions by what their first operation gives. -/
theorem formatAndTheTwoCompositions : Obligations.FormatAndTheTwoCompositions := by
  refine fun s => ⟨fun call => ⟨?none, fun n hpos hle => ?oneDigit, fun n hlo hhi => ?twoDigits⟩,
    fun b off => ⟨fun e he => ?decFails, fun u text hu htext => ?dec⟩,
    fun t fin => ⟨fun e he => ?encFails, fun a r ha hr => ?enc⟩⟩
  case none => exact returns_addrFmt_iff.mpr (addrFmt_zero call)
  case oneDigit => rw [returns_addrFmt_iff, addrFmt_ofNat call hpos (by omega), dec_of_le_nine hle]
  case twoDigits =>
    rw [returns_addrFmt_iff, addrFmt_ofNat call (by omega) hhi, dec_of_ten_to_fifteen hlo hhi]
  case decFails => exact returns_addrDec_fail_iff.mpr (addrDec_of_error (returns_addrUnpack_fail_iff.mp he))
  case dec =>
    rw [returns_addrFmt_iff] at htext
    rw [returns_addrDec_ok_iff, addrDec_of_ok (returns_addrUnpack_ok_iff.mp hu), htext]
  case encFails =>
    rw [returns_addrEnc_iff, addrEnc_of_error (returns_addrParse_fail_iff.mp he)]
    rfl
  case enc =>
    rw [returns_addrEnc_iff, addrEnc_of_ok (returns_addrParse_ok_iff.mp ha)]
    exact returns_addrPack_iff.mp hr

/-- Settles O44: the star goes first, then the SSID text is read after the first `-`, then the callsign is measured. -/
theorem parseReadsCallsignSsidAndStar : Obligations.ParseReadsCallsignSsidAndStar := by
  intro s h call text hdash star kept badCall good
  refine ⟨fun hlast => ?noSsid, fun hlast => ?ssid⟩
  case noSsid => exact returns_addrParse_of_split (stripStar_append_star_if hlast) (splitSsid_none call hdash)
  case ssid =>
    have hstar : stripStar (call ++ cDash :: text ++ star) = (h, call ++ cDash :: text) :=
      stripStar_append_star_if fun hh => getLast?_append_dash_cons_ne_star (hlast hh)
    refine ⟨fun v hv => ?good, fun hbad => ?bad⟩
    case good =>
      refine returns_addrParse_of_split hstar ?_
      rw [splitSsid_dash call text hdash, ssidOfText_of_ssidText hv]
    case bad =>
      refine returns_addrParse_fail_iff.mpr (addrParse_of_split_error hstar ?_)
      rw [splitSsid_dash call text hdash, ssidOfText_of_not_ssidText hbad]
      rfl

/-- Settles O45: the length is tested first, then the characters; the bytes are the padded callsign and the SSID byte. -/
theorem packWritesSevenBytes : Obligations.PackWritesSevenBytes := by
  refine fun s a fin => ⟨fun hlong => ?long, fun hlen pre c post heq hpre hc => ?bad, fun hlen hchars =>
    ⟨_, returns_addrPack_ok_iff.mpr (addrPack_ok a fin hlen hchars), length_packed hlen _, fun i hi => ?char,
    fun i hi hsix => getD_packed_padding hi hsix _, ?ssid⟩⟩
  case long => exact returns_addrPack_fail_iff.mpr (addrPack_of_long hlong)
  case bad => exact returns_addrPack_fail_iff.mpr (addrPack_of_bad_char hlen heq hpre hc)
  case char =>
    have hc : (a.call[i]).toNat ≤ 0x7F := hchars _ (List.getElem_mem hi)
    rw [getD_packed_char hi, BitVec.toNat_ofNat, Nat.mod_eq_of_lt (by omega)]
  case ssid => rw [getD_packed_six hlen, toNat_ssidWire]

/-- Settles O46: the two laws, each operation's result being the other's operand. -/
theorem addressRoundTrips : Obligations.AddressRoundTrips := by
  refine ⟨fun s a fin hlen hchars hlast => ?packed, fun s a hwf => ?text⟩
  case packed =>
    exact ⟨_, returns_addrPack_ok_iff.mpr (addrPack_ok a fin hlen hchars),
      returns_addrUnpack_ok_iff.mpr (addrUnpack_packed hlen hchars hlast a.h a.ssid fin)⟩
  case text =>
    exact ⟨_, returns_addrFmt_iff.mpr rfl, returns_addrParse_ok_iff.mpr (addrParse_addrFmt _ hwf)⟩

end Sys2Proof.Proofs
end

section
namespace Sys2Proof.Machine

/-! ## What the link frame operations return -/

section
variable {s : State} {r : OpResult} {b t out : Bytes} {f g : LinkFrame} {e : Failure} {rssi snr : Metric}

theorem returns_lfDecb_ok_iff : Returns (.lfDecb b) s (.ok (.frame f)) ↔ lfDecb b = .ok f :=
  (returns_iff_of_exec rfl).trans (by simp [outcome_ok_iff])

theorem returns_lfDecb_fail_iff : Returns (.lfDecb b) s (.fail e) ↔ lfDecb b = .error e :=
  (returns_iff_of_exec rfl).trans outcome_fail_iff

theorem returns_lfDecp_ok_iff : Returns (.lfDecp t) s (.ok (.frame f)) ↔ lfDecp s.params.caseFold t = .ok f :=
  (returns_iff_of_exec rfl).trans (by simp [outcome_ok_iff])

theorem returns_lfDecp_fail_iff : Returns (.lfDecp t) s (.fail e) ↔ lfDecp s.params.caseFold t = .error e :=
  (returns_iff_of_exec rfl).trans outcome_fail_iff

theorem returns_lfEncb_ok_iff : Returns (.lfEncb f) s (.ok (.bytes out)) ↔ lfEncb f = .ok out :=
  (returns_iff_of_exec rfl).trans outcome_bytes_eq_ok_iff

theorem returns_lfEncb_fail_iff : Returns (.lfEncb f) s (.fail e) ↔ lfEncb f = .error e :=
  (returns_iff_of_exec rfl).trans outcome_fail_iff

theorem returns_lfEncp_iff : Returns (.lfEncp f) s (.ok (.bytes t)) ↔ lfEncp f = t :=
  (returns_iff_of_exec rfl).trans (by simp)

theorem returns_lfInj_iff : Returns (.lfInj f rssi snr) s (.ok (.frame g)) ↔ lfInj s f rssi snr = g :=
  (returns_iff_of_exec rfl).trans (by simp)

end

/-! ## Addresses on the wire -/

/-- R181: what ADDR.UNPACK gives for seven bytes. -/
def unpackedOf (a : Bytes) : Unpacked :=
  ⟨trimRight ((a.take 6).map charOfWire), ssidOfWire (a.getD 6 0), hrrOfWire (a.getD 6 0), extOfWire (a.getD 6 0)⟩

/-- R213: the digipeater LF.DECB reads from seven bytes. -/
def addrOfWire (a : Bytes) : Addr := ⟨(unpackedOf a).call, (unpackedOf a).ssid, isRepeated (unpackedOf a).hrr⟩

/-- ADDR.UNPACK reads the seven bytes at its offset and nothing else. -/
theorem addrUnpack_of_drop {b a post : Bytes} {off : Nat} (ha : a.length = 7) (hb : b.drop off = a ++ post) :
    addrUnpack b off = .ok (unpackedOf a) := by
  have hlen := congrArg List.length hb
  rw [List.length_drop, List.length_append] at hlen
  have hoff : off ≤ b.length := by omega
  have hat := addrUnpack_at (b.take off) a post ha
  rwa [List.append_assoc, ← hb, List.take_append_drop, List.length_take, Nat.min_eq_left hoff] at hat

theorem addrUnpack_zero_ok_iff {a : Bytes} {u : Unpacked} (ha : a.length = 7) :
    addrUnpack a 0 = .ok u ↔ unpackedOf a = u := by
  rw [addrUnpack_of_drop (off := 0) (post := []) ha (List.append_nil a).symm, Except.ok.injEq]

theorem map_unpackedOf_of_forall₂ {gs : List Bytes} {us : List Unpacked} (hseven : ∀ g ∈ gs, g.length = 7)
    (h : List.Forall₂ (fun g u => addrUnpack g 0 = .ok u) gs us) : gs.map unpackedOf = us := by
  induction h with
  | nil => rfl
  | cons head _ ih =>
    obtain ⟨hg, hgs⟩ := List.forall_mem_cons.mp hseven
    rw [List.map_cons, (addrUnpack_zero_ok_iff hg).mp head, ih hgs]

/-- R98, R223: addresses of seven bytes, extension bit 1 in the last one and in no other. -/
structure WireChain (as : List Bytes) : Prop where
  seven : ∀ a ∈ as, a.length = 7
  ext : ∀ (k : Nat) (a : Bytes), as[k]? = some a → (unpackedOf a).x = decide (k + 1 = as.length)

theorem wireChain_cons_iff {a : Bytes} {as : List Bytes} :
    WireChain (a :: as) ↔ a.length = 7 ∧ (unpackedOf a).x = as.isEmpty ∧ WireChain as := by
  have hhead : decide (0 + 1 = (a :: as).length) = as.isEmpty := by cases as <;> simp
  have hnext (k : Nat) : decide (k + 1 + 1 = (a :: as).length) = decide (k + 1 = as.length) := by simp
  refine ⟨fun h => ⟨h.seven a List.mem_cons_self, (h.ext 0 a rfl).trans hhead, ?tail⟩,
    fun ⟨ha, hext, h⟩ => ⟨?seven, ?ext⟩⟩
  case tail =>
    exact ⟨fun b hb => h.seven b (List.mem_cons_of_mem a hb), fun k b hb => (h.ext (k + 1) b hb).trans (hnext k)⟩
  case seven => exact List.forall_mem_cons.mpr ⟨ha, h.seven⟩
  case ext =>
    rintro (_ | k) b hb
    · cases hb
      exact hext.trans hhead.symm
    · exact (h.ext k b hb).trans (hnext k).symm

theorem wireChain_nil : WireChain [] := ⟨nofun, nofun⟩

theorem length_flatten_of_seven {as : List Bytes} (h : ∀ a ∈ as, a.length = 7) :
    as.flatten.length = 7 * as.length := by
  induction as with
  | nil => rfl
  | cons a as ih =>
    obtain ⟨ha, has⟩ := List.forall_mem_cons.mp h
    rw [List.flatten_cons, List.length_append, ha, ih has, List.length_cons]
    omega

theorem take_append_of_seven {a : Bytes} (h : a.length = 7) (rest : Bytes) (k : Nat) :
    (a ++ rest).take (7 + k) = a ++ rest.take k := by
  rw [← h, List.take_length_add_append]

/-- The bytes of address `k` stand at `7k`. -/
theorem getElem?_flatten_of_seven {as : List Bytes} (h : ∀ a ∈ as, a.length = 7) (tail : Bytes) {k i : Nat} {a : Bytes}
    (hk : as[k]? = some a) (hi : i < 7) : (as.flatten ++ tail)[7 * k + i]? = a[i]? := by
  induction as generalizing k with
  | nil => cases hk
  | cons a' as ih =>
    obtain ⟨ha, has⟩ := List.forall_mem_cons.mp h
    rw [List.flatten_cons, List.append_assoc]
    cases k with
    | zero =>
      cases hk
      rw [Nat.mul_zero, Nat.zero_add, List.getElem?_append_left (by omega)]
    | succ k =>
      rw [List.getElem?_append_right (by omega), ← ih has hk, ha]
      congr 1
      omega

/-! ## LF.DECB on a chain (R211) -/

/-- R211: the loop `while x = 0` of LF.DECB, entered with the extension bit last read. -/
def moreDigis (x : Bool) (fuel : Nat) (b : Bytes) (pos : Nat) : Result (List Addr × Nat) :=
  if x then .ok ([], pos) else decbDigis fuel b pos

section
variable {b d r tail : Bytes} {fuel pos : Nat} {gs : List Bytes}

theorem moreDigis_of_short (h : b.length < pos + 7) : moreDigis false fuel b pos = .error shortAddress := by
  cases fuel with
  | zero => rfl
  | succ fuel => rw [moreDigis, if_neg Bool.false_ne_true, decbDigis, addrUnpack_short b pos h]

theorem moreDigis_of_unpack {u : Unpacked} (h : addrUnpack b pos = .ok u) :
    moreDigis false (fuel + 1) b pos =
      (moreDigis u.x fuel b (pos + 7)).map fun p => (⟨u.call, u.ssid, isRepeated u.hrr⟩ :: p.1, p.2) := by
  rw [moreDigis, if_neg Bool.false_ne_true, decbDigis, h]
  obtain ⟨call, ssid, hrr, x⟩ := u
  cases x <;> rfl

/-- R211, R213: the loop reads the addresses up to the one with extension bit 1 and stops behind it. -/
theorem moreDigis_chain (hgs : WireChain gs) (hfuel : gs.length ≤ fuel) (hb : b.drop pos = gs.flatten ++ tail) :
    ∃ q, moreDigis gs.isEmpty fuel b pos = .ok (gs.map addrOfWire, q) ∧ b.drop q = tail := by
  induction gs generalizing fuel pos with
  | nil => exact ⟨pos, rfl, hb⟩
  | cons g gs ih =>
    obtain ⟨hlen, hext, hgs⟩ := wireChain_cons_iff.mp hgs
    obtain ⟨fuel, rfl⟩ := Nat.exists_eq_succ_of_ne_zero (Nat.ne_zero_of_lt hfuel)
    rw [List.flatten_cons, List.append_assoc] at hb
    have hnext : b.drop (pos + 7) = gs.flatten ++ tail := by rw [← List.drop_drop, hb, List.drop_left' hlen]
    obtain ⟨q, hmore, hq⟩ := ih hgs (Nat.le_of_succ_le_succ hfuel) hnext
    refine ⟨q, ?_, hq⟩
    rw [List.isEmpty_cons, moreDigis_of_unpack (addrUnpack_of_drop hlen hb), hext, hmore]
    rfl

/-- R212: the loop fails on every proper beginning of the addresses it would read. -/
theorem moreDigis_short (hgs : WireChain gs) {k : Nat} (hk : k < gs.flatten.length)
    (hb : b.drop pos = gs.flatten.take k) : moreDigis gs.isEmpty fuel b pos = .error shortAddress := by
  induction gs generalizing fuel pos k with
  | nil => exact absurd hk (Nat.not_lt_zero k)
  | cons g gs ih =>
    obtain ⟨hlen, hext, hgs⟩ := wireChain_cons_iff.mp hgs
    rw [List.flatten_cons] at hk hb
    obtain hlt | hge := Nat.lt_or_ge k 7
    · refine moreDigis_of_short ?_
      have hleft := congrArg List.length hb
      rw [List.length_drop, List.length_take] at hleft
      omega
    · obtain ⟨k, rfl⟩ := Nat.exists_eq_add_of_le hge
      cases fuel with
      | zero => rfl
      | succ fuel =>
        rw [List.length_append] at hk
        rw [take_append_of_seven hlen] at hb
        have hnext : b.drop (pos + 7) = gs.flatten.take k := by rw [← List.drop_drop, hb, List.drop_left' hlen]
        rw [List.isEmpty_cons, moreDigis_of_unpack (addrUnpack_of_drop hlen hb), hext, ih hgs (by omega) hnext]
        rfl

theorem lfDecb_of_short_dst (h : b.length < 7) : lfDecb b = .error shortAddress := by
  rw [lfDecb, addrUnpack_short b 0 h]

theorem lfDecb_of_short_src {u : Unpacked} (hd : addrUnpack b 0 = .ok u) (h : b.length < 14) :
    lfDecb b = .error shortAddress := by
  rw [lfDecb, hd, addrUnpack_short b 7 h]

/-- R211: LF.DECB once destination and source are read. -/
theorem lfDecb_of_more_error {ud ur : Unpacked} {e : Failure} (hd : addrUnpack b 0 = .ok ud)
    (hr : addrUnpack b 7 = .ok ur) (hmore : moreDigis ur.x b.length b 14 = .error e) : lfDecb b = .error e := by
  rw [moreDigis] at hmore
  rw [lfDecb, hd, hr]
  dsimp only
  rw [hmore]

theorem lfDecb_of_more_ok {ud ur : Unpacked} {digis : List Addr} (hd : addrUnpack b 0 = .ok ud)
    (hr : addrUnpack b 7 = .ok ur) (hmore : moreDigis ur.x b.length b 14 = .ok (digis, pos)) :
    lfDecb b = (decbControl (b.drop pos)).map fun c =>
      ⟨⟨ud.call, ud.ssid, false⟩, ⟨ur.call, ur.ssid, false⟩, digis, c.1, c.2.1, c.2.2⟩ := by
  rw [moreDigis] at hmore
  rw [lfDecb, hd, hr]
  dsimp only
  rw [hmore]
  dsimp only
  cases decbControl (b.drop pos) <;> rfl

/-- R212: a proper beginning of an address chain is short of an address. -/
theorem lfDecb_take_of_chain (hd : d.length = 7) (hchain : WireChain (r :: gs)) {k : Nat}
    (hk : k < (d ++ r ++ gs.flatten).length) : lfDecb ((d ++ r ++ gs.flatten).take k) = .error shortAddress := by
  obtain ⟨hr, hext, hgs⟩ := wireChain_cons_iff.mp hchain
  rw [List.length_append, List.length_append] at hk
  rw [List.append_assoc]
  obtain hlt | hge := Nat.lt_or_ge k 7
  · exact lfDecb_of_short_dst (by rw [List.length_take]; omega)
  obtain ⟨k, rfl⟩ := Nat.exists_eq_add_of_le hge
  rw [take_append_of_seven hd]
  have hunpack (rest : Bytes) : addrUnpack (d ++ rest) 0 = .ok (unpackedOf d) := addrUnpack_of_drop hd rfl
  obtain hlt | hge := Nat.lt_or_ge k 7
  · exact lfDecb_of_short_src (hunpack _) (by rw [List.length_append, List.length_take]; omega)
  obtain ⟨k, rfl⟩ := Nat.exists_eq_add_of_le hge
  rw [take_append_of_seven hr]
  refine lfDecb_of_more_error (hunpack _) (addrUnpack_of_drop hr (List.drop_left' hd)) ?_
  rw [hext]
  refine moreDigis_short hgs (k := k) (by omega) ?_
  rw [← List.append_assoc, List.drop_left' (by rw [List.length_append, hd, hr])]

/-- R211, R213, R215: LF.DECB reads an address chain and goes on at the control byte. -/
theorem lfDecb_of_chain (hd : d.length = 7) (hchain : WireChain (r :: gs)) (tail : Bytes) :
    lfDecb (d ++ r ++ gs.flatten ++ tail) = (decbControl tail).map fun c =>
      ⟨{ addrOfWire d with h := false }, { addrOfWire r with h := false }, gs.map addrOfWire, c.1, c.2.1, c.2.2⟩ := by
  obtain ⟨hr, hext, hgs⟩ := wireChain_cons_iff.mp hchain
  have hfuel : gs.length ≤ (d ++ r ++ gs.flatten ++ tail).length := by
    rw [List.length_append, List.length_append, length_flatten_of_seven hgs.seven]
    omega
  have hdrop : (d ++ r ++ gs.flatten ++ tail).drop 14 = gs.flatten ++ tail := by
    rw [List.append_assoc, List.drop_left' (by rw [List.length_append, hd, hr])]
  obtain ⟨q, hmore, hq⟩ := moreDigis_chain hgs hfuel hdrop
  have hunpackD : addrUnpack (d ++ r ++ gs.flatten ++ tail) 0 = .ok (unpackedOf d) :=
    addrUnpack_of_drop hd (by rw [List.drop_zero, List.append_assoc, List.append_assoc])
  have hunpackR : addrUnpack (d ++ r ++ gs.flatten ++ tail) 7 = .ok (unpackedOf r) :=
    addrUnpack_of_drop hr (by rw [List.append_assoc, List.append_assoc, List.drop_left' hd])
  rw [← hext] at hmore
  rw [lfDecb_of_more_ok hunpackD hunpackR hmore, hq]
  rfl

end

/-! ## The class of a control byte (R101) -/

theorem toNat_ctrlClass (c : Byte) : (ctrlClass c).toNat = c.toNat % 4 := by
  rw [ctrlClass, BitVec.extractLsb'_toNat]
  rfl

theorem ctrlClass_eq_iff {c : Byte} {v : BitVec 2} : ctrlClass c = v ↔ c.toNat % 4 = v.toNat := by
  rw [← toNat_ctrlClass, BitVec.toNat_inj]

/-! ## LF.ENCB packs one chain (R222) -/

/-- R222: the packed form of a chain, final only for the last address. -/
inductive PackedAs : List Addr → List Bytes → Prop
  | nil : PackedAs [] []
  | cons {a : Addr} {as : List Addr} {b : Bytes} {bs : List Bytes} (head : addrPack a as.isEmpty = .ok b)
      (tail : PackedAs as bs) : PackedAs (a :: as) (b :: bs)

section
variable {a : Addr} {as : List Addr} {b out : Bytes} {bs : List Bytes} {e : Failure} {f : LinkFrame}

theorem packDigis_cons_of_ok (h : addrPack a as.isEmpty = .ok b) :
    packDigis (a :: as) = (packDigis as).map (b ++ ·) := by
  rw [packDigis, h]

theorem packDigis_cons_of_error (h : addrPack a as.isEmpty = .error e) : packDigis (a :: as) = .error e := by
  rw [packDigis, h]

theorem PackedAs.packDigis (h : PackedAs as bs) : packDigis as = .ok bs.flatten := by
  induction h with
  | nil => rfl
  | cons head _ ih =>
    rw [packDigis_cons_of_ok head, ih]
    rfl

theorem exists_packedAs (h : packDigis as = .ok out) : ∃ bs, PackedAs as bs ∧ bs.flatten = out := by
  induction as generalizing out with
  | nil =>
    cases h
    exact ⟨[], .nil, rfl⟩
  | cons a as ih =>
    cases hb : addrPack a as.isEmpty with
    | error e => rw [packDigis_cons_of_error hb] at h; cases h
    | ok b =>
      rw [packDigis_cons_of_ok hb] at h
      cases hrest : Machine.packDigis as with
      | error e => rw [hrest] at h; cases h
      | ok rest =>
        rw [hrest] at h
        cases h
        obtain ⟨bs, hbs, rfl⟩ := ih hrest
        exact ⟨b :: bs, .cons hb hbs, rfl⟩

theorem PackedAs.length_eq (h : PackedAs as bs) : bs.length = as.length := by
  induction h with
  | nil => rfl
  | cons _ _ ih => rw [List.length_cons, List.length_cons, ih]

theorem unpackedOf_x_of_addrPack {fin : Bool} (h : addrPack a fin = .ok b) : (unpackedOf b).x = fin := by
  obtain ⟨-, hlast⟩ := addrPack_shape h
  rw [unpackedOf, List.getD, hlast]
  exact (ssidWire_fields a.h a.ssid fin).2.1

/-- R223: a packed chain has the extension bit in its last address only. -/
theorem PackedAs.wireChain (h : PackedAs as bs) : WireChain bs := by
  induction h with
  | nil => exact wireChain_nil
  | cons head tail ih =>
    refine wireChain_cons_iff.mpr ⟨(addrPack_shape head).1, (unpackedOf_x_of_addrPack head).trans ?_, ih⟩
    cases tail <;> rfl

/-- R222: the first address of a chain that fails is its failure. -/
theorem packDigis_of_first_error {k : Nat} (hk : k < as.length)
    (hbefore : ∀ j (hj : j < as.length), j < k → ∃ b, addrPack as[j] false = .ok b)
    (herr : addrPack as[k] (decide (k + 1 = as.length)) = .error e) : packDigis as = .error e := by
  induction as generalizing k with
  | nil => exact absurd hk (Nat.not_lt_zero k)
  | cons a as ih =>
    cases k with
    | zero =>
      refine packDigis_cons_of_error ?_
      cases as <;> simpa using herr
    | succ k =>
      have hk : k < as.length := Nat.lt_of_succ_lt_succ hk
      obtain ⟨b, hb⟩ := hbefore 0 (Nat.zero_lt_succ _) (Nat.zero_lt_succ k)
      have hmore : as.isEmpty = false := List.isEmpty_eq_false_iff.mpr (List.ne_nil_of_length_pos (Nat.zero_lt_of_lt hk))
      rw [packDigis_cons_of_ok (b := b) (by rw [hmore]; exact hb), ih hk (fun j hj hjk => ?before) ?error]
      case before => exact hbefore (j + 1) (Nat.succ_lt_succ hj) (Nat.succ_lt_succ hjk)
      case error => simpa using herr
      rfl

theorem packedAs_of_getD (hlen : bs.length = as.length)
    (h : ∀ k (hk : k < as.length), addrPack as[k] (decide (k + 1 = as.length)) = .ok (bs.getD k [])) :
    PackedAs as bs := by
  induction as generalizing bs with
  | nil =>
    rw [List.eq_nil_of_length_eq_zero hlen]
    exact .nil
  | cons a as ih =>
    obtain ⟨b, bs, rfl⟩ := List.exists_cons_of_length_eq_add_one hlen
    refine .cons ?_ (ih (Nat.succ.inj hlen) fun k hk => ?_)
    · have hhead := h 0 (Nat.zero_lt_succ _)
      cases as <;> simpa using hhead
    · simpa using h (k + 1) (Nat.succ_lt_succ hk)

/-- R222: the destination has the source behind it, so it is never final: LF.ENCB packs one chain. -/
theorem lfEncb_eq (f : LinkFrame) :
    lfEncb f = (packDigis (f.dst :: f.src :: f.digis)).map (· ++ encbTail f.info) := by
  rw [lfEncb, packDigis, packDigis, List.isEmpty_cons]
  cases addrPack f.dst false with
  | error e => rfl
  | ok d =>
    cases addrPack f.src f.digis.isEmpty with
    | error e => rfl
    | ok r => cases packDigis f.digis <;> simp [Except.map]

theorem lfEncb_of_error (h : packDigis (f.dst :: f.src :: f.digis) = .error e) : lfEncb f = .error e := by
  rw [lfEncb_eq, h]
  rfl

theorem lfEncb_of_packedAs (h : PackedAs (f.dst :: f.src :: f.digis) bs) :
    lfEncb f = .ok (bs.flatten ++ encbTail f.info) := by
  rw [lfEncb_eq, h.packDigis]
  rfl

theorem exists_packedAs_of_lfEncb (h : lfEncb f = .ok out) :
    ∃ bs, PackedAs (f.dst :: f.src :: f.digis) bs ∧ out = bs.flatten ++ encbTail f.info := by
  rw [lfEncb_eq] at h
  cases hpack : packDigis (f.dst :: f.src :: f.digis) with
  | error e => rw [hpack] at h; cases h
  | ok packed =>
    rw [hpack] at h
    cases h
    obtain ⟨bs, hbs, rfl⟩ := exists_packedAs hpack
    exact ⟨bs, hbs, rfl⟩

end

/-! ## A well-formed chain, packed and read again (R236) -/

theorem notMem_call_of_wellFormed {a : Addr} (h : a.WellFormed) {c : Byte}
    (hc : ¬ ((0x41 ≤ c ∧ c ≤ 0x5A) ∨ (0x30 ≤ c ∧ c ≤ 0x39))) : c ∉ a.call := by
  obtain ⟨-, -, hcall⟩ := h
  exact fun hm => hc (hcall c hm)

/-- R197: ADDR.PACK accepts a well-formed address. -/
theorem wellFormed_packable {a : Addr} (h : a.WellFormed) : a.call.length ≤ 6 ∧ ∀ c ∈ a.call, c.toNat ≤ 0x7F := by
  have hchar : ∀ c : Byte, (0x41 ≤ c ∧ c ≤ 0x5A) ∨ (0x30 ≤ c ∧ c ≤ 0x39) → c.toNat ≤ 0x7F := by decide
  obtain ⟨-, hlen, hcall⟩ := h
  exact ⟨hlen, fun c hc => hchar c (hcall c hc)⟩

/-- R197: a well-formed address is what is read from its packed form, its bit `h` included. -/
theorem addrOfWire_of_addrPack {a : Addr} {fin : Bool} {b : Bytes} (h : a.WellFormed) (hb : addrPack a fin = .ok b) :
    addrOfWire b = a := by
  obtain ⟨hlen, hchars⟩ := wellFormed_packable h
  have hlast : a.call.getLast? ≠ some cSpace :=
    fun hs => notMem_call_of_wellFormed h (by decide) (List.mem_of_getLast? hs)
  have hunpack := addrUnpack_packed hlen hchars hlast a.h a.ssid fin
  have hpacked := (addrPack_ok a fin hlen hchars).symm.trans hb
  rw [Except.ok.inj hpacked, addrUnpack_zero_ok_iff (addrPack_shape hb).1] at hunpack
  have hrepeated : isRepeated (if a.h then 0b111 else 0b011) = a.h := by cases a.h <;> rfl
  rw [addrOfWire, hunpack, hrepeated]

theorem exists_packedAs_of_wellFormed {as : List Addr} (h : ∀ a ∈ as, a.WellFormed) :
    ∃ bs, PackedAs as bs ∧ bs.map addrOfWire = as := by
  induction as with
  | nil => exact ⟨[], .nil, rfl⟩
  | cons a as ih =>
    obtain ⟨ha, has⟩ := List.forall_mem_cons.mp h
    obtain ⟨hlen, hchars⟩ := wellFormed_packable ha
    have hb := addrPack_ok a as.isEmpty hlen hchars
    obtain ⟨bs, hbs, hread⟩ := ih has
    exact ⟨_ :: bs, .cons hb hbs, by rw [List.map_cons, hread, addrOfWire_of_addrPack ha hb]⟩

/-- R236, the binary dialect. -/
theorem lfDecb_lfEncb {f : LinkFrame} (h : f.WellFormed) : ∃ body, lfEncb f = .ok body ∧ lfDecb body = .ok f := by
  obtain ⟨hdst, hsrc, hdigis, hdstH, hsrcH, hctrl, hpid⟩ := h
  have hall : ∀ a ∈ f.dst :: f.src :: f.digis, a.WellFormed :=
    List.forall_mem_cons.mpr ⟨hdst, List.forall_mem_cons.mpr ⟨hsrc, hdigis⟩⟩
  obtain ⟨bs, hbs, hread⟩ := exists_packedAs_of_wellFormed hall
  refine ⟨_, lfEncb_of_packedAs hbs, ?_⟩
  obtain _ | ⟨hd, _ | ⟨hr, hgs⟩⟩ := hbs
  obtain ⟨hdlen, -, hchain⟩ := wireChain_cons_iff.mp (PackedAs.cons hd (.cons hr hgs)).wireChain
  obtain ⟨hreadD, hreadR, hreadGs⟩ : _ ∧ _ ∧ _ := by simpa only [List.map_cons, List.cons.injEq] using hread
  rw [List.flatten_cons, List.flatten_cons, ← List.append_assoc, lfDecb_of_chain hdlen hchain, hreadD, hreadR, hreadGs,
    encbTail, decbControl_of_U (by decide)]
  obtain ⟨⟨dcall, dssid, dh⟩, ⟨rcall, rssid, rh⟩, digis, ctrl, pid, info⟩ := f
  cases hdstH
  cases hsrcH
  cases hctrl
  cases hpid
  rfl

/-! ## The path dialect (R218, R226) -/

/-- R226: the token LF.ENCP writes for a digipeater, behind its comma. -/
def digiToken (g : Addr) : Bytes := addrFmt g.call g.ssid ++ if g.h then [cStar] else []

theorem lfEncp_eq (f : LinkFrame) :
    lfEncp f = addrFmt f.src.call f.src.ssid ++ cGt :: addrFmt f.dst.call f.dst.ssid ++
      (f.digis.map digiToken).flatMap (fun t => cComma :: t) ++ cColon :: f.info := by
  rw [lfEncp, List.flatMap_map, show digiText = fun g => cComma :: digiToken g from rfl]
  simp

/-- R226: a chain's tokens, from the texts of its addresses. -/
theorem flatMap_digiToken_eq {gs : List Addr} {ts : List Bytes}
    (h : List.Forall₂ (fun g t => addrFmt g.call g.ssid = t) gs ts) :
    (gs.map digiToken).flatMap (fun t => cComma :: t) =
      (gs.zip ts).flatMap fun gt => cComma :: gt.2 ++ if gt.1.h then [cStar] else [] := by
  induction h with
  | nil => rfl
  | cons head _ ih =>
    rw [List.map_cons, List.flatMap_cons, List.zip_cons_cons, List.flatMap_cons, ih, ← head]
    rfl

theorem lfDecp_of_no_colon {fold : Bool} {t : Bytes} (h : cColon ∉ t) : lfDecp fold t = .error noColon := by
  rw [lfDecp, (splitFirst_none cColon t).mpr h]

theorem lfDecp_of_no_gt {fold : Bool} {path info : Bytes} (hcolon : cColon ∉ path) (hgt : cGt ∉ path) :
    lfDecp fold (path ++ cColon :: info) = .error noGt := by
  rw [lfDecp, splitFirst_append cColon path info hcolon]
  dsimp only
  rw [(splitFirst_none cGt path).mpr hgt]

section
variable {fold : Bool} {ts pre post : List Bytes} {t : Bytes} {gs : List Addr} {e : Failure}

theorem parseTokens_of_ok (h : List.Forall₂ (fun t g => addrParse fold t = .ok g) ts gs) :
    parseTokens fold ts = .ok gs := by
  induction h with
  | nil => rfl
  | cons head _ ih =>
    rw [parseTokens, head, ih]
    rfl

/-- R218: "the first one found being reported". -/
theorem parseTokens_of_first_error (hpre : List.Forall₂ (fun t g => addrParse fold t = .ok g) pre gs)
    (ht : addrParse fold t = .error e) : parseTokens fold (pre ++ t :: post) = .error e := by
  induction hpre with
  | nil => rw [List.nil_append, parseTokens, ht]
  | cons head _ ih =>
    rw [List.cons_append, parseTokens, head, ih]
    rfl

end

/-- R219: no separator of a path is in the text of an address. -/
theorem notMem_addrFmt {c : Byte} {call : Bytes} {ssid : BitVec 4} (hcall : c ∉ call) (hdash : c ≠ cDash)
    (hdec : c ∉ dec ssid.toNat) : c ∉ addrFmt call ssid := by
  by_cases hz : ssid = 0
  · rwa [hz, addrFmt_zero]
  · rw [addrFmt_of_ne_zero call hz]
    exact List.not_mem_append hcall (List.not_mem_cons_of_ne_of_not_mem hdash hdec)

theorem separators_notMem_addrFmt {a : Addr} (h : a.WellFormed) :
    cGt ∉ addrFmt a.call a.ssid ∧ cComma ∉ addrFmt a.call a.ssid ∧ cColon ∉ addrFmt a.call a.ssid := by
  have hcall {c : Byte} := notMem_call_of_wellFormed h (c := c)
  exact ⟨notMem_addrFmt (hcall (by decide)) (by decide) (gt_notMem_dec _),
    notMem_addrFmt (hcall (by decide)) (by decide) (comma_notMem_dec _),
    notMem_addrFmt (hcall (by decide)) (by decide) (colon_notMem_dec _)⟩

/-- R197: the token of a well-formed digipeater holds no comma and no colon. -/
theorem separators_notMem_digiToken {g : Addr} (h : g.WellFormed) : cComma ∉ digiToken g ∧ cColon ∉ digiToken g := by
  obtain ⟨-, hcomma, hcolon⟩ := separators_notMem_addrFmt h
  constructor
  · exact List.not_mem_append hcomma (by cases g.h <;> decide)
  · exact List.not_mem_append hcolon (by cases g.h <;> decide)

/-- R197: an address that is not repeated is parsed back from its text. -/
theorem addrParse_addrFmt_of_not_h (fold : Bool) {a : Addr} (h : a.WellFormed) (hh : a.h = false) :
    addrParse fold (addrFmt a.call a.ssid) = .ok a := by
  have hparse := addrParse_addrFmt fold h
  rwa [hh, if_neg Bool.false_ne_true, List.append_nil] at hparse

/-- R236, the path dialect. -/
theorem lfDecp_lfEncp (fold : Bool) {f : LinkFrame} (h : f.WellFormed) : lfDecp fold (lfEncp f) = .ok f := by
  obtain ⟨hdst, hsrc, hdigis, hdstH, hsrcH, hctrl, hpid⟩ := h
  obtain ⟨hgt, -, hcolon⟩ := separators_notMem_addrFmt hsrc
  have hothers : ∀ t ∈ addrFmt f.dst.call f.dst.ssid :: f.digis.map digiToken, cComma ∉ t ∧ cColon ∉ t := by
    refine List.forall_mem_cons.mpr ⟨(separators_notMem_addrFmt hdst).2, List.forall_mem_map.mpr fun g hg => ?_⟩
    exact separators_notMem_digiToken (hdigis g hg)
  have hparsed : List.Forall₂ (fun t g => addrParse fold t = .ok g) (f.digis.map digiToken) f.digis :=
    List.forall₂_map_left_iff.mpr (List.forall₂_same.mpr fun g hg => addrParse_addrFmt fold (hdigis g hg))
  rw [lfEncp_eq, lfDecp_tokens fold _ _ _ _ ⟨hgt, hcolon⟩ hothers, addrParse_addrFmt_of_not_h fold hsrc hsrcH,
    addrParse_addrFmt_of_not_h fold hdst hdstH, parseTokens_of_ok hparsed, ← hctrl, ← hpid]
  rfl

end Sys2Proof.Machine
end

section
namespace Sys2Proof.Proofs
open Sys2Proof.Machine

/-- Settles O54: the packed chain is read back address by address, and the written tokens are parsed back one by one. -/
theorem linkFrameRoundTripsInBothDialects : Obligations.LinkFrameRoundTripsInBothDialects := by
  refine fun s f hwf => ⟨?binary, ?path⟩
  case binary =>
    obtain ⟨body, henc, hdec⟩ := lfDecb_lfEncb hwf
    exact ⟨body, returns_lfEncb_ok_iff.mpr henc, returns_lfDecb_ok_iff.mpr hdec⟩
  case path => exact ⟨_, returns_lfEncp_iff.mpr rfl, returns_lfDecp_ok_iff.mpr (lfDecp_lfEncp _ hwf)⟩

/-- Settles O49: the chain is read to its last address, then the control byte decides by its class. -/
theorem binaryDecodeFailsOnShortInputAndByClass : Obligations.BinaryDecodeFailsOnShortInputAndByClass := by
  intro s d r gs hseven hext hd
  obtain ⟨hdlen, hrest⟩ := List.forall_mem_cons.mp hseven
  have hchain : WireChain (r :: gs) := ⟨hrest, fun k a ha => (hext k a ha).trans (by simp)⟩
  have hread := lfDecb_of_chain hdlen hchain
  refine ⟨fun k hk => ?short, ?noControl, fun c rest => ⟨fun hc => ?supervisory, fun hc => ?numbered,
    fun hc => ⟨?noPid, fun pid ud ur ugs hud hur hugs => ?accepted⟩⟩⟩
  case short => exact returns_lfDecb_fail_iff.mpr (lfDecb_take_of_chain hdlen hchain hk)
  case noControl =>
    have := hread []
    rw [List.append_nil] at this
    exact returns_lfDecb_fail_iff.mpr this
  case supervisory =>
    rw [returns_lfDecb_fail_iff, hread, decbControl_of_S (ctrlClass_eq_iff.mpr hc)]
    rfl
  case numbered =>
    have hclass (v : BitVec 2) (hv : v.toNat % 2 = 1) : ctrlClass c ≠ v := fun h => by
      have := ctrlClass_eq_iff.mp h
      omega
    rw [returns_lfDecb_fail_iff, hread, decbControl_of_I (hclass _ rfl) (hclass _ rfl)]
    rfl
  case noPid =>
    rw [returns_lfDecb_fail_iff, hread, decbControl_of_U_alone (ctrlClass_eq_iff.mpr hc)]
    rfl
  case accepted =>
    obtain ⟨hrlen, hgslen⟩ := List.forall_mem_cons.mp hrest
    rw [returns_addrUnpack_ok_iff, addrUnpack_zero_ok_iff hdlen] at hud
    rw [returns_addrUnpack_ok_iff, addrUnpack_zero_ok_iff hrlen] at hur
    simp only [returns_addrUnpack_ok_iff] at hugs
    rw [returns_lfDecb_ok_iff, hread, decbControl_of_U (ctrlClass_eq_iff.mpr hc), ← hud, ← hur,
      ← map_unpackedOf_of_forall₂ hgslen hugs, List.map_map]
    rfl

/-- Settles O50: the two splits, then the tokens in the order in which LF.DECP parses them. -/
theorem pathDecodeParsesTheTokensInOrder : Obligations.PathDecodeParsesTheTokensInOrder := by
  refine ⟨fun s t hcolon => returns_lfDecp_fail_iff.mpr (lfDecp_of_no_colon hcolon),
    fun s path info hcolon hgt => returns_lfDecp_fail_iff.mpr (lfDecp_of_no_gt hcolon hgt),
    fun s src dst digis info hsrc hothers => ?tokens⟩
  intro text
  have htext := lfDecp_tokens s.params.caseFold src dst digis info hsrc hothers
  simp only [returns_addrParse_ok_iff, returns_addrParse_fail_iff, returns_lfDecp_ok_iff, returns_lfDecp_fail_iff]
  refine ⟨fun e he => ?src, fun a ha => ⟨fun e he => ?dst, fun b hb => ⟨fun pre post t gs e heq hpre he => ?digi,
    fun gs hgs => ?frame⟩⟩⟩
  case src => rw [htext, he]
  case dst => rw [htext, ha, he]
  case digi =>
    rw [htext, ha, hb, heq, parseTokens_of_first_error hpre he]
    rfl
  case frame =>
    rw [htext, ha, hb, parseTokens_of_ok hgs]
    rfl

/-- Settles O51: LF.ENCB packs one chain, whose first failure is its own. -/
theorem binaryEncodePacksTheChainInOrder : Obligations.BinaryEncodePacksTheChainInOrder := by
  intro s f
  have hempty : decide (f.digis = []) = f.digis.isEmpty := by cases f.digis <;> rfl
  simp only [returns_addrPack_ok_iff, returns_addrPack_fail_iff, returns_lfEncb_ok_iff, returns_lfEncb_fail_iff, hempty]
  refine ⟨fun e he => ?dst, fun d hd => ⟨fun e he => ?src, fun r hr => ⟨fun k hk e hbefore he => ?digi,
    fun gs hlen hgs => ?packed⟩⟩⟩
  case dst => exact lfEncb_of_error (packDigis_cons_of_error (as := f.src :: f.digis) he)
  case src =>
    refine lfEncb_of_error ?_
    rw [packDigis_cons_of_ok (as := f.src :: f.digis) hd, packDigis_cons_of_error he]
    rfl
  case digi =>
    refine lfEncb_of_error ?_
    rw [packDigis_cons_of_ok (as := f.src :: f.digis) hd, packDigis_cons_of_ok hr, packDigis_of_first_error hk hbefore he]
    rfl
  case packed =>
    have hpacked : PackedAs (f.dst :: f.src :: f.digis) (d :: r :: gs) :=
      .cons hd (.cons hr (packedAs_of_getD hlen hgs))
    refine ⟨_, lfEncb_of_packedAs hpacked, by simp [encbTail], ?_⟩
    rw [List.length_append, length_flatten_of_seven hpacked.wireChain.seven, hpacked.length_eq]
    simp only [encbTail, List.length_cons]
    omega

/-- Settles O52: what LF.ENCB packs is one chain, the bytes of address `k` at `7k`. -/
theorem onlyTheLastAddressHasTheExtensionBit : Obligations.OnlyTheLastAddressHasTheExtensionBit := by
  intro s f out hout k hk
  obtain ⟨bs, hpacked, rfl⟩ := exists_packedAs_of_lfEncb (returns_lfEncb_ok_iff.mp hout)
  have hchain := hpacked.wireChain
  have hlen : bs.length = f.digis.length + 2 := hpacked.length_eq
  have hbk : bs[k]? = some bs[k] := List.getElem?_eq_getElem (by omega)
  have hseven : bs[k].length = 7 := hchain.seven _ (List.getElem_mem _)
  refine ⟨bs[k].getD 6 0, ?_, ?_⟩
  · rw [getElem?_flatten_of_seven hchain.seven _ hbk (by decide)]
    simp [List.getD, hseven]
  · exact (hchain.ext k _ hbk).trans (by simp [hlen])

/-- Settles O53: LF.ENCP writes each digipeater's token behind a comma. -/
theorem pathEncodeWritesTheChainAsText : Obligations.PathEncodeWritesTheChainAsText := by
  intro s f src dst digis hsrc hdst hdigis
  rw [returns_addrFmt_iff] at hsrc hdst
  simp only [returns_addrFmt_iff] at hdigis
  rw [returns_lfEncp_iff, lfEncp_eq, hsrc, hdst, flatMap_digiToken_eq hdigis]

/-- Settles O55: by what LF.INJ makes of the payload. -/
theorem signalReportIsAppendedExceptToMessages : Obligations.SignalReportIsAppendedExceptToMessages := by
  intro s f rssi snr
  have hbecomes {info : Bytes} (h : injInfo s.params s.dialect s.appendReport f.info rssi snr = info) :
      Returns (.lfInj f rssi snr) s (.ok (.frame { f with info := info })) :=
    returns_lfInj_iff.mpr (by rw [lfInj, h])
  refine ⟨fun hoff => ?off, fun rest hmessage => ?message, fun hon hc => ⟨fun pre hpre hstrip => ?strips,
    fun hkeep => ?keeps⟩⟩
  case off => exact hbecomes (injInfo_unchanged rssi snr (.inl hoff))
  case message => exact hbecomes (injInfo_unchanged rssi snr (.inr (by rw [hmessage]; rfl)))
  case strips =>
    rw [hpre] at hc
    exact hbecomes (by rw [hpre, injInfo_strips rssi snr hon hc hstrip])
  case keeps => exact hbecomes (injInfo_keeps rssi snr hon hc hkeep)

end Sys2Proof.Proofs
end

/-! # Bridge: the events, and a frame on its way through the block

What follows settles the statements about the orchestrator: what each event does, byte by byte and frame by frame, that
packing a decoded frame again changes only the listed bits, and that a well-formed frame passes through both ways. -/

section
namespace Sys2Proof.Machine

/-! ## The RUN gate (R251) -/

variable {s t : State} {i : Instr} {p : Nat}

theorem whenRunning_of_running (hr : s.run = true) (t : State) : whenRunning s t = t := if_pos hr

theorem whenRunning_of_stopped (hr : s.run = false) (t : State) : whenRunning s t = s :=
  if_neg (Bool.eq_false_iff.mp hr)

/-- BR.FRAME and the command byte are met inside an event, never presented as one (R121). -/
theorem IsFrameInstr.not_event (h : IsFrameInstr p i) : isEvent i = false := by
  obtain ⟨f, rfl⟩ | ⟨b, rfl⟩ | ⟨c, b, rfl⟩ := h.cases <;> rfl

/-- Only BR.RESET is an event that has an effect while `RUN = 0`. -/
theorem Effect.eq_of_stopped (h : Effect i s t) (hr : s.run = false) (hi : isEvent i = true)
    (hreset : ∀ d a, i ≠ .brReset d a) : t = s := by
  have hevent : isEvent i ≠ false := by rw [hi]; decide
  have hgate : s.run ≠ true := by rw [hr]; decide
  cases h with
  | nothing => rfl
  | reset d a h => exact absurd h (hreset d a)
  | connection _ _ hr | chunk _ _ hr | written _ hr | sent _ _ hr | stopped hr => exact absurd hr hgate
  | result _ h => exact absurd (isEvent_of_isPure h).1 hevent
  | delimiter _ _ _ _ h => exact absurd h.not_event.1 hevent
  | serial _ _ h =>
    obtain ⟨_, _, hsite⟩ := h.cases
    exact absurd hsite.not_event.1 hevent
  | logged d p e h =>
    obtain ⟨-, -, hr, -⟩ | ⟨-, h⟩ := h
    · exact absurd hr hgate
    · exact absurd h.not_event hevent
  | pushed _ _ p h => exact absurd h.not_event hevent

theorem exec_of_stopped (hr : s.run = false) (hi : isEvent i = true) (hreset : ∀ d a, i ≠ .brReset d a) :
    exec i s = .next s := by
  obtain ⟨t, ht, heff⟩ := exec_effect i s
  rw [ht, heff.eq_of_stopped hr hi hreset]

theorem runInstrs_of_stopped (hr : s.run = false) {is : List Instr}
    (his : ∀ i ∈ is, isEvent i = true ∧ ∀ d a, i ≠ .brReset d a) : runInstrs is s = .next s := by
  induction is with
  | nil => rfl
  | cons i is ih =>
    obtain ⟨⟨hi, hreset⟩, his⟩ := List.forall_mem_cons.mp his
    rw [runInstrs, exec_of_stopped hr hi hreset]
    exact ih his

end Sys2Proof.Machine
end

section
namespace Sys2Proof.Machine

/-! ## Peers the block has and has not (R251 to R254) -/

variable {s : State} {p : Nat} {q : Peer}

theorem isConnected_of_peer (hq : s.peers[p]? = some q) : isConnected p s = q.conn := by
  rw [isConnected, hq]

theorem isConnected_eq_false (h : ∀ q, s.peers[p]? = some q → q.conn = false) : isConnected p s = false := by
  rw [isConnected]
  split
  · next q hq => exact h q hq
  · rfl

theorem peer_of_npeers_le (h : s.npeers ≤ p) : s.peers[p]? = none := List.getElem?_eq_none h

theorem dlmParse_absent (h : s.peers[p]? = none) (cs : Bytes) : dlmParse p cs s = (s, []) := by
  induction cs with
  | nil => rfl
  | cons c cs ih =>
    rw [dlmParse_cons, dlmByte_absent p c s h, ih]
    rfl

theorem dlmReset_absent (h : s.peers[p]? = none) : dlmReset p s = s := updPeer_absent s p _ h

theorem brConn_of_running (hr : s.run = true) :
    brConn p s = s.updPeer p fun q => { q.dlmReset with conn := true } :=
  whenRunning_of_running hr _

theorem brDisc_of_running (hr : s.run = true) :
    brDisc p s = s.updPeer p fun q => { q.dlmReset with conn := false } :=
  whenRunning_of_running hr _

theorem brConn_absent (h : s.peers[p]? = none) : brConn p s = s := by
  rw [brConn, updPeer_absent _ _ _ h, whenRunning, ite_self]

theorem brDisc_absent (h : s.peers[p]? = none) : brDisc p s = s := by
  rw [brDisc, updPeer_absent _ _ _ h, whenRunning, ite_self]

/-- R253, R254: bytes of a peer that is absent or not connected do not reach the delimiter. -/
theorem brNetrx_of_unconnected (h : ∀ q, s.peers[p]? = some q → q.conn = false) (b : Bytes) : brNetrx p b s = s :=
  brNetrx_of_closed (fun hopen => Bool.false_ne_true ((isConnected_eq_false h).symm.trans hopen.2)) b

end Sys2Proof.Machine
end

section
namespace Sys2Proof.Proofs
open Sys2Proof.Machine

/-- Settles O12: of the events only BR.RESET has an effect while stopped, and only it writes `CFG`. -/
theorem resetWritesTheWholeStateTuple : Obligations.ResetWritesTheWholeStateTuple := by
  refine fun s => ⟨fun d a => rfl, fun i t hi ht hchanged => ?_⟩
  have heff := effect_of_exec ht
  by_contra hnone
  have hreset : ∀ d a, i ≠ .brReset d a := fun d a h => hnone ⟨d, a, h⟩
  obtain ⟨hd, ha⟩ | ⟨d, a, h, -⟩ := heff.cfg_writers
  · obtain ⟨hr, hne⟩ | hne | hne := hchanged
    · exact hne (heff.eq_of_stopped hr hi hreset)
    · exact hne hd
    · exact hne ha
  · exact hreset d a h

/-- Settles O13: a write to a peer of the block replaces it, and `CONN[p] = 0` closes the gate of BR.NETRX. -/
theorem connectionEventsResetTheDelimiterAndGateTheBytes :
    Obligations.ConnectionEventsResetTheDelimiterAndGateTheBytes := by
  refine fun s p q hq => ⟨fun hr => ⟨congrArg Host.Outcome.next ?conn, congrArg Host.Outcome.next ?disc⟩,
    fun chunk hconn => congrArg Host.Outcome.next (brNetrx_of_unconnected ?closed chunk)⟩
  case conn => exact (brConn_of_running hr).trans (updPeer_set s p _ q hq)
  case disc => exact (brDisc_of_running hr).trans (updPeer_set s p _ q hq)
  case closed =>
    intro q' hq'
    cases hq.symm.trans hq'
    exact hconn

/-- Settles O14: an absent peer has no registers to write or read, and `RUN = 0` closes the gate of every event. -/
theorem absentPeersAndStoppedBlockIgnoreEvents : Obligations.AbsentPeersAndStoppedBlockIgnoreEvents := by
  refine ⟨fun s p chunk hp => ?absent, fun s i => exec_of_stopped⟩
  have hnone := peer_of_npeers_le hp
  refine ⟨congrArg Host.Outcome.next (brConn_absent hnone), congrArg Host.Outcome.next (brDisc_absent hnone),
    congrArg Host.Outcome.next (brNetrx_of_unconnected (by simp [hnone]) chunk), fun c => ?byte,
    returns_dlmParse_of_eq (dlmParse_absent hnone chunk), ?reset⟩
  case byte =>
    rw [Returns, exec_dlmByte, dlmByte_absent p c s hnone]
    rfl
  case reset => exact congrArg (fun t : State => Host.Outcome.next (t.setResult (.ok .unit))) (dlmReset_absent hnone)

/-- Settles O20: a poll sends one item or none, from what the queue holds. -/
theorem pollSendsTheHeadWhenTheChannelIsIdle : Obligations.PollSendsTheHeadWhenTheChannelIsIdle := by
  have hpoll {s t : State} {idle : Bool} (h : whenRunning s (s.sendTx idle.toNat) = t) :
      exec (.brTxpoll idle) s = .next t := congrArg Host.Outcome.next ((brTxpoll_eq idle s).trans h)
  refine ⟨fun s idle hr => hpoll (whenRunning_of_stopped hr _),
    fun s hr => ⟨fun idle hq => hpoll ?empty, hpoll ?busy, fun item rest hq => hpoll ?idle⟩⟩
  case empty => rw [sendTx_of_empty hq, whenRunning, ite_self]
  case busy => exact (whenRunning_of_running hr _).trans (sendTx_zero s)
  case idle => exact (whenRunning_of_running hr _).trans (sendTx_one hq)

/-- Settles O22: BR.STOP leaves a stopped state, running or not, and no event but BR.RESET has an effect on that. -/
theorem stopClearsRunOnly : Obligations.StopClearsRunOnly := by
  intro s
  have hstop : exec .brStop s = .next { s with run := false } := by
    refine congrArg Host.Outcome.next ?_
    cases hr : s.run with
    | true => exact whenRunning_of_running hr s.stop
    | false => rw [brStop, whenRunning_of_stopped hr, ← hr]
  refine ⟨hstop, fun events hevents => ?_⟩
  rw [runInstrs, hstop]
  exact runInstrs_of_stopped rfl hevents

end Sys2Proof.Proofs
end

section
namespace Sys2Proof.Machine

/-! ## BR.NETRX, one byte or one frame at a time (R255) -/

variable {s : State} {p : Nat} {q : Peer}

theorem brNetrx_cons (hr : s.run = true) (hc : isConnected p s = true) (c : Byte) (cs : Bytes) :
    brNetrx p (c :: cs) s = brNetrx p cs (netrxByte p c s) := by
  have hbyte : brNetrx p [c] s = netrxByte p c s := brNetrx_of_connected hr hc [c]
  rw [← hbyte, ← brNetrx_append]
  rfl

/-- DLM.BYTE as BR.NETRX runs it: what it returns is dealt with, not kept. -/
theorem dlmByte_discard_result (p : Nat) (c : Byte) (s : State) (r : OpResult) :
    { (dlmByte p c s).1.setResult r with result := s.result } = (dlmByte p c s).1 := by
  rw [dlmByte_fst]
  rfl

/-- R155: an overrun is one record, which holds `MAXFRAME`. -/
theorem netrxByte_of_overrun {c : Byte} {m : Nat} (h : (dlmByte p c s).2 = .overrun)
    (hm : s.params.maxframe = some m) :
    netrxByte p c s =
      { (dlmByte p c s).1 with log := s.log ++ [⟨.bufferOverflow, opDlmByte, .netToRadio, p, m⟩] } := by
  rw [netrxByte, h, brDelimited, dlmByte_params, hm, dlmByte_fst]
  rfl

/-- R320: a frame that fits, met in `IDLE`, is one BR.FRAME and leaves the delimiter as it was. -/
theorem brNetrx_frame_of_fits (hr : s.run = true) (hq : s.peers[p]? = some q) (hconn : q.conn = true)
    (hdst : q.dst = .idle) (hbuf : q.buf = []) {f : Bytes} (hf : Delimited f)
    (hfits : WithinCap s.params.maxframe f.length) : brNetrx p f s = brFrame p f s := by
  rw [brNetrx_of_connected hr ((isConnected_of_peer hq).trans hconn), brNetrxLoop_eq,
    dlmParse_frame_of_fits hq hdst hbuf hf hfits]
  rfl

/-! ## BR.FRAME, one lemma for each of its tests (R258) -/

section
variable {frame body item : Bytes} {f : LinkFrame} {e : Failure}

theorem brFrame_of_unwrap_error (h : unwrapBytes frame = .error e) :
    brFrame p frame s = failEntry .netToRadio p e s := by
  rw [brFrame, h]

theorem brCommand_of_decb_error (h : lfDecb body = .error e) :
    brCommand p cCmdData body s = failEntry .netToRadio p e s := by
  rw [brCommand, if_neg (not_not.mpr rfl), h]

theorem brCommand_of_item (hf : lfDecb body = .ok f) (hitem : toRadio s.dialect f = .ok item) :
    brCommand p cCmdData body s =
      if s.params.qdepth = some s.txq.length then failEntry .netToRadio p queueOverflow s else s.pushTx item := by
  rw [brCommand, if_neg (not_not.mpr rfl), hf]
  dsimp only
  rw [hitem]
  simp only [State.queueFull, decide_eq_true_eq]

/-- R259: the item is the frame in the dialect `CFG.DIALECT`. -/
theorem toRadio_eq_ok_iff {d : Dialect} :
    toRadio d f = .ok item ↔ (d = .path → lfEncp f = item) ∧ (d = .binary → lfEncb f = .ok item) := by
  cases d <;> simp [toRadio]

end

/-! ## BR.RADIORX (R262) -/

section
variable {payload : Bytes} {rssi snr : Metric} {f : LinkFrame} {e : Failure} {body : Bytes}

theorem radioBody_of_parse_error (h : fromRadio s payload = .error e) : radioBody s payload rssi snr = .error e := by
  rw [radioBody, h]

theorem radioBody_of_parse_ok (h : fromRadio s payload = .ok f) :
    radioBody s payload rssi snr = lfEncb (lfInj s f rssi snr) := by
  rw [radioBody, h]

/-- R263: the operation that parses a radio packet. -/
def radioParse (d : Dialect) (payload : Bytes) : Instr :=
  match d with
  | .path => .lfDecp payload
  | .binary => .lfDecb payload

theorem returns_radioParse_ok_iff :
    Returns (radioParse s.dialect payload) s (.ok (.frame f)) ↔ fromRadio s payload = .ok f := by
  unfold radioParse fromRadio
  cases s.dialect with
  | path => exact returns_lfDecp_ok_iff
  | binary => exact returns_lfDecb_ok_iff

theorem returns_radioParse_fail_iff :
    Returns (radioParse s.dialect payload) s (.fail e) ↔ fromRadio s payload = .error e := by
  unfold radioParse fromRadio
  cases s.dialect with
  | path => exact returns_lfDecp_fail_iff
  | binary => exact returns_lfDecb_fail_iff

end

/-! ## A well-formed frame (R272) -/

section
variable {f : LinkFrame} {body pkt : Bytes}

theorem unwrapBytes_wrapBytes (body : Bytes) : unwrapBytes (wrapBytes body) = .ok (cCmdData, body) :=
  unwrapBytes_of_marks (unescBytes_wrapBytes body)

/-- R272 (a): one wrapped body from a delimiter in `IDLE`, in one chunk. -/
theorem brNetrx_wrapBytes (hr : s.run = true) (hq : s.peers[p]? = some q) (hconn : q.conn = true)
    (hdst : q.dst = .idle) (hbuf : q.buf = []) (hroom : s.params.qdepth ≠ some s.txq.length)
    (hfits : WithinCap s.params.maxframe (wrapBytes body).length) (hf : lfDecb body = .ok f)
    (hpkt : toRadio s.dialect f = .ok pkt) : brNetrx p (wrapBytes body) s = s.pushTx pkt := by
  rw [brNetrx_frame_of_fits hr hq hconn hdst hbuf (delimited_wrapBytes body) hfits,
    brFrame_of_unwrap (unwrapBytes_wrapBytes body), brCommand_of_item hf hpkt, if_neg hroom]

/-- R236: what goes to the radio is read back, in either dialect. -/
theorem fromRadio_of_toRadio (hwf : f.WellFormed) (hpkt : toRadio s.dialect f = .ok pkt) :
    fromRadio s pkt = .ok f := by
  rw [toRadio_eq_ok_iff] at hpkt
  obtain ⟨hpath, hbinary⟩ := hpkt
  unfold fromRadio
  cases hd : s.dialect with
  | path => exact hpath hd ▸ lfDecp_lfEncp _ hwf
  | binary =>
    obtain ⟨body, henc, hdec⟩ := lfDecb_lfEncb hwf
    cases henc.symm.trans (hbinary hd)
    exact hdec

/-- R272 (b): with reports off the packet is written as the wrapped frame it was made from. -/
theorem brRadiorx_of_toRadio (hr : s.run = true) (hwf : f.WellFormed) (hbody : lfEncb f = .ok body)
    (hpkt : toRadio s.dialect f = .ok pkt) (hoff : s.appendReport = false) (rssi snr : Metric) :
    brRadiorx pkt rssi snr s = s.netWriteAll (wrapBytes body) := by
  have hkept : lfInj s f rssi snr = f := by rw [lfInj, injInfo_unchanged rssi snr (.inl hoff)]
  refine brRadiorx_of_ok hr ?_
  rw [radioBody_of_parse_ok (fromRadio_of_toRadio hwf hpkt), hkept, hbody]

/-- R40: what was written to a peer is nothing its delimiter or its `CONN` bit sees. -/
theorem netWrite_registers (out : Bytes) (q : Peer) :
    (q.netWrite out).conn = q.conn ∧ (q.netWrite out).dst = q.dst ∧ (q.netWrite out).buf = q.buf := by
  unfold Peer.netWrite
  split <;> exact ⟨rfl, rfl, rfl⟩

theorem netWriteAll_getElem? (hq : s.peers[p]? = some q) (out : Bytes) :
    (s.netWriteAll out).peers[p]? = some (q.netWrite out) := by
  rw [netWriteAll_eq, List.getElem?_map, hq]
  rfl

end

end Sys2Proof.Machine
end

section
namespace Sys2Proof.Proofs
open Sys2Proof.Machine

/-- Settles O25: (a) the frame is delimited, unwrapped and decoded again, (b) the packet is parsed and packed again, and
(c) is (a) after (b), which leaves all that (a) reads. -/
theorem wellFormedFramePassesThroughBothWays : Obligations.WellFormedFramePassesThroughBothWays := by
  intro s f hr hwf
  obtain ⟨body, henc, hdec⟩ := lfDecb_lfEncb hwf
  obtain ⟨pkt, hpkt⟩ : ∃ pkt, toRadio s.dialect f = .ok pkt := by
    cases s.dialect with
    | path => exact ⟨_, rfl⟩
    | binary => exact ⟨body, henc⟩
  obtain ⟨hpath, hbinary⟩ := toRadio_eq_ok_iff.mp hpkt
  have chunked {t : State} {p : Nat} {chunks : List Bytes} (hflat : chunks.flatten = wrapBytes body)
      (h : brNetrx p (wrapBytes body) t = t.pushTx pkt) :
      runInstrs (chunks.map (.brNetrx p ·)) t = .next (t.pushTx pkt) := by
    rw [chunkBoundariesDoNotMatter, hflat, ← h]
    rfl
  have written (rssi snr : Metric) (hoff : s.appendReport = false) :
      exec (.brRadiorx pkt rssi snr) s = .next (s.netWriteAll (wrapBytes body)) :=
    congrArg Host.Outcome.next (brRadiorx_of_toRadio hr hwf henc hpkt hoff rssi snr)
  refine ⟨body, pkt, returns_lfEncb_ok_iff.mpr henc, fun hd => returns_lfEncp_iff.mpr (hpath hd),
    fun hd => Except.ok.inj ((hbinary hd).symm.trans henc), ?toRadio, written, ?back⟩
  case toRadio =>
    intro p q chunks hq hconn hdst hbuf hroom hfits hflat
    exact chunked hflat (brNetrx_wrapBytes hr hq hconn hdst hbuf hroom hfits hdec hpkt)
  case back =>
    intro p q chunks rssi snr hoff hq hconn hdst hbuf hroom hfits hflat
    obtain ⟨hconn', hdst', hbuf'⟩ := netWrite_registers (wrapBytes body) q
    rw [runInstrs, written rssi snr hoff]
    exact chunked hflat (brNetrx_wrapBytes hr (netWriteAll_getElem? hq _) (hconn'.trans hconn) (hdst'.trans hdst)
      (hbuf'.trans hbuf) hroom hfits hdec hpkt)

/-- Settles O15: the gate, then the first byte, whose result decides which of three states the others meet. -/
theorem netrxHandlesEachByteBeforeTheNext : Obligations.NetrxHandlesEachByteBeforeTheNext := by
  refine ⟨fun s p chunk hclosed => congrArg Host.Outcome.next ?closed, fun s p q hr hq hconn =>
    ⟨congrArg Host.Outcome.next (brNetrx_nil p s), fun c cs =>
      ⟨(dlmByte p c s).1.setResult (.ok (.dlm (dlmByte p c s).2)), (dlmByte p c s).2, rfl, rfl, ?opened⟩⟩⟩
  case closed =>
    obtain hr | hunconnected := hclosed
    · exact whenRunning_of_stopped hr _
    · exact brNetrx_of_unconnected hunconnected chunk
  case opened =>
    have hcons : exec (.brNetrx p (c :: cs)) s = exec (.brNetrx p cs) (netrxByte p c s) :=
      congrArg Host.Outcome.next (brNetrx_cons hr ((isConnected_of_peer hq).trans hconn) c cs)
    rw [hcons, dlmByte_discard_result]
    refine ⟨fun hnone => ?none, fun f hframe => ⟨netrxByte p c s, ?frame, rfl⟩, fun m hoverrun hm => ?overrun⟩
    case none => rw [netrxByte, hnone, brDelimited]
    case frame =>
      rw [netrxByte, hframe]
      rfl
    case overrun =>
      rw [netrxByte_of_overrun hoverrun hm, dlmByte_fst]
      rfl

/-- Settles O17: by the first of BR.FRAME's tests that fails. -/
theorem frameIsQueuedOrDroppedWithOneRecord : Obligations.FrameIsQueuedOrDroppedWithOneRecord := by
  intro s p frame
  have exec_of {t : State} (h : brFrame p frame s = t) : exec (.brFrame p frame) s = .next t :=
    congrArg Host.Outcome.next h
  refine ⟨fun e he => exec_of (brFrame_of_unwrap_error (returns_unwrap_fail_iff.mp he)), fun cmd body hunwrap => ?_⟩
  have hframe := brFrame_of_unwrap (returns_unwrap_cmdBody_iff.mp hunwrap) p s
  refine ⟨fun hcmd => exec_of (hframe.trans (brCommand_of_ne hcmd p body s)), ?_⟩
  rintro rfl
  refine ⟨fun e he => exec_of (hframe.trans (brCommand_of_decb_error (returns_lfDecb_fail_iff.mp he))),
    fun f item hf hpath hbinary => ?_⟩
  have hitem : toRadio s.dialect f = .ok item :=
    toRadio_eq_ok_iff.mpr ⟨fun hd => returns_lfEncp_iff.mp (hpath hd), fun hd => returns_lfEncb_ok_iff.mp (hbinary hd)⟩
  rw [brCommand_of_item (returns_lfDecb_ok_iff.mp hf) hitem] at hframe
  exact ⟨fun hfull => exec_of (hframe.trans (if_pos hfull)), fun hroom => exec_of (hframe.trans (if_neg hroom))⟩

/-- Settles O19: by what the parse gives, then by what LF.ENCB gives. -/
theorem radioPacketIsWrittenToEveryConnectedPeerOrLogged :
    Obligations.RadioPacketIsWrittenToEveryConnectedPeerOrLogged := by
  refine ⟨fun s payload rssi snr hr => congrArg Host.Outcome.next (brRadiorx_of_stopped hr),
    fun s payload rssi snr hr => ?_⟩
  intro parse logged
  have hlogged {e : Failure} (h : radioBody s payload rssi snr = .error e) : logged e :=
    congrArg Host.Outcome.next (brRadiorx_of_error hr h)
  refine ⟨fun e he => hlogged (radioBody_of_parse_error (returns_radioParse_fail_iff.mp he)), fun f f2 hf hf2 => ?_⟩
  have hbody : radioBody s payload rssi snr = lfEncb f2 := by
    rw [radioBody_of_parse_ok (returns_radioParse_ok_iff.mp hf), returns_lfInj_iff.mp hf2]
  refine ⟨fun e he => hlogged (hbody.trans (returns_lfEncb_fail_iff.mp he)), fun body out henc hwrap => ?_⟩
  cases (returns_iff_of_exec rfl).mp hwrap
  exact congrArg Host.Outcome.next (brRadiorx_of_ok hr (hbody.trans (returns_lfEncb_ok_iff.mp henc)))

end Sys2Proof.Proofs
end

section
namespace Sys2Proof.Machine

/-! ## What LF.DECB has read (R211) -/

variable {a b tail : Bytes} {f : LinkFrame} {pos q fuel : Nat} {digis : List Addr} {x : Bool} {u : Unpacked}

theorem exists_of_addrUnpack_ok (h : addrUnpack b pos = .ok u) :
    ∃ a, a.length = 7 ∧ u = unpackedOf a ∧ b.drop pos = a ++ b.drop (pos + 7) := by
  have hlong : pos + 7 ≤ b.length := by
    by_contra hshort
    rw [addrUnpack_short b pos (Nat.lt_of_not_le hshort)] at h
    cases h
  have hlen : ((b.drop pos).take 7).length = 7 := by
    rw [List.length_take, List.length_drop]
    omega
  have hsplit : b.drop pos = (b.drop pos).take 7 ++ b.drop (pos + 7) := by
    rw [← List.drop_drop, List.take_append_drop]
  exact ⟨_, hlen, Except.ok.inj (h.symm.trans (addrUnpack_of_drop hlen hsplit)), hsplit⟩

/-- R211, R213: the loop has read one chain, behind which it stops. -/
theorem exists_chain_of_moreDigis (h : moreDigis x fuel b pos = .ok (digis, q)) :
    ∃ gs, WireChain gs ∧ x = gs.isEmpty ∧ digis = gs.map addrOfWire ∧ b.drop pos = gs.flatten ++ b.drop q := by
  induction fuel generalizing x pos digis with
  | zero =>
    cases x with
    | true => cases h; exact ⟨[], wireChain_nil, rfl, rfl, rfl⟩
    | false => cases h
  | succ fuel ih =>
    cases x with
    | true => cases h; exact ⟨[], wireChain_nil, rfl, rfl, rfl⟩
    | false =>
      cases hu : addrUnpack b pos with
      | error e =>
        rw [moreDigis, if_neg Bool.false_ne_true, decbDigis, hu] at h
        cases h
      | ok u =>
        rw [moreDigis_of_unpack hu] at h
        obtain ⟨rest, hmore, hrest⟩ := exists_of_map_eq_ok h
        cases hrest
        obtain ⟨gs, hgs, hx, hdigis, hdrop⟩ := ih hmore
        obtain ⟨a, hlen, rfl, ha⟩ := exists_of_addrUnpack_ok hu
        refine ⟨a :: gs, wireChain_cons_iff.mpr ⟨hlen, hx, hgs⟩, rfl, ?_, ?_⟩
        · rw [List.map_cons, ← hdigis]
          rfl
        · rw [ha, hdrop, List.flatten_cons, List.append_assoc]

theorem decbControl_eq_ok {ctrl pid : Byte} {info : Bytes} (h : decbControl tail = .ok (ctrl, pid, info)) :
    tail = ctrl :: pid :: info := by
  match tail with
  | [] => cases h
  | [c] =>
    rw [decbControl_cons] at h
    split_ifs at h
  | c :: p :: rest =>
    rw [decbControl_cons] at h
    split_ifs at h
    cases h
    rfl

/-- R211, R215: the address LF.DECB reads from the seven bytes at place `k` of the chain. Destination and source, at
places 0 and 1, are never repeated. -/
def readAddr (k : Nat) (a : Bytes) : Addr :=
  { addrOfWire a with h := decide (2 ≤ k ∧ (unpackedOf a).hrr = 0b111) }

theorem readAddr_of_digi {k : Nat} (hk : 2 ≤ k) (a : Bytes) : readAddr k a = addrOfWire a := by
  rw [readAddr, addrOfWire, isRepeated]
  simp [hk, Bool.beq_eq_decide_eq]

/-- R211: what LF.DECB accepts is a chain of addresses, then the control byte, the protocol-ID and the payload. -/
theorem exists_chain_of_lfDecb (h : lfDecb b = .ok f) :
    ∃ ws : List Bytes, (∀ w ∈ ws, w.length = 7) ∧ f.dst :: f.src :: f.digis = ws.mapIdx readAddr ∧
      b = ws.flatten ++ f.ctrl :: f.pid :: f.info := by
  cases hd : addrUnpack b 0 with
  | error e => rw [lfDecb, hd] at h; cases h
  | ok ud =>
    cases hr : addrUnpack b 7 with
    | error e => rw [lfDecb, hd, hr] at h; cases h
    | ok ur =>
      cases hmore : moreDigis ur.x b.length b 14 with
      | error e => rw [lfDecb_of_more_error hd hr hmore] at h; cases h
      | ok more =>
        obtain ⟨digis, q⟩ := more
        rw [lfDecb_of_more_ok hd hr hmore] at h
        obtain ⟨c, hc, rfl⟩ := exists_of_map_eq_ok h
        obtain ⟨d, hdlen, rfl, hddrop⟩ := exists_of_addrUnpack_ok hd
        obtain ⟨r, hrlen, rfl, hrdrop⟩ := exists_of_addrUnpack_ok hr
        obtain ⟨gs, hgs, -, rfl, hgsdrop⟩ := exists_chain_of_moreDigis hmore
        refine ⟨d :: r :: gs, List.forall_mem_cons.mpr ⟨hdlen, List.forall_mem_cons.mpr ⟨hrlen, hgs.seven⟩⟩, ?_, ?_⟩
        · have hdigis : gs.mapIdx (fun k => readAddr (k + 1 + 1)) = gs.map addrOfWire :=
            List.ext_getElem (by simp) fun k _ _ => by simp [readAddr_of_digi]
          rw [List.mapIdx_cons, List.mapIdx_cons, hdigis]
          rfl
        · rw [decbControl_eq_ok hc] at hgsdrop
          calc b = d ++ b.drop 7 := hddrop
            _ = d ++ (r ++ b.drop 14) := by rw [hrdrop]
            _ = _ := by rw [hgsdrop, List.flatten_cons, List.flatten_cons, List.append_assoc, List.append_assoc]

/-! ## An address packed again (R260) -/

theorem wireOfChar_charOfWire : ∀ c : Byte, wireOfChar (charOfWire c) = c &&& 0xFE := by decide

theorem charOfWire_le : ∀ c : Byte, (charOfWire c).toNat ≤ 0x7F := by decide

theorem ssidWire_bits : ∀ (h : Bool) (ssid : BitVec 4) (x : Bool),
    (ssidWire h ssid x).extractLsb' 1 4 = ssid ∧ (ssidWire h ssid x).extractLsb' 5 2 = 0b11 ∧
      (ssidWire h ssid x).getLsbD 7 = h ∧ (ssidWire h ssid x).getLsbD 0 = x := by decide

/-- R181, R192: the spaces trimmed from six characters are those the padding puts back. -/
theorem padCall_trimRight {t : Bytes} (ht : t.length = 6) : padCall (trimRight t) = t := by
  obtain ⟨k, hk⟩ := trimRight_eq t
  have hlen := congrArg List.length hk
  rw [ht, List.length_append, List.length_replicate] at hlen
  rw [padCall, show 6 - (trimRight t).length = k by omega, ← hk]

theorem mem_of_mem_trimRight {t : Bytes} {c : Byte} (h : c ∈ trimRight t) : c ∈ t := by
  obtain ⟨k, hk⟩ := trimRight_eq t
  rw [hk]
  exact List.mem_append_left _ h

theorem length_trimRight_le (t : Bytes) : (trimRight t).length ≤ t.length := by
  obtain ⟨k, hk⟩ := trimRight_eq t
  have hlen := congrArg List.length hk
  rw [List.length_append] at hlen
  omega

/-- R260: the seven bytes of an address after LF.DECB and LF.ENCB. -/
def repackedWire (h fin : Bool) (a : Bytes) : Bytes :=
  (a.take 6).map (· &&& 0xFE) ++ [ssidWire h (ssidOfWire (a.getD 6 0)) fin]

theorem addrPack_readAddr (k : Nat) (ha : a.length = 7) (fin : Bool) :
    addrPack (readAddr k a) fin = .ok (repackedWire (readAddr k a).h fin a) := by
  have hsix : ((a.take 6).map charOfWire).length = 6 := by rw [List.length_map, List.length_take, ha]; rfl
  have hcall : (readAddr k a).call = trimRight ((a.take 6).map charOfWire) := rfl
  rw [addrPack_ok]
  · rw [hcall, padCall_trimRight hsix, List.map_map, show wireOfChar ∘ charOfWire = _ from funext wireOfChar_charOfWire]
    rfl
  · exact hsix ▸ length_trimRight_le _
  · intro c hc
    obtain ⟨w, -, rfl⟩ := List.mem_map.mp (mem_of_mem_trimRight hc)
    exact charOfWire_le w

theorem repackedWire_char (h fin : Bool) (ha : a.length = 7) {i : Nat} (hi : i < 6) :
    (repackedWire h fin a)[i]? = a[i]?.map (· &&& 0xFE) := by
  rw [repackedWire, List.getElem?_append_left (by simp [ha, hi]), List.getElem?_map, List.getElem?_take_of_lt hi]

theorem repackedWire_ssid (h fin : Bool) (ha : a.length = 7) :
    (repackedWire h fin a)[6]? = some (ssidWire h (ssidOfWire (a.getD 6 0)) fin) := by
  simp [repackedWire, ha]

/-- R260: an address chain after LF.DECB and LF.ENCB. -/
def repackedChain (ws : List Bytes) : List Bytes :=
  ws.mapIdx fun k w => repackedWire (readAddr k w).h (decide (k + 1 = ws.length)) w

section
variable {ws : List Bytes} (hws : ∀ w ∈ ws, w.length = 7)
include hws

theorem packedAs_repackedChain : PackedAs (ws.mapIdx readAddr) (repackedChain ws) := by
  refine packedAs_of_getD (by simp [repackedChain]) fun k hk => ?_
  have hk' : k < ws.length := by simpa using hk
  simp [repackedChain, List.getD, hk', addrPack_readAddr k (hws _ (List.getElem_mem hk'))]

theorem length_flatten_repackedChain : (repackedChain ws).flatten.length = 7 * ws.length := by
  rw [length_flatten_of_seven (packedAs_repackedChain hws).wireChain.seven, repackedChain, List.length_mapIdx]

/-- The bytes of packed address `k` stand at `7k`, where those it was read from stood. -/
theorem getElem?_flatten_repackedChain (tail : Bytes) {k i : Nat} {w : Bytes} (hw : ws[k]? = some w) (hi : i < 7) :
    ((repackedChain ws).flatten ++ tail)[7 * k + i]? =
      (repackedWire (readAddr k w).h (decide (k + 1 = ws.length)) w)[i]? := by
  refine getElem?_flatten_of_seven (packedAs_repackedChain hws).wireChain.seven tail ?_ hi
  rw [repackedChain, List.getElem?_mapIdx, hw]
  rfl

end

/-- R260: whatever LF.DECB accepts, LF.ENCB packs again, address by address. -/
theorem exists_repackedChain_of_lfDecb (h : lfDecb b = .ok f) :
    ∃ ws : List Bytes, (∀ w ∈ ws, w.length = 7) ∧ ws.length = f.digis.length + 2 ∧
      b = ws.flatten ++ f.ctrl :: f.pid :: f.info ∧
      lfEncb f = .ok ((repackedChain ws).flatten ++ encbTail f.info) := by
  obtain ⟨ws, hws, hchain, hb⟩ := exists_chain_of_lfDecb h
  refine ⟨ws, hws, by simpa using (congrArg List.length hchain).symm, hb, lfEncb_of_packedAs ?_⟩
  rw [hchain]
  exact packedAs_repackedChain hws

end Sys2Proof.Machine
end

section
namespace Sys2Proof.Proofs
open Sys2Proof.Machine

/-- Settles O56: the chain LF.DECB read is packed again address by address, each at its place. -/
theorem repackingNormalisesTheListedBitsOnly : Obligations.RepackingNormalisesTheListedBitsOnly := by
  intro s body f hdec n
  rw [returns_lfDecb_ok_iff] at hdec
  obtain ⟨ws, hws, hlen : ws.length = n, rfl, henc⟩ := exists_repackedChain_of_lfDecb hdec
  have hread : ws.flatten.length = 7 * n := by rw [length_flatten_of_seven hws, hlen]
  have hwritten : (repackedChain ws).flatten.length = 7 * n := by rw [length_flatten_repackedChain hws, hlen]
  have haddr (k : Nat) (hk : k < n) : ∃ w, ws[k]? = some w ∧ w.length = 7 :=
    ⟨ws[k], List.getElem?_eq_getElem (by omega), hws _ (List.getElem_mem _)⟩
  have htail (j : Nat) : ((repackedChain ws).flatten ++ encbTail f.info)[7 * n + j]? = (encbTail f.info)[j]? := by
    rw [← hwritten, List.getElem?_append_right (Nat.le_add_right ..), Nat.add_sub_cancel_left]
  refine ⟨_, returns_lfEncb_ok_iff.mpr henc, ?length, fun p frame hd hunwrap hroom => ?queued,
    fun k i hk hi => ?chars, fun k hk => ?ssid, ?ctrl, ?pid, ?info⟩
  case length => simp [hread, hwritten, encbTail]
  case queued =>
    have hframe := brFrame_of_unwrap (returns_unwrap_cmdBody_iff.mp hunwrap) p s
    rw [brCommand_of_item hdec (by rw [hd]; exact henc), if_neg hroom] at hframe
    exact congrArg Host.Outcome.next hframe
  case chars =>
    obtain ⟨w, hw, hseven⟩ := haddr k hk
    rw [getElem?_flatten_repackedChain hws _ hw (by omega), getElem?_flatten_of_seven hws _ hw (by omega),
      repackedWire_char _ _ hseven hi]
  case ssid =>
    obtain ⟨w, hw, hseven⟩ := haddr k hk
    rw [getElem?_flatten_repackedChain hws _ hw (by decide), getElem?_flatten_of_seven hws _ hw (by decide), hlen]
    exact ⟨w.getD 6 0, _, by simp [List.getD, hseven], repackedWire_ssid _ _ hseven,
      ssidWire_bits (readAddr k w).h (ssidOfWire (w.getD 6 0)) (decide (k + 1 = n))⟩
  case ctrl => exact htail 0
  case pid => exact htail 1
  case info =>
    rw [← List.drop_drop, ← List.drop_drop, List.drop_left' hwritten, List.drop_left' hread]
    rfl

end Sys2Proof.Proofs
end

/-! # Exceptions: no input stops the block, and a completed frame costs exactly itself

What follows settles the statements about failures: every step ends, `RUN = 0` is entered by BR.STOP alone and left by
BR.RESET, and a frame that fits leaves every peer as it was. -/

section
namespace Sys2Proof.Machine

/-! ## Every step ends, and what becomes of `RUN` (R321) -/

variable {i : Instr} {s t : State} {d : Dialect} {a : Bool}

/-- R321: nothing that is presented keeps the block from its next state, be it an instruction or not. -/
theorem exists_step_next (s : State) : ∃ t, step s = .next t := by
  cases hs : s.pending with
  | nil => exact ⟨s, step_of_pending_nil hs⟩
  | cons w rest =>
    cases hw : decode w with
    | error e => exact ⟨_, step_of_decode_error hs hw⟩
    | ok i =>
      obtain ⟨t, ht, -⟩ := exec_effect i { s with pending := rest }
      exact ⟨t, (step_of_decode_ok hs hw).trans ht⟩

/-- R270: a running block accepts BR.STOP, which clears `RUN`. -/
theorem exec_brStop_ne_of_running (hr : s.run = true) : exec .brStop s ≠ .next s := by
  intro hkept
  have hstop : exec .brStop s = .next s.stop := congrArg Host.Outcome.next (whenRunning_of_running hr s.stop)
  have hrun : false = s.run := congrArg State.run (Host.Outcome.next.inj (hstop.symm.trans hkept))
  exact Bool.false_ne_true (hrun.trans hr)

theorem run_of_exec_brReset (h : exec (.brReset d a) s = .next t) : t.run = true := by
  cases h
  rfl

/-- R321, R270: the two writers of `RUN` are BR.STOP and BR.RESET, and BR.RESET sets it. -/
theorem eq_brStop_of_exec_stops (h : exec i s = .next t) (hr : s.run = true) (ht : t.run = false) : i = .brStop := by
  have hwritten : t.run ≠ s.run := by simp [hr, ht]
  obtain hstop | ⟨d, a, rfl⟩ := (effect_of_exec h).run_writers hwritten
  · exact hstop
  · exact absurd (run_of_exec_brReset h) (Bool.eq_false_iff.mp ht)

/-! ## A frame and the peers (R320) -/

/-- R320: whatever BR.FRAME finds in the frame, it writes to no peer. -/
theorem brFrame_peers (p : Nat) (f : Bytes) (s : State) : (brFrame p f s).peers = s.peers :=
  (brDelimited_keeps p (.frame f) s).2

end Sys2Proof.Machine
end

section
namespace Sys2Proof.Proofs
open Sys2Proof.Machine

/-- Settles O8: every instruction has one of the effects of `Effect`, which tell the writers of `RUN` and what is left
to a stopped block. -/
theorem noInputStopsTheBlock : Obligations.NoInputStopsTheBlock := by
  refine ⟨exists_step_next, fun s => exec_brStop_ne_of_running, fun i s => ?_⟩
  obtain ⟨t, ht, heff⟩ := exec_effect i s
  refine ⟨t, ht, eq_brStop_of_exec_stops ht, heff.eq_of_stopped, ?_⟩
  rintro d a rfl
  exact run_of_exec_brReset ht

/-- Settles O18: the bytes of the frame are one BR.FRAME, which leaves the peers alone. -/
theorem completedFrameLeavesTheDelimiterIdle : Obligations.CompletedFrameLeavesTheDelimiterIdle := by
  intro s p q frame hr hq hconn hdst hbuf hframe hfits
  have hnetrx : brNetrx p frame s = brFrame p frame s := brNetrx_frame_of_fits hr hq hconn hdst hbuf hframe hfits
  exact ⟨_, congrArg Host.Outcome.next hnetrx, rfl, brFrame_peers p frame s⟩

end Sys2Proof.Proofs
end

/-! # Marker parity: what a delimiter makes of frames with two markers between bodies -/

section
namespace Sys2Proof.Machine

variable {max : Option Nat} {f cs : Bytes}

/-- R362: from `IDLE` every frame that fits is delivered, and the delimiter is in `IDLE` for the next one. -/
theorem dlmRun_flatten_of_idle {fs : List Bytes} (hfs : ∀ f ∈ fs, Delimited f)
    (hfits : ∀ f ∈ fs, WithinCap max f.length) :
    dlmRun max fs.flatten .idle [] = (.idle, [], fs.map .frame) := by
  induction fs with
  | nil => rfl
  | cons f fs ih =>
    obtain ⟨hf, hfs⟩ := List.forall_mem_cons.mp hfs
    obtain ⟨hfit, hfits⟩ := List.forall_mem_cons.mp hfits
    rw [List.flatten_cons, dlmRun_frame_of_fits hf hfit, ih hfs hfits]
    rfl

/-- R362: a frame met in `STARTED`: its first marker leads to `IDLE`, which discards the body, and its end marker back. -/
theorem dlmRun_frame_of_started (hf : Delimited f) :
    dlmRun max (f ++ cs) .started [cMark] = dlmRun max cs .started [cMark] := by
  obtain ⟨body, rfl, -, hbody⟩ := hf
  rw [List.cons_append, List.cons_append, List.append_assoc, dlmRun_cons_of_none dlmTransition_started_mark,
    dlmRun_discards (fun _ => dlmTransition_idle_of_ne) hbody]
  exact dlmRun_cons_of_none dlmTransition_idle_mark

/-- R362: from `STARTED` every frame is lost, whatever `MAXFRAME` is. -/
theorem dlmRun_flatten_of_started {fs : List Bytes} (hfs : ∀ f ∈ fs, Delimited f) :
    dlmRun max fs.flatten .started [cMark] = (.started, [cMark], []) := by
  induction fs with
  | nil => rfl
  | cons f fs ih =>
    obtain ⟨hf, hfs⟩ := List.forall_mem_cons.mp hfs
    rw [List.flatten_cons, dlmRun_frame_of_started hf, ih hfs]

end Sys2Proof.Machine
end

section
namespace Sys2Proof.Proofs
open Sys2Proof.Machine

/-- Settles O38: each frame leaves the delimiter as it met it, in `IDLE` or in `STARTED`, and only from `IDLE` is it
delivered. -/
theorem markerParityDecidesEveryLaterFrame : Obligations.MarkerParityDecidesEveryLaterFrame := by
  intro s p q bodies hq hmax hbodies
  have hfs : ∀ f ∈ bodies.map fun b => cMark :: b ++ [cMark], Delimited f :=
    List.forall_mem_map.mpr fun b hb => ⟨b, rfl, hbodies b hb⟩
  rw [List.flatMap_def]
  refine ⟨fun hdst hbuf => ?idle, fun hdst hbuf => ?started⟩ <;>
    refine returns_dlmParse_of_eq (dlmParse_of_dlmRun_same hq ?_) <;> rw [hdst, hbuf]
  case idle =>
    have hfits : ∀ f ∈ bodies.map fun b => cMark :: b ++ [cMark], WithinCap s.params.maxframe f.length := by
      rw [hmax]
      exact fun _ _ => nofun
    rw [dlmRun_flatten_of_idle hfs hfits, List.map_map]
    rfl
  case started => exact dlmRun_flatten_of_started hfs

end Sys2Proof.Proofs
end
